-- ==== Sys2Proof/Word.lean ====
section
/-! DEFINITION. The word of the ports and registers, the five-fold record that a per-band quantity is, and the
exact internal values of the datapath as plain data. -/

namespace Sys2Proof

/-- Every interface of the block moves whole 32-bit words (R61, R66, R90). -/
abbrev Word := BitVec 32

/-- A band index, `0` the 100 Hz band and `4` the 10 kHz band (R10, R21). -/
abbrev BandIx := Fin 5

/-- One thing per band, `b = 0..4` (R10: the number of bands is fixed at five). -/
structure PerBand (α : Type) where
  b0 : α
  b1 : α
  b2 : α
  b3 : α
  b4 : α
  deriving DecidableEq, Repr

/-- An internal value of the datapath: a REAL number (R15), held as plain data in exact symbolic form.
`Machine/Denote.lean` says which real each form stands for; `Machine/Arith.lean` builds them.
`cos q` is the cosine of `2π·q` (angles are counted in turns: every angle the rules use is a rational
multiple of `2π`, R18, R132, R133); `db g` is `10^(g/5120)` (R153); `pow b i n` is `b^(i/n)` (R195); `abs re im` is
the modulus of `re + i·im` (R15, R194). -/
inductive Val where
  | rat (q : Rat)
  | pi
  | cos (q : Rat)
  | db (g : Int)
  | pow (b : Rat) (i n : Nat)
  | add (a b : Val)
  | sub (a b : Val)
  | mul (a b : Val)
  | div (a b : Val)
  | max (a b : Val)
  | abs (re im : Val)
  deriving DecidableEq, Repr

end Sys2Proof
end

