-- ==== Sys2Proof/Config.lean ====
section
/-! DEFINITION. What an instance of the block fixes: the constants of the document, the synthesis and reset
parameters with the two named configurations of the spec, the arithmetic record NUM, and the free values. -/

namespace Sys2Proof

/-- Synthesis parameters (R11) and reset parameters (R29, R30, R32, R33): fixed when the block is instantiated. -/
structure Params where
  /-- `NCH`, channels per chunk, 1..255. -/
  nch : Nat
  /-- `L`, chunk capacity in samples per channel, 1..65535. -/
  cap : Nat
  /-- `MMAX`, largest filter length, odd, 1..65535. -/
  mmax : Nat
  /-- `NA`, analyzer bands, 1..255. -/
  na : Nat
  /-- `NPORT`, requester ports, at least 1. -/
  nport : Nat
  /-- `ORDER_RESET`. -/
  orderReset : Nat
  /-- `BW_RESET[b]`. -/
  bwReset : PerBand Word
  /-- `ALPHA_RESET`. -/
  alphaReset : Nat
  /-- `DECAY_RESET`. -/
  decayReset : Nat
  deriving DecidableEq, Repr

/-- The ranges of R11; a reset value must be legal for its register (R122). -/
abbrev Params.Ok (p : Params) : Prop :=
  (1 ≤ p.nch ∧ p.nch ≤ 255) ∧ (1 ≤ p.cap ∧ p.cap ≤ 65535) ∧
  (1 ≤ p.mmax ∧ p.mmax ≤ 65535 ∧ p.mmax % 2 = 1) ∧ (1 ≤ p.na ∧ p.na ≤ 255) ∧ 1 ≤ p.nport ∧
  (1 ≤ p.orderReset ∧ p.orderReset ≤ p.mmax) ∧ p.alphaReset ≤ 65536 ∧ p.decayReset ≤ 65536

/-- The named configuration `CFG_REF` (R13), whose values are the defaults (R11). -/
def Params.ref : Params where
  nch := 1
  cap := 1024
  mmax := 1025
  na := 10
  nport := 3
  orderReset := 1025
  bwReset := ⟨160, 300, 1040, 3560, 9840⟩
  alphaReset := 0x4000
  decayReset := 0xF000

/-- The named configuration `CFG_TINY` (R13). -/
def Params.tiny : Params where
  nch := 1
  cap := 4
  mmax := 5
  na := 10
  nport := 1
  orderReset := 5
  bwReset := ⟨160, 300, 1040, 3560, 9840⟩
  alphaReset := 0x4000
  decayReset := 0xF000

/-- The centre frequencies `FC[0..4]` in Hz (R10). -/
def bandCentres : PerBand Nat := ⟨100, 330, 1000, 3300, 10000⟩

/-- `F0`, the analyzer's lowest band edge in Hz (R10, conflict C10). -/
def lowestEdge : Nat := 20

/-- The arithmetic record `NUM` (R15): one total function per operation the rules use, each depending on its
operands alone. `sin` and `cos` take their angle in turns; `db2lin g` is the power of R153; `pow b i n` is the power
`b^(i/n)` of R195; `enc` is the word of `rnd v` (R72). The reference instance is `Machine.exactArith`. -/
structure Arith where
  add : Val → Val → Val
  sub : Val → Val → Val
  mul : Val → Val → Val
  div : Val → Val → Val
  max : Val → Val → Val
  abs : Val → Val → Val
  sin : Rat → Val
  cos : Rat → Val
  pi : Val
  db2lin : Int → Val
  pow : Rat → Nat → Nat → Val
  enc : Val → Word

/-- FREE VALUE (log 5). The arbiter's choice for the n-th command taken, where no choice is given (R77: any). -/
opaque Config.arbiter : Nat → Nat

end Sys2Proof
end

