-- ==== Sys2Proof/Syntax.lean ====
section
/-! DEFINITION. The commands of the block: one constructor per row of the opcode table (R94). -/

namespace Sys2Proof

/-- A command packet, decoded: the operands of its header (R92) and its payload words (R93). -/
inductive Instr where
  /-- `BUILD`: construct the bank (R131). -/
  | build
  /-- `START`: to `Processing` (R151). -/
  | start
  /-- `STOP`: to `Idle` (R152). -/
  | stop
  /-- `SETGAIN b, v`: `v` a signed gain code in 1/256 dB (R153, R103). -/
  | setgain (b : BandIx) (v : BitVec 16)
  /-- `SETMUTE b, m` (R155). -/
  | setmute (b : BandIx) (m : Bool)
  /-- `PROC n : payload` (R171). -/
  | proc (n : BitVec 16) (payload : List Word)
  /-- `ANLZ n : payload`, the source-select bit 0 (R191). -/
  | anlz (n : BitVec 16) (payload : List Word)
  /-- `ANLZL`, the source-select bit 1 (R191). -/
  | anlzl
  /-- `GETLAST` (R183). -/
  | getlast
  /-- `GETFRAME` (R204). -/
  | getframe
  /-- `WRCFG a, v` (R121). -/
  | wrcfg (a : BitVec 8) (v : Word)
  /-- `RDREG a` (R123). -/
  | rdreg (a : BitVec 8)
  deriving DecidableEq, Repr

end Sys2Proof
end

