-- ==== Sys2Proof/WellFormed.lean ====
section
/-! DEFINITION. Which commands an instance can be sent: the header range check on `n` (R100) and the payload
length the header fixes (R93). The band index is in range by its type. -/

namespace Sys2Proof

/-- A command carrying a chunk: `n <= L` (R100) and `n·NCH` payload words (R93). -/
abbrev ChunkOk (p : Params) (n : BitVec 16) (payload : List Word) : Prop :=
  n.toNat ≤ p.cap ∧ payload.length = n.toNat * p.nch

/-- The command can stand in a packet of an instance with the parameters `p`. -/
def Instr.wf (p : Params) : Instr → Bool
  | .build => true
  | .start => true
  | .stop => true
  | .setgain _ _ => true
  | .setmute _ _ => true
  | .proc n payload => decide (ChunkOk p n payload)
  | .anlz n payload => decide (ChunkOk p n payload)
  | .anlzl => true
  | .getlast => true
  | .getframe => true
  | .wrcfg _ _ => true
  | .rdreg _ => true

end Sys2Proof
end

