-- ==== Sys2Proof/Decode.lean ====
section
/-! DEFINITION. From words to commands and back (R90 to R102, R106): the header decoder, the packet decoder, both
total and rejecting by name, and the encoder, written from the same tables of the spec. -/

namespace Sys2Proof

/-- Why a word stream does not begin with a command. `noWord` and `incomplete` say that the packet has not fully
arrived (R78); every other one makes the first word an illegal command (R98). -/
inductive Reject where
  /-- There is no word. -/
  | noWord
  /-- The header is legal and fewer payload words than it announces have arrived (R78, R93). -/
  | incomplete
  /-- The opcode is `0x00` or `0x0C..0xFF` (R98). -/
  | reservedOpcode
  /-- A reserved bit of the format is 1 (R99). -/
  | reservedBits
  /-- The band index is above 4 (R100). -/
  | bandRange
  /-- `n > L` (R100). -/
  | lengthRange
  /-- `PROC` with `s = 1`, or `ANLZ` with `s = 1` and `n ≠ 0` (R98). -/
  | sourceSelect
  deriving DecidableEq, Repr

/-- `c[31:24]`, the opcode (R91). -/
def opField (c : Word) : BitVec 8 := c.extractLsb' 24 8

/-- `c[15:0]`: the value `v` of format G, the length `n` of format N (R92). -/
def lowField (c : Word) : BitVec 16 := c.extractLsb' 0 16

/-- `c[18:16]`, the band index of format G (R92). -/
def bandField (c : Word) : BitVec 3 := c.extractLsb' 16 3

/-- `c[23:16]`, the register address of format R (R92). -/
def addrField (c : Word) : BitVec 8 := c.extractLsb' 16 8

/-- `c[16]`, the source select of format N (R92). -/
def sourceBit (c : Word) : Bool := c.getLsbD 16

/-- A legal header, before its payload. -/
inductive Header where
  /-- A command with no payload. -/
  | done (i : Instr)
  /-- `PROC n`. -/
  | proc (n : BitVec 16)
  /-- `ANLZ n`. -/
  | anlz (n : BitVec 16)
  /-- `WRCFG a`. -/
  | wrcfg (a : BitVec 8)
  deriving DecidableEq, Repr

/-- The band index of a format G header, refused above 4 (R100). -/
def decodeBand (c : Word) : Except Reject BandIx :=
  if h : (bandField c).toNat < 5 then .ok ⟨(bandField c).toNat, h⟩ else .error .bandRange

/-- A format Z header: `c[23:0]` is reserved (R99). -/
def decodeZ (c : Word) (i : Instr) : Except Reject Header :=
  if c.extractLsb' 0 24 = 0 then .ok (.done i) else .error .reservedBits

/-- A format R header: `c[15:0]` is reserved (R99). -/
def decodeR (c : Word) (h : BitVec 8 → Header) : Except Reject Header :=
  if lowField c = 0 then .ok (h (addrField c)) else .error .reservedBits

/-- `SETGAIN`, format G: `c[23:19]` is reserved (R99). -/
def decodeSetgain (c : Word) : Except Reject Header :=
  if c.extractLsb' 19 5 = 0 then (decodeBand c).map fun b => .done (.setgain b (lowField c))
  else .error .reservedBits

/-- `SETMUTE`, format G: `c[23:19]` and `c[15:1]` are reserved (R99). -/
def decodeSetmute (c : Word) : Except Reject Header :=
  if c.extractLsb' 19 5 = 0 ∧ c.extractLsb' 1 15 = 0 then
    (decodeBand c).map fun b => .done (.setmute b (c.getLsbD 0))
  else .error .reservedBits

/-- A format N header with `s = 0`: `c[23:17]` is reserved (R99) and `n <= L` (R100). -/
def decodeChunk (p : Params) (c : Word) (h : BitVec 16 → Header) : Except Reject Header :=
  if (lowField c).toNat ≤ p.cap then .ok (h (lowField c)) else .error .lengthRange

/-- `PROC`: `s` must be 0 (R98). -/
def decodeProc (p : Params) (c : Word) : Except Reject Header :=
  if c.extractLsb' 17 7 = 0 then
    if sourceBit c then .error .sourceSelect else decodeChunk p c .proc
  else .error .reservedBits

/-- `ANLZ` (`s = 0`) and `ANLZL` (`s = 1`, `n = 0`) share an opcode (R94, R191). -/
def decodeAnlz (p : Params) (c : Word) : Except Reject Header :=
  if c.extractLsb' 17 7 = 0 then
    if sourceBit c then
      if lowField c = 0 then .ok (.done .anlzl) else .error .sourceSelect
    else decodeChunk p c .anlz
  else .error .reservedBits

/-- Step 1 of decoding (R102): opcode known, reserved bits zero, range checks and source rules. -/
def decodeHeader (p : Params) (c : Word) : Except Reject Header :=
  match (opField c).toNat with
  | 0x01 => decodeZ c .build
  | 0x02 => decodeZ c .start
  | 0x03 => decodeZ c .stop
  | 0x04 => decodeSetgain c
  | 0x05 => decodeSetmute c
  | 0x06 => decodeProc p c
  | 0x07 => decodeAnlz p c
  | 0x08 => decodeZ c .getlast
  | 0x09 => decodeZ c .getframe
  | 0x0A => decodeR c .wrcfg
  | 0x0B => decodeR c fun a => .done (.rdreg a)
  | _ => .error .reservedOpcode

/-- The number of payload words of a legal header (R93). -/
def Header.payloadLen (p : Params) : Header → Nat
  | .done _ => 0
  | .proc n => n.toNat * p.nch
  | .anlz n => n.toNat * p.nch
  | .wrcfg _ => 1

/-- The command a legal header makes with its payload. -/
def Header.withPayload : Header → List Word → Instr
  | .done i, _ => i
  | .proc n, ws => .proc n ws
  | .anlz n, ws => .anlz n ws
  | .wrcfg a, ws => .wrcfg a (ws.headD 0)

/-- The packet at the head of a word stream, with the words after it (R93, R102 steps 1 and 2, R106). -/
def decode (p : Params) : List Word → Except Reject (Instr × List Word)
  | [] => .error .noWord
  | c :: ws =>
    match decodeHeader p c with
    | .error e => .error e
    | .ok h =>
      if ws.length < h.payloadLen p then .error .incomplete
      else .ok (h.withPayload (ws.take (h.payloadLen p)), ws.drop (h.payloadLen p))

/-- The number of payload words the header `c` announces: none when it is refused (R93). -/
def payloadLen (p : Params) (c : Word) : Nat :=
  match decodeHeader p c with
  | .ok h => h.payloadLen p
  | .error _ => 0

/-! ### The encoder -/

/-- A format Z header (R92). -/
def headerZ (op : BitVec 8) : Word := op ++ 0#24

/-- A format G header (R92). -/
def headerG (op : BitVec 8) (b : BandIx) (v : BitVec 16) : Word := op ++ 0#5 ++ BitVec.ofNat 3 b.val ++ v

/-- A format N header (R92). -/
def headerN (op : BitVec 8) (s : BitVec 1) (n : BitVec 16) : Word := op ++ 0#7 ++ s ++ n

/-- A format R header (R92). -/
def headerR (op : BitVec 8) (a : BitVec 8) : Word := op ++ a ++ 0#16

/-- The words of a command packet: its header (R92, R94) and its payload (R90). -/
def encode : Instr → List Word
  | .build => [headerZ 0x01]
  | .start => [headerZ 0x02]
  | .stop => [headerZ 0x03]
  | .setgain b v => [headerG 0x04 b v]
  | .setmute b m => [headerG 0x05 b (0#15 ++ BitVec.ofBool m)]
  | .proc n ws => headerN 0x06 0 n :: ws
  | .anlz n ws => headerN 0x07 0 n :: ws
  | .anlzl => [headerN 0x07 1 0]
  | .getlast => [headerZ 0x08]
  | .getframe => [headerZ 0x09]
  | .wrcfg a v => [headerR 0x0A a, v]
  | .rdreg a => [headerR 0x0B a]

/-- The opcode byte of a command (R94), echoed in its response (R95). -/
def Instr.opcode : Instr → BitVec 8
  | .build => 0x01
  | .start => 0x02
  | .stop => 0x03
  | .setgain _ _ => 0x04
  | .setmute _ _ => 0x05
  | .proc _ _ => 0x06
  | .anlz _ _ => 0x07
  | .anlzl => 0x07
  | .getlast => 0x08
  | .getframe => 0x09
  | .wrcfg _ _ => 0x0A
  | .rdreg _ => 0x0B

/-! ### Words as bytes, and the opcode table's numbering -/

/-- Four bytes make a word, the byte at the lowest address in bits 7:0 (R66). -/
def wordsOfBytes : List (BitVec 8) → List Word
  | b0 :: b1 :: b2 :: b3 :: rest => (b3 ++ b2 ++ b1 ++ b0) :: wordsOfBytes rest
  | _ => []

/-- The bytes of a word list, lowest address first (R66). -/
def bytesOfWords (ws : List Word) : List (BitVec 8) :=
  ws.flatMap fun w => [w.extractLsb' 0 8, w.extractLsb' 8 8, w.extractLsb' 16 8, w.extractLsb' 24 8]

/-- The packet whose bits are the low `nbits` bits of `w`, bit 0 the least significant of the header: the header and
as many payload words as it announces, the bits above `nbits` zero. -/
def tablePacket (p : Params) (nbits w : Nat) : List Word :=
  let v := w % 2 ^ nbits
  let c : Word := BitVec.ofNat 32 v
  c :: (List.range (payloadLen p c)).map fun i => BitVec.ofNat 32 (v >>> (32 * (i + 1)))

/-- The instruction the decoder reads from a row of the opcode table, in the configuration `CFG_REF`. -/
def decodeTableWord (nbits w : Nat) : Option Instr :=
  match decode Params.ref (tablePacket Params.ref nbits w) with
  | .ok (i, _) => some i
  | .error _ => none

end Sys2Proof
end

