-- ==== Sys2Proof/Machine/Enclose.lean ====
section
/-! DEFINITION. Enclosures of exact values: two integers with `2^p` times the real a value stands for between them. They
serve only to find where an exact real lies relative to a rational (R72, R196, R198) or to another exact real (R15's
`max`); no result of a command is an enclosure. -/

namespace Sys2Proof.Machine

/-- `lo` and `hi`, in units of `2^-p`, with a real between them. -/
structure Enclosure where
  lo : Int
  hi : Int
  deriving DecidableEq, Repr

/-- `⌈a/b⌉` for positive `b`. -/
def ceilDiv (a b : Int) : Int := -(-a / b)

/-- The least of four integers. -/
def least4 (a b c d : Int) : Int := min (min a b) (min c d)

/-- The greatest of four integers. -/
def greatest4 (a b c d : Int) : Int := max (max a b) (max c d)

def Enclosure.ofRat (p : Nat) (q : Rat) : Enclosure := ⟨q.num * 2 ^ p / q.den, ceilDiv (q.num * 2 ^ p) q.den⟩

def Enclosure.add (x y : Enclosure) : Enclosure := ⟨x.lo + y.lo, x.hi + y.hi⟩

def Enclosure.sub (x y : Enclosure) : Enclosure := ⟨x.lo - y.hi, x.hi - y.lo⟩

def Enclosure.mul (p : Nat) (x y : Enclosure) : Enclosure :=
  ⟨least4 (x.lo * y.lo) (x.lo * y.hi) (x.hi * y.lo) (x.hi * y.hi) / 2 ^ p,
   ceilDiv (greatest4 (x.lo * y.lo) (x.lo * y.hi) (x.hi * y.lo) (x.hi * y.hi)) (2 ^ p)⟩

/-- The enclosure keeps clear of zero. -/
abbrev Enclosure.Apart (x : Enclosure) : Prop := 0 < x.lo ∨ x.hi < 0

/-- The reciprocals, where the enclosure keeps clear of zero. -/
def Enclosure.inv (p : Nat) (x : Enclosure) : Option Enclosure :=
  if 0 < x.lo then some ⟨4 ^ p / x.hi, ceilDiv (4 ^ p) x.lo⟩
  else if x.hi < 0 then some ⟨-ceilDiv (4 ^ p) (-x.hi), -(4 ^ p / -x.lo)⟩
  else none

def Enclosure.max (x y : Enclosure) : Enclosure := ⟨Max.max x.lo y.lo, Max.max x.hi y.hi⟩

/-- The squares, in units of `4^-p`. -/
def Enclosure.sq (x : Enclosure) : Enclosure :=
  if 0 ≤ x.lo then ⟨x.lo * x.lo, x.hi * x.hi⟩
  else if x.hi ≤ 0 then ⟨x.hi * x.hi, x.lo * x.lo⟩
  else ⟨0, Max.max (x.lo * x.lo) (x.hi * x.hi)⟩

/-- Newton's iteration for the integer square root, from above. -/
def isqrtFrom (n : Nat) : Nat → Nat → Nat
  | 0, g => g
  | fuel + 1, g =>
    let g' := (g + n / g) / 2
    if g' < g then isqrtFrom n fuel g' else g

/-- A candidate for `⌊√n⌋`, which every use checks. -/
def isqrt (n : Nat) : Nat := isqrtFrom n (n.log2 + 2) (2 ^ (n.log2 / 2 + 1))

/-- The modulus of a complex number: the roots of the sum of the squares, checked by squaring. -/
def Enclosure.abs (re im : Enclosure) : Option Enclosure :=
  let s := re.sq.add im.sq
  let lo := isqrt s.lo.toNat
  let hi := isqrt s.hi.toNat + 1
  if (lo * lo : Nat) ≤ s.lo ∧ s.hi ≤ (hi * hi : Nat) then some ⟨lo, hi⟩ else none

/-- `⌊π·2^360⌋`. -/
def piScaled : Nat := 0x3243f6a8885a308d313198a2e03707344a4093822299f31d0082efa98ec4e6c89452821e638d01377be5466cf34

/-- `π`. -/
def piEnclosure (p : Nat) : Enclosure :=
  ⟨(piScaled * 2 ^ p / 2 ^ 360 : Nat), ((piScaled + 1) * 2 ^ p / 2 ^ 360 + 1 : Nat)⟩

/-- The cosine series from its term `k` on, nested: `s_k = 1 - x²·s_(k+1)/((2k+1)(2k+2))`, cut after `fuel` terms, in
units of `2^-w`, for the angle `x = a·2^-w`; `a2` is `a²`. -/
def cosNested (w a2 : Nat) : Nat → Nat → Enclosure
  | 0, _ => ⟨0, 0⟩
  | fuel + 1, k =>
    let s := cosNested w a2 fuel (k + 1)
    let d : Int := (4 ^ w * ((2 * k + 1) * (2 * k + 2)) : Nat)
    ⟨2 ^ w - ceilDiv (a2 * s.hi) d, 2 ^ w - a2 * s.lo / d⟩

/-- `cos(2π·r)` for `0 <= r <= 1/2`: the series at an angle just below `2π·r`, widened on both sides by the distance of
the angles and by what is cut off the series (`x² <= 10`). -/
def cosEnclosure (p : Nat) (r : Rat) : Enclosure :=
  let w := p + 8
  let terms := p / 4 + 4
  let a := 2 * r.num.toNat * piScaled * 2 ^ w / (r.den * 2 ^ 360)
  let b := 2 * r.num.toNat * (piScaled + 1) * 2 ^ w / (r.den * 2 ^ 360) + 1
  let s := cosNested w (a * a) terms 0
  let cut := 2 ^ w * 2 * 10 ^ terms / (2 * terms).factorial + 1
  let slack : Int := (b - a + cut : Nat)
  ⟨(s.lo - slack) / 2 ^ 8, ceilDiv (s.hi + slack) (2 ^ 8)⟩

/-- Newton's iteration for the integer fifth root, from above. -/
def root5From (n : Nat) : Nat → Nat → Nat
  | 0, g => g
  | fuel + 1, g =>
    let g' := (4 * g + n / g ^ 4) / 5
    if g' < g then root5From n fuel g' else g

/-- About `2^w · 10^(1/5120)`: a fifth root and ten square roots (`5120 = 5·2^10`). -/
def rootOfTen (w : Nat) : Nat :=
  (List.range 10).foldl (fun y _ => isqrt (y * 2 ^ w))
    (root5From (10 * 2 ^ (5 * w)) (w + 8) (2 ^ (w + 1)))

/-- About `2^w · (c/2^w)^r` for `r < 8192`, by repeated squaring. -/
def powScaled (w c r : Nat) : Nat :=
  (List.range 13).foldl
    (fun acc i =>
      let a := acc * acc / 2 ^ w
      if r.testBit (12 - i) then a * c / 2 ^ w else a)
    (2 ^ w)

/-- `10^(g/5120)`: a candidate for the fractional part of the exponent, checked by raising it to the power 5120, times
the power of ten of the integer part. -/
def dbEnclosure (p : Nat) (g : Int) : Option Enclosure :=
  let r := (g % 5120).toNat
  let k := g / 5120
  let m := powScaled (p + 40) (rootOfTen (p + 40)) r / 2 ^ 40
  let lo : Nat := m - 1
  let hi : Nat := m + 2
  let target := 10 ^ r * 2 ^ (5120 * p)
  if lo ^ 5120 ≤ target ∧ target ≤ hi ^ 5120 then
    if 0 ≤ k then some ⟨(lo * 10 ^ k.toNat : Nat), (hi * 10 ^ k.toNat : Nat)⟩
    else some ⟨(lo / 10 ^ (-k).toNat : Nat), (hi / 10 ^ (-k).toNat + 1 : Nat)⟩
  else none

/-- The greatest number with the bits of `r` and some of the lowest `b` bits whose `n`-th power is not above `t`. -/
def rootFloorFrom (n t : Nat) : Nat → Nat → Nat
  | 0, r => r
  | b + 1, r => if (r + 2 ^ b) ^ n ≤ t then rootFloorFrom n t b (r + 2 ^ b) else rootFloorFrom n t b r

/-- `⌊t^(1/n)⌋`, bit by bit. -/
def rootFloor (n t : Nat) : Nat := rootFloorFrom n t (t.log2 / n + 1) 0

/-- `⌊2^p·s^(1/n)⌋`, for a rational `s` that is not negative. -/
def scaledRoot (p n : Nat) (s : Rat) : Nat := rootFloor n (s.num.toNat * 2 ^ (n * p) / s.den)

/-- `b^(i/n)`, for positive `b` and `n`. -/
def powEnclosure (p : Nat) (b : Rat) (i n : Nat) : Option Enclosure :=
  if 0 < b ∧ 0 < n then some ⟨(scaledRoot p n (b ^ i) : Nat), (scaledRoot p n (b ^ i) + 1 : Nat)⟩ else none

/-- `q` less its integer part, in `[0, 1)`. -/
def fracRat (q : Rat) : Rat := q - (q.num / q.den : Int)

/-- The angle in `[0, 1/2]` turns with the same cosine as `q` turns. -/
def foldTurn (q : Rat) : Rat :=
  let r := fracRat q
  if r ≤ mkRat 1 2 then r else 1 - r

/-- Apply an operation to two enclosures that are there. -/
def enclose2 (f : Enclosure → Enclosure → Option Enclosure) : Option Enclosure → Option Enclosure → Option Enclosure
  | some x, some y => f x y
  | _, _ => none

/-- An enclosure of the real a value stands for, in units of `2^-p`, or none where a divisor's enclosure holds zero. -/
def enclose (p : Nat) : Val → Option Enclosure
  | .rat q => some (.ofRat p q)
  | .pi => some (piEnclosure p)
  | .cos q => some (cosEnclosure p (foldTurn q))
  | .db g => dbEnclosure p g
  | .pow b i n => powEnclosure p b i n
  | .add a b => enclose2 (fun x y => some (x.add y)) (enclose p a) (enclose p b)
  | .sub a b => enclose2 (fun x y => some (x.sub y)) (enclose p a) (enclose p b)
  | .mul a b => enclose2 (fun x y => some (Enclosure.mul p x y)) (enclose p a) (enclose p b)
  | .div a b => enclose2 (fun x y => (Enclosure.inv p y).map (Enclosure.mul p x)) (enclose p a) (enclose p b)
  | .max a b => enclose2 (fun x y => some (x.max y)) (enclose p a) (enclose p b)
  | .abs a b => enclose2 Enclosure.abs (enclose p a) (enclose p b)

end Sys2Proof.Machine
end

