-- ==== Sys2Proof/Machine/Approx.lean ====
section
/-! DEFINITION. Rational bounds of an exact value that close in on it as their index grows, whatever the value. They are
the last resort of `Machine/Compare.lean`, for a value the enclosures do not separate from a rational. -/

namespace Sys2Proof.Machine

/-- Two rationals with a real between them. -/
structure Span where
  lo : Rat
  hi : Rat
  deriving DecidableEq, Repr

def Span.add (x y : Span) : Span := ⟨x.lo + y.lo, x.hi + y.hi⟩

def Span.sub (x y : Span) : Span := ⟨x.lo - y.hi, x.hi - y.lo⟩

def Span.mul (x y : Span) : Span :=
  ⟨min (min (x.lo * y.lo) (x.lo * y.hi)) (min (x.hi * y.lo) (x.hi * y.hi)),
   max (max (x.lo * y.lo) (x.lo * y.hi)) (max (x.hi * y.lo) (x.hi * y.hi))⟩

def Span.max (x y : Span) : Span := ⟨Max.max x.lo y.lo, Max.max x.hi y.hi⟩

/-- The reciprocals, where the span keeps clear of zero. -/
def Span.inv (x : Span) : Option Span := if 0 < x.lo ∨ x.hi < 0 then some ⟨x.hi⁻¹, x.lo⁻¹⟩ else none

/-- The squares. -/
def Span.sq (x : Span) : Span :=
  ⟨(Max.max 0 (Max.max x.lo (-x.hi))) ^ 2, Max.max (x.lo ^ 2) (x.hi ^ 2)⟩

/-- `s^(1/n)` of a rational `s` that is not negative, within `2^-k`. -/
def rootSpan (k n : Nat) (s : Rat) : Span :=
  ⟨mkRat (scaledRoot k n s) (2 ^ k), mkRat (scaledRoot k n s + 1 : Nat) (2 ^ k)⟩

/-- The modulus of a complex number. -/
def Span.abs (k : Nat) (re im : Span) : Span :=
  ⟨(rootSpan k 2 (re.sq.lo + im.sq.lo)).lo, (rootSpan k 2 (re.sq.hi + im.sq.hi)).hi⟩

/-- The first `K` terms of the series of the arctangent of `1/n`. -/
def arctanSum (n : Nat) : Nat → Rat
  | 0 => 0
  | K + 1 =>
    arctanSum n K +
      (if K % 2 = 0 then mkRat 1 ((2 * K + 1) * n ^ (2 * K + 1)) else mkRat (-1) ((2 * K + 1) * n ^ (2 * K + 1)))

/-- `π`, by `π/4 = 4·arctan(1/5) - arctan(1/239)`. -/
def piSpan (k : Nat) : Span :=
  ⟨Max.max 3 (4 * (4 * arctanSum 5 (2 * k) - arctanSum 239 (2 * k + 1))),
   4 * (4 * arctanSum 5 (2 * k + 1) - arctanSum 239 (2 * k))⟩

/-- The cosine series of the angle whose square is `y`, from its term `j` on, nested and cut after `fuel` terms. -/
def cosSeries (y : Rat) : Nat → Nat → Rat
  | 0, _ => 0
  | fuel + 1, j => 1 - y * cosSeries y fuel (j + 1) / ((2 * j + 1) * (2 * j + 2) : Nat)

/-- `cos(2π·r)` for `0 <= r <= 1/2`: the series at an angle just below, widened by the distance of the angles and by
what is cut off. -/
def cosSpan (k : Nat) (r : Rat) : Span :=
  let a := 2 * r * (piSpan k).lo
  let terms := k + 8
  let c := cosSeries (a ^ 2) terms 0
  let e := 2 * r * ((piSpan k).hi - (piSpan k).lo) + a ^ (2 * terms) / (2 * terms).factorial * 2
  ⟨c - e, c + e⟩

/-- `10^g`. -/
def tenPower (g : Int) : Rat := if g < 0 then mkRat 1 (10 ^ (-g).toNat) else (10 ^ g.toNat : Nat)

/-- Apply an operation to two spans that are there. -/
def span2 (f : Span → Span → Option Span) : Option Span → Option Span → Option Span
  | some x, some y => f x y
  | _, _ => none

/-- Bounds of the real a value stands for, the `k`-th of them, or none where a divisor's bounds hold zero. -/
def approx (k : Nat) : Val → Option Span
  | .rat q => some ⟨q, q⟩
  | .pi => some (piSpan k)
  | .cos q => some (cosSpan k (foldTurn q))
  | .db g => some (rootSpan k 5120 (tenPower g))
  | .pow b i n => if 0 < b ∧ 0 < n then some (rootSpan k n (b ^ i)) else none
  | .add a b => span2 (fun x y => some (x.add y)) (approx k a) (approx k b)
  | .sub a b => span2 (fun x y => some (x.sub y)) (approx k a) (approx k b)
  | .mul a b => span2 (fun x y => some (x.mul y)) (approx k a) (approx k b)
  | .div a b => span2 (fun x y => y.inv.map x.mul) (approx k a) (approx k b)
  | .max a b => span2 (fun x y => some (x.max y)) (approx k a) (approx k b)
  | .abs a b => span2 (fun x y => some (x.abs k y)) (approx k a) (approx k b)

end Sys2Proof.Machine
end

