-- ==== Sys2Proof/Machine/ZeroTest.lean ====
section
/-! DEFINITION. An exact test of equality with a rational, for the values that lie on a boundary of a rounding (R72) or
of a comparison (R198). A combination of roots of unity is zero exactly when it is still zero after a multiplication by
factors that are not zero at any primitive root but are at every other one; a value made by field operations of such
combinations, of `π`, of powers of ten and of moduli is written as a quotient of sums of products. -/

namespace Sys2Proof.Machine

/-! ### Combinations of roots of unity -/

/-- A combination of roots of unity: the terms `(r, q)` stand for `q·exp(2πi·r)`. -/
abbrev RootForm := List (Rat × Rat)

/-- The product of two combinations. -/
def RootForm.mul (f g : RootForm) : RootForm := f.flatMap fun x => g.map fun y => (x.1 + y.1, x.2 * y.2)

/-- The combination times `-1`. -/
def RootForm.neg (f : RootForm) : RootForm := f.map fun x => (x.1, -x.2)

/-- The combination a value is, if it is made of rationals and cosines by sums, differences and products. -/
def rootForm : Val → Option RootForm
  | .rat q => some [(0, q)]
  | .pi => none
  | .cos q => some [(q, mkRat 1 2), (-q, mkRat 1 2)]
  | .db _ => none
  | .pow _ _ _ => none
  | .add a b =>
    match rootForm a, rootForm b with
    | some f, some g => some (f ++ g)
    | _, _ => none
  | .sub a b =>
    match rootForm a, rootForm b with
    | some f, some g => some (f ++ g.neg)
    | _, _ => none
  | .mul a b =>
    match rootForm a, rootForm b with
    | some f, some g => some (f.mul g)
    | _, _ => none
  | .div _ _ => none
  | .max _ _ => none
  | .abs _ _ => none

/-- Add a term to a combination with at most one term for each root. -/
def insertTerm (x : Rat × Rat) : RootForm → RootForm
  | [] => [x]
  | y :: f => if y.1 = x.1 then (y.1, y.2 + x.2) :: f else y :: insertTerm x f

/-- The combination with its angles in `[0, 1)` turns and the terms of one root added up. -/
def RootForm.collect (f : RootForm) : RootForm := f.foldl (fun g x => insertTerm (fracRat x.1, x.2) g) []

/-- The primes that divide `n`. -/
def primeDivisors (n : Nat) : List Nat :=
  (List.range (n + 1)).filter fun p => decide (2 ≤ p) && n % p == 0 && (List.range p).all fun d => decide (d < 2) || p % d != 0

/-- The combination times `exp(2πi/p) - 1`. -/
def RootForm.timesFactor (f : RootForm) (p : Nat) : RootForm := f.map (fun x => (x.1 + mkRat 1 p, x.2)) ++ f.neg

/-- Every coefficient is zero once the combination, multiplied by the factors of the primes in the order of its roots,
is collected. -/
def RootForm.isZero (f : RootForm) : Bool :=
  let order := f.foldl (fun n x => Nat.lcm n x.1.den) 1
  (((primeDivisors order).foldl RootForm.timesFactor f.collect).collect).all fun x => decide (x.2 = 0)

/-! ### Sums of products -/

/-- A product `coef·exp(2πi·turn)·π^pi·10^(db/5120)·Π_j a_j^(atoms[j])`, the `a_j` being the moduli of a table. -/
structure Mono where
  coef : Rat
  turn : Rat
  pi : Int
  db : Int
  atoms : List Int
  deriving DecidableEq, Repr

/-- An exponent in front of others; exponents of zero at the end are left out. -/
def consExponent (e : Int) (es : List Int) : List Int := if e = 0 ∧ es = [] then [] else e :: es

/-- The exponents of a product. -/
def addExponents : List Int → List Int → List Int
  | [], ys => ys
  | xs, [] => xs
  | x :: xs, y :: ys => consExponent (x + y) (addExponents xs ys)

def Mono.mul (x y : Mono) : Mono :=
  ⟨x.coef * y.coef, fracRat (x.turn + y.turn), x.pi + y.pi, x.db + y.db, addExponents x.atoms y.atoms⟩

/-- The reciprocal. -/
def Mono.inv (x : Mono) : Mono := ⟨x.coef⁻¹, -x.turn, -x.pi, -x.db, x.atoms.map fun e => -e⟩

/-- A sum of products. -/
abbrev Poly := List Mono

/-- Add a product to a sum. -/
def insertMono (x : Mono) : Poly → Poly
  | [] => [x]
  | y :: f =>
    if y.turn = x.turn ∧ y.pi = x.pi ∧ y.db = x.db ∧ y.atoms = x.atoms then
      if y.coef + x.coef = 0 then f else { y with coef := y.coef + x.coef } :: f
    else y :: insertMono x f

def Poly.add (f g : Poly) : Poly := g.foldl (fun h x => insertMono x h) f

def Poly.neg (f : Poly) : Poly := f.map fun x => { x with coef := -x.coef }

def Poly.mul (f g : Poly) : Poly := f.foldl (fun h x => Poly.add h (g.map x.mul)) []

/-- A rational. -/
def Poly.const (q : Rat) : Poly := [⟨q, 0, 0, 0, []⟩]

/-- `√10`, as `√2·√5`: `√2` is twice the cosine of an eighth of a turn, `√5` is `1` and four times that of a fifth. -/
def sqrtTen : RootForm :=
  RootForm.mul [(mkRat 1 8, 1), (mkRat (-1) 8, 1)] [(0, 1), (mkRat 1 5, 2), (mkRat (-1) 5, 2)]

/-- A product as a combination of roots of unity, times `π^pi·10^(i/5120)·Π_j a_j^(atoms[j])` with `i = db mod 2560`. -/
def Mono.rootForm (x : Mono) : RootForm :=
  let k := x.db / 2560
  let ten : Rat := if k < 0 then mkRat 1 (10 ^ (-(k / 2)).toNat) else (10 ^ (k / 2).toNat : Nat)
  RootForm.mul [(x.turn, x.coef * ten)] (if k % 2 = 0 then [(0, 1)] else sqrtTen)

/-- Two products differ by roots of unity alone. -/
def Mono.alike (x y : Mono) : Bool :=
  decide (x.pi = y.pi ∧ x.db % 2560 = y.db % 2560 ∧ x.atoms = y.atoms)

/-- The sum is zero: so is every part of it that differs by roots of unity alone. -/
def Poly.isZeroFrom : Nat → Poly → Bool
  | _, [] => true
  | 0, _ :: _ => false
  | fuel + 1, x :: f =>
    RootForm.isZero (((x :: f).filter x.alike).flatMap Mono.rootForm) &&
      Poly.isZeroFrom fuel ((x :: f).filter fun y => !x.alike y)

def Poly.isZero (f : Poly) : Bool := Poly.isZeroFrom f.length f

/-! ### Values as quotients of sums of products -/

/-- The precision of the enclosures used here. -/
def testPrecision : Nat := 320

/-- An enclosure shows the value to be different from zero. -/
def shownNonzero (v : Val) : Bool :=
  match enclose testPrecision v with
  | some x => decide x.Apart
  | none => false

/-- Enclosures show `a <= b`. -/
def shownBelow (a b : Val) : Bool :=
  match enclose testPrecision a, enclose testPrecision b with
  | some x, some y => decide (x.hi ≤ y.lo)
  | _, _ => false

/-- The square of the modulus of `re + i·im`. -/
def squaredModulus (re im : Val) : Option RootForm :=
  match Machine.rootForm re, Machine.rootForm im with
  | some f, some g => some (f.mul f ++ g.mul g)
  | _, _ => none

/-- The modulus of `re + i·im` is shown to be the value `a`, another modulus. -/
def sameModulus (re im a : Val) : Bool :=
  match a with
  | .abs re' im' =>
    decide (re = re' ∧ im = im') ||
      (match squaredModulus re im, squaredModulus re' im' with
        | some f, some g => !shownNonzero (.sub (.abs re im) a) && RootForm.isZero (f ++ g.neg)
        | _, _ => false)
  | _ => false

/-- The moduli in a value, one of each, that are shown to be different from zero. -/
def modulusTable : Val → List Val → List Val
  | .rat _, table => table
  | .pi, table => table
  | .cos _, table => table
  | .db _, table => table
  | .pow _ _ _, table => table
  | .add a b, table => modulusTable b (modulusTable a table)
  | .sub a b, table => modulusTable b (modulusTable a table)
  | .mul a b, table => modulusTable b (modulusTable a table)
  | .div a b, table => modulusTable b (modulusTable a table)
  | .max a b, table => modulusTable b (modulusTable a table)
  | .abs a b, table =>
    if table.any (sameModulus a b) || !shownNonzero (.abs a b) then table else table ++ [.abs a b]

/-- The modulus of `re + i·im`: zero, or one of the table. -/
def modulusQuotient (table : List Val) (re im : Val) : Option (Poly × Poly) :=
  match table.findIdx? (sameModulus re im) with
  | some j => some ([⟨1, 0, 0, 0, List.replicate j 0 ++ [1]⟩], Poly.const 1)
  | none =>
    match squaredModulus re im with
    | some f => if RootForm.isZero f then some ([], Poly.const 1) else none
    | none => none

/-- The sum of two quotients. -/
def addQuotients (x y : Poly × Poly) : Poly × Poly :=
  if x.2 = y.2 then (x.1.add y.1, x.2) else ((x.1.mul y.2).add (y.1.mul x.2), x.2.mul y.2)

/-- The quotient of two quotients, the divisor being the value `b`. -/
def divQuotients (b : Val) (x y : Poly × Poly) : Option (Poly × Poly) :=
  match y.1 with
  | [m] => if m.coef = 0 then none else some ((x.1.mul y.2).mul [m.inv], x.2)
  | _ => if shownNonzero b then some (x.1.mul y.2, x.2.mul y.1) else none

/-- The greater of the values `a` and `b`. -/
def maxQuotients (a b : Val) (x y : Poly × Poly) : Option (Poly × Poly) :=
  if Poly.isZero ((x.1.mul y.2).add (y.1.mul x.2).neg) then some x
  else if shownBelow a b then some y
  else if shownBelow b a then some x
  else none

/-- Apply an operation to two quotients that are there. -/
def quotient2 (f : Poly × Poly → Poly × Poly → Option (Poly × Poly)) :
    Option (Poly × Poly) → Option (Poly × Poly) → Option (Poly × Poly)
  | some x, some y => f x y
  | _, _ => none

/-- A value as a quotient of sums of products. -/
def quotientForm (table : List Val) : Val → Option (Poly × Poly)
  | .rat q => some (Poly.const q, Poly.const 1)
  | .pi => some ([⟨1, 0, 1, 0, []⟩], Poly.const 1)
  | .cos q => some ([⟨mkRat 1 2, fracRat q, 0, 0, []⟩, ⟨mkRat 1 2, fracRat (-q), 0, 0, []⟩], Poly.const 1)
  | .db g => some ([⟨1, 0, 0, g, []⟩], Poly.const 1)
  | .pow _ _ _ => none
  | .add a b => quotient2 (fun x y => some (addQuotients x y)) (quotientForm table a) (quotientForm table b)
  | .sub a b =>
    quotient2 (fun x y => some (addQuotients x (y.1.neg, y.2))) (quotientForm table a) (quotientForm table b)
  | .mul a b =>
    quotient2 (fun x y => some (x.1.mul y.1, x.2.mul y.2)) (quotientForm table a) (quotientForm table b)
  | .div a b => quotient2 (divQuotients b) (quotientForm table a) (quotientForm table b)
  | .max a b => quotient2 (maxQuotients a b) (quotientForm table a) (quotientForm table b)
  | .abs a b => modulusQuotient table a b

/-- The value is shown to be the rational `q`. -/
def equalsRat (v : Val) (q : Rat) : Bool :=
  match quotientForm (modulusTable v []) v with
  | some x => Poly.isZero (x.1.add (x.2.mul (Poly.const q)).neg)
  | none => false

end Sys2Proof.Machine
end

