-- ==== Sys2Proof/Machine/Compare.lean ====
section
/-! DEFINITION. Where an exact value lies relative to a rational, decided for every value that divides by nothing zero: by
enclosures, by the exact test of equality, and where neither answers by bounds that close in without end. -/

namespace Sys2Proof.Machine

/-- The order of two rationals. -/
def orderRat (a b : Rat) : Ordering := if a < b then .lt else if a = b then .eq else .gt

/-- The order of `c·b^(i/n)` and `q`, for positive `c`, `b` and `n`: both sides to the power `n` (R196). -/
def orderPower (c b : Rat) (i n : Nat) (q : Rat) : Ordering := if q ≤ 0 then .gt else orderRat (b ^ i) ((q / c) ^ n)

/-- The order of a value and a rational, where an enclosure at one of the precisions separates them. -/
def orderByEnclosure (v : Val) (q : Rat) : List Nat → Option Ordering
  | [] => none
  | p :: ps =>
    match enclose p v with
    | some x =>
      if mkRat x.hi (2 ^ p) < q then some .lt
      else if q < mkRat x.lo (2 ^ p) then some .gt
      else orderByEnclosure v q ps
    | none => orderByEnclosure v q ps

/-- The order of a value and a rational, by bounds of growing index. There is none exactly where no bounds separate
them, that is where they are equal; `compareRat` asks only after the test of equality has not found them so. -/
def orderByBounds (v : Val) (q : Rat) (k : Nat) : Option Ordering :=
  match approx k v with
  | some x =>
    if x.hi < q then some .lt
    else if q < x.lo then some .gt
    else orderByBounds v q (k + 64)
  | none => orderByBounds v q (k + 64)
partial_fixpoint

/-- The precisions at which a value is enclosed. -/
def enclosePrecisions : List Nat := [96, 320]

/-- The order of a value, none of the simple forms, and a rational. -/
def compareGeneral (v : Val) (q : Rat) : Ordering :=
  match orderByEnclosure v q enclosePrecisions with
  | some o => o
  | none => if equalsRat v q then .eq else (orderByBounds v q 320).getD .eq

/-- The order of the real a value stands for and a rational. -/
def compareRat (v : Val) (q : Rat) : Ordering :=
  match v with
  | .rat a => orderRat a q
  | .mul (.rat c) (.pow b i n) =>
    if 0 < c ∧ 0 < b ∧ 0 < n then orderPower c b i n q else compareGeneral v q
  | v => compareGeneral v q

end Sys2Proof.Machine
end

