-- ==== Sys2Proof/Machine/Arith.lean ====
section
/-! DEFINITION. The port format (R70 to R72) and the reference arithmetic: exact real operations on values (R15),
which fold what is rational and otherwise build the exact form. -/

namespace Sys2Proof.Machine

/-- The real 0. -/
abbrev Val.zero : Val := .rat 0

/-- The real 1. -/
abbrev Val.one : Val := .rat 1

/-! ### The port format -/

/-- Exponent field 255: an infinity or a NaN (R70, R71). -/
def nonFinite (w : Word) : Bool := w.extractLsb' 23 8 == 255#8

/-- The number a finite binary32 word denotes (R70); `e = 255` denotes none. -/
def dec32 (w : Word) : Option Rat :=
  let e := (w.extractLsb' 23 8).toNat
  let f := (w.extractLsb' 0 23).toNat
  let m : Rat :=
    if e = 0 then mkRat f (2 ^ 149)
    else if 150 ≤ e then ((2 ^ 23 + f) * 2 ^ (e - 150) : Nat) else mkRat (2 ^ 23 + f : Nat) (2 ^ (150 - e))
  if e = 255 then none else some (if w.getLsbD 31 then -m else m)

/-- The internal value of a sample word; the payload check has refused the words that denote none (R71, R102). -/
def decVal (w : Word) : Val := .rat ((dec32 w).getD 0)

/-- The integer nearest to `n/d`, ties to even. -/
def roundHalfEven (n d : Nat) : Nat :=
  let q := n / d
  let r := n % d
  if 2 * r < d then q
  else if d < 2 * r then q + 1
  else if q % 2 = 0 then q else q + 1

/-- `⌊log2 (n/d)⌋` for positive `n` and `d`. -/
def log2Ratio (n d : Nat) : Int :=
  let e : Int := (n.log2 : Int) - d.log2
  let below : Bool := if 0 ≤ e then decide (n < d * 2 ^ e.toNat) else decide (n * 2 ^ (-e).toNat < d)
  if below then e - 1 else e

/-- The magnitude bits of the binary32 value nearest to `n/d` (ties to even), saturating at the largest finite one
(R72). `x` is the exponent, not below that of the subnormals; the last bit of the fraction weighs `2^(x-23)`. -/
def encMagnitude (n d : Nat) : Nat :=
  let x : Int := Max.max (log2Ratio n d) (-126)
  let k : Int := 23 - x
  let m := if 0 ≤ k then roundHalfEven (n * 2 ^ k.toNat) d else roundHalfEven n (d * 2 ^ (-k).toNat)
  Min.min ((x + 126).toNat * 2 ^ 23 + m) 0x7F7FFFFF

/-- The binary32 word of a rational, rounded to nearest, ties to even, saturating; a result of zero is the word
`0x00000000` (R72). -/
def encRat (q : Rat) : Word :=
  if q.num = 0 then 0
  else
    let m := encMagnitude q.num.natAbs q.den
    if m = 0 then 0 else BitVec.ofNat 32 (if q.num < 0 then 2 ^ 31 + m else m)

/-- The word of `m·2^-p`. -/
def encScaled (p : Nat) (m : Int) : Word := encRat (mkRat m (2 ^ p))

/-- The word both ends of an enclosure round to, at the first of the precisions where they agree. -/
def settledWord (v : Val) : List Nat → Option Word
  | [] => none
  | p :: ps =>
    match enclose p v with
    | some x => if encScaled p x.lo = encScaled p x.hi then some (encScaled p x.lo) else settledWord v ps
    | none => settledWord v ps

/-- The rank of the largest finite value: the finite values other than the second zero have the ranks `-r` to `r`, in
their order, with 0 at rank 0. -/
def largestRank : Int := 0x7F7FFFFF

/-- The word of a rank. -/
def rankWord (r : Int) : Word := BitVec.ofNat 32 (if r < 0 then 2 ^ 31 + r.natAbs else r.natAbs)

/-- The value of a rank. -/
def rankValue (r : Int) : Rat := (dec32 (rankWord r)).getD 0

/-- The rounding boundary between the ranks `r` and `r + 1`. -/
def midpoint (r : Int) : Rat := (rankValue r + rankValue (r + 1)) / 2

/-- The least rank from `lo` to `hi` whose upper boundary is not below `v`, or `hi`, by halving. -/
def bisectRank (v : Val) : Nat → Int → Int → Int
  | 0, _, hi => hi
  | fuel + 1, lo, hi =>
    if hi ≤ lo then hi
    else if compareRat v (midpoint ((lo + hi) / 2)) = .gt then bisectRank v fuel ((lo + hi) / 2 + 1) hi
    else bisectRank v fuel lo ((lo + hi) / 2)

/-- The rank a value rounds to: to nearest, ties to even, saturating (R72). -/
def roundedRank (v : Val) : Int :=
  let r := bisectRank v 33 (-largestRank) largestRank
  if r < largestRank ∧ r % 2 = 1 ∧ compareRat v (midpoint r) = .eq then r + 1 else r

/-- `enc32(v)` of the reference instance (R72): a rational is rounded outright; any other exact value is rounded through
an enclosure, and where that straddles a boundary by exact comparison with the boundaries. -/
def enc32 : Val → Word
  | .rat q => encRat q
  | v =>
    match settledWord v enclosePrecisions with
    | some w => w
    | none => rankWord (roundedRank v)

/-! ### Exact operations -/

namespace Exact

/-- The precision at which two exact values are compared to simplify a maximum or a quotient. -/
def comparePrecision : Nat := 96

def add : Val → Val → Val
  | .rat a, .rat b => .rat (a + b)
  | a, b => if a = Val.zero then b else if b = Val.zero then a else .add a b

def sub : Val → Val → Val
  | .rat a, .rat b => .rat (a - b)
  | a, b => if b = Val.zero then a else .sub a b

def mul : Val → Val → Val
  | .rat a, .rat b => .rat (a * b)
  | a, b =>
    if a = Val.zero ∨ b = Val.zero then Val.zero
    else if a = Val.one then b
    else if b = Val.one then a
    else .mul a b

/-- The enclosure shows the value to be different from zero. -/
def apartFromZero (v : Val) : Bool :=
  match enclose comparePrecision v with
  | some x => decide x.Apart
  | none => false

/-- A quotient; a divisor that is zero gives zero (the rules divide by nothing that can be zero except a frame maximum,
whose quotient R198 says is then 0). -/
def div : Val → Val → Val
  | .rat a, .rat b => .rat (a / b)
  | a, b =>
    if a = Val.zero then Val.zero
    else if b = Val.one then a
    else if a = b ∧ apartFromZero b = true then Val.one
    else .div a b

/-- The enclosures show `a <= b`. -/
def belowByEnclosure (a b : Val) : Bool :=
  match enclose comparePrecision a, enclose comparePrecision b with
  | some x, some y => decide (x.hi ≤ y.lo)
  | _, _ => false

/-- The greater of two values, or their maximum in exact form where the enclosures do not tell them apart. -/
def max : Val → Val → Val
  | .rat a, .rat b => .rat (if a ≤ b then b else a)
  | a, b =>
    if a = b then a
    else if belowByEnclosure a b then b
    else if belowByEnclosure b a then a
    else .max a b

/-- `√q` where it is rational. -/
def sqrtRat (q : Rat) : Option Rat :=
  let n := isqrt q.num.toNat
  let d := isqrt q.den
  if 0 ≤ q.num ∧ n * n = q.num.toNat ∧ d * d = q.den then some (mkRat n d) else none

def abs : Val → Val → Val
  | .rat a, .rat b =>
    match sqrtRat (a * a + b * b) with
    | some r => .rat r
    | none => .abs (.rat a) (.rat b)
  | a, b => .abs a b

/-- The cosine of `q` turns, folded to `[0, 1/2]`; rational where it is. -/
def cos (q : Rat) : Val :=
  let r := foldTurn q
  if r = 0 then .rat 1
  else if r = mkRat 1 6 then .rat (mkRat 1 2)
  else if r = mkRat 1 4 then .rat 0
  else if r = mkRat 1 3 then .rat (mkRat (-1) 2)
  else if r = mkRat 1 2 then .rat (-1)
  else .cos r

/-- The sine of `q` turns: the cosine a quarter turn earlier. -/
def sin (q : Rat) : Val := cos (q - mkRat 1 4)

/-- `10^(g/5120)` (R153); rational where `5120` divides `g`. -/
def db2lin (g : Int) : Val :=
  if g % 5120 = 0 then
    .rat (if g < 0 then mkRat 1 (10 ^ (-(g / 5120)).toNat) else mkRat (10 ^ (g / 5120).toNat) 1)
  else .db g
/-- `b^(i/n)` (R195); rational where the exponent is 0 or 1. -/
def pow (b : Rat) (i n : Nat) : Val := if i = 0 then .rat 1 else if i = n then .rat b else .pow b i n

end Exact

/-- The reference instance of `NUM`: exact real arithmetic (R15). -/
def exactArith : Arith where
  add := Exact.add
  sub := Exact.sub
  mul := Exact.mul
  div := Exact.div
  max := Exact.max
  abs := Exact.abs
  sin := Exact.sin
  cos := Exact.cos
  pi := .pi
  db2lin := Exact.db2lin
  pow := Exact.pow
  enc := enc32

/-- `rnd v`: the value the word of `v` denotes (R16 N3, R72). -/
def rndVal (A : Arith) (v : Val) : Val := decVal (A.enc v)

/-- A sum, taken in list order (R15, R18). -/
def sumVal (A : Arith) (vs : List Val) : Val := vs.foldl A.add Val.zero

/-- The greatest of a list (R198). -/
def maxVal (A : Arith) : List Val → Val
  | [] => Val.zero
  | v :: vs => vs.foldl A.max v

end Sys2Proof.Machine
end

