-- ==== Sys2Proof/Machine/State.lean ====
section
/-! DEFINITION. The state of the block as plain data (R20 to R50), its ports, and the state after reset (R55). -/

namespace Sys2Proof.Machine

/-- Why a command stops. Neither reason can arise in a state that meets `State.Inv` (Safety.lean): the spec guards
every read of unwritten memory by `BUILT` or `LAST_VALID` (R56). -/
inductive Fault where
  /-- `PROC` with `RUN = 1` while no `BUILD` has ever written the bank (R38, R56). Raised by `execProc`. SAFE: the
  spec gives such a read no value and makes the state unreachable (R46). -/
  | unwrittenBank
  /-- `GETLAST` or `ANLZL` with `LAST_VALID = 1` while no `PROC` has ever written `LAST` (R41, R56). Raised by
  `execGetlast` and `execAnlzl`. SAFE: the spec gives such a read no value and makes the state unreachable. -/
  | unwrittenLast
  deriving DecidableEq, Repr

/-- Why a command is turned away without a meaning. -/
inductive Refusal where
  /-- An instruction without a meaning yet. Raised by no arm of `exec`. SAFE: the run stops. -/
  | notModelled (mnemonic : String)
  deriving DecidableEq, Repr

/-- A band register `BAND[b]` (R21). -/
structure Band where
  /-- `GDB`: the gain in dB, a signed code in units of 1/256 dB. -/
  gdb : BitVec 16
  /-- `MUTE`. -/
  mute : Bool
  /-- `LIN`: the derived linear gain, an exact real. -/
  lin : Val
  deriving DecidableEq, Repr

/-- One port (R74, R75): the words that have arrived and are not taken, and the response words not yet delivered. -/
structure Port where
  rx : List Word
  tx : List Word
  deriving DecidableEq, Repr

/-- The state of the block (R20), with what the model holds beside it: the parameters of the instance, the ports,
and what the world outside decides. -/
structure State where
  /-- The instance's parameters (R11): no command changes them. MODEL'S OWN FIELD (log 1). -/
  params : Params
  /-- `CFG_FS` (R28). -/
  cfgFs : Word
  /-- `CFG_ORDER` (R29). -/
  cfgOrder : Word
  /-- `CFG_BW[0..4]` (R30). -/
  cfgBw : PerBand Word
  /-- `CFG_GMIN` (R31). -/
  cfgGmin : Word
  /-- `CFG_GMAX` (R31). -/
  cfgGmax : Word
  /-- `CFG_ALPHA` (R32). -/
  cfgAlpha : Word
  /-- `CFG_DECAY` (R33). -/
  cfgDecay : Word
  /-- `RUN`: `false` is `Idle`, `true` is `Processing` (R23). -/
  run : Bool
  /-- `BUILT` (R24). -/
  built : Bool
  /-- `LAST_VALID` (R25). -/
  lastValid : Bool
  /-- `ERRLOG[6:0]` (R26). -/
  errlog : BitVec 7
  /-- `BAND[0..4]` (R21). -/
  band : PerBand Band
  /-- `BANK_FS` (R35). -/
  bankFs : Word
  /-- `BANK_M` (R35). -/
  bankM : BitVec 16
  /-- `BANK_N` (R35). -/
  bankN : Word
  /-- `BANK_BW[0..4]` (R35). -/
  bankBw : PerBand Word
  /-- `BANK.h[b][j]` (R38), absent until a `BUILD` writes it (R56). `BANK.H` is a function of it (R39). -/
  bank : Option (PerBand (List Val))
  /-- `TAIL[c][b][k]` (R40): a row of `MMAX - 1` values for every channel and band. -/
  tail : List (PerBand (List Val))
  /-- `LAST_LEN` (R36). -/
  lastLen : BitVec 16
  /-- `LAST[c][t]` for `t < LAST_LEN` (R41), absent until a `PROC` writes it (R56). -/
  last : Option (List (List Val))
  /-- `LEVEL[0..NA-1]` (R42). -/
  level : List Val
  /-- `PEAK[0..NA-1]` (R43). -/
  peak : List Val
  /-- The `NPORT` ports (R74). -/
  ports : List Port
  /-- The port whose packet is being answered (R75, R90). MODEL'S OWN FIELD (log 4). -/
  active : Nat
  /-- The choices the arbiter is given, one for each command taken (R77). MODEL'S OWN FIELD (log 5). -/
  grants : List Nat
  /-- How many commands have been taken: the counter the free arbiter is applied to. MODEL'S OWN FIELD (log 5). -/
  taken : Nat
  /-- `rst` is asserted (R74, R250): the next step is the reset. MODEL'S OWN FIELD (log 6). -/
  rst : Bool
  deriving DecidableEq, Repr

/-- The band registers after reset: 0 dB, un-muted, linear gain 1 (R55). -/
def Band.reset : Band := ⟨0, false, .rat 1⟩

/-- The tail memory after reset and after a `BUILD`: all zero (R55, R136). -/
def zeroTail (p : Params) : List (PerBand (List Val)) :=
  let row := List.replicate (p.mmax - 1) (Val.rat 0)
  List.replicate p.nch ⟨row, row, row, row, row⟩

/-- The state after reset of an instance with the parameters `p` (R55, R250). -/
def State.resetOf (p : Params) : State where
  params := p
  cfgFs := 44100
  cfgOrder := BitVec.ofNat 32 p.orderReset
  cfgBw := p.bwReset
  cfgGmin := 0xE200
  cfgGmax := 0x0C00
  cfgAlpha := BitVec.ofNat 32 p.alphaReset
  cfgDecay := BitVec.ofNat 32 p.decayReset
  run := false
  built := false
  lastValid := false
  errlog := 0
  band := ⟨Band.reset, Band.reset, Band.reset, Band.reset, Band.reset⟩
  bankFs := 0
  bankM := 0
  bankN := 0
  bankBw := ⟨0, 0, 0, 0, 0⟩
  bank := none
  tail := zeroTail p
  lastLen := 0
  last := none
  level := List.replicate p.na (.rat 0)
  peak := List.replicate p.na (.rat 0)
  ports := List.replicate p.nport ⟨[], []⟩
  active := 0
  grants := []
  taken := 0
  rst := false

/-- The machine right after reset, in the configuration `CFG_REF`, whose values are the defaults (R11, R13). -/
def State.reset : State := State.resetOf Params.ref

end Sys2Proof.Machine
end

