-- ==== Sys2Proof/Machine/Operands.lean ====
section
/-! DEFINITION. Every operand form: the gain code, the fraction code, the band index, the register address with the
register map (R62), and the chunk as a payload and as channels. -/

namespace Sys2Proof

namespace PerBand

variable {α β : Type}

/-- The element of band `b`. -/
def get (x : PerBand α) (b : BandIx) : α :=
  match b.val with
  | 0 => x.b0
  | 1 => x.b1
  | 2 => x.b2
  | 3 => x.b3
  | _ => x.b4

/-- The record with band `b` replaced. -/
def set (x : PerBand α) (b : BandIx) (v : α) : PerBand α :=
  match b.val with
  | 0 => ⟨v, x.b1, x.b2, x.b3, x.b4⟩
  | 1 => ⟨x.b0, v, x.b2, x.b3, x.b4⟩
  | 2 => ⟨x.b0, x.b1, v, x.b3, x.b4⟩
  | 3 => ⟨x.b0, x.b1, x.b2, v, x.b4⟩
  | _ => ⟨x.b0, x.b1, x.b2, x.b3, v⟩

/-- One thing made for each band. -/
def build (f : BandIx → α) : PerBand α := ⟨f 0, f 1, f 2, f 3, f 4⟩

end PerBand

namespace Machine

/-! ### Codes -/

/-- A gain code as an integer in units of 1/256 dB (R103: `sext_16`). -/
def gainCode (v : BitVec 16) : Int := v.toInt

/-- The gain code in the low half of a bound register (R31). -/
def boundCode (w : Word) : Int := gainCode (w.extractLsb' 0 16)

/-- A fraction code, bits 16:0, meaning `code / 65536` (R105). -/
def fraction (w : Word) : Val := .rat (mkRat (w.extractLsb' 0 17).toNat 65536)

/-! ### Register addresses -/

/-- A register of the map (R62). -/
inductive Reg where
  | status
  | errlog
  | cfgFs
  | cfgOrder
  | cfgBw (b : BandIx)
  | cfgGmin
  | cfgGmax
  | cfgAlpha
  | cfgDecay
  | band (b : BandIx)
  | bankFs
  | bankM
  | bankN
  | bankBw (b : BandIx)
  | lastLen
  | params0
  | params1
  deriving DecidableEq, Repr

/-- The register at an address; none where the address is reserved (R62). -/
def regAt (a : BitVec 8) : Option Reg :=
  match a.toNat with
  | 0x00 => some .status
  | 0x01 => some .errlog
  | 0x02 => some .cfgFs
  | 0x03 => some .cfgOrder
  | 0x04 => some (.cfgBw 0)
  | 0x05 => some (.cfgBw 1)
  | 0x06 => some (.cfgBw 2)
  | 0x07 => some (.cfgBw 3)
  | 0x08 => some (.cfgBw 4)
  | 0x09 => some .cfgGmin
  | 0x0A => some .cfgGmax
  | 0x0B => some .cfgAlpha
  | 0x0C => some .cfgDecay
  | 0x10 => some (.band 0)
  | 0x11 => some (.band 1)
  | 0x12 => some (.band 2)
  | 0x13 => some (.band 3)
  | 0x14 => some (.band 4)
  | 0x18 => some .bankFs
  | 0x19 => some .bankM
  | 0x1A => some .bankN
  | 0x1B => some (.bankBw 0)
  | 0x1C => some (.bankBw 1)
  | 0x1D => some (.bankBw 2)
  | 0x1E => some (.bankBw 3)
  | 0x1F => some (.bankBw 4)
  | 0x20 => some .lastLen
  | 0x21 => some .params0
  | 0x22 => some .params1
  | _ => none

/-- The access column of R62: `true` for RW, `false` for RO. -/
def Reg.writable : Reg → Bool
  | .status => false
  | .errlog => false
  | .cfgFs => true
  | .cfgOrder => true
  | .cfgBw _ => true
  | .cfgGmin => true
  | .cfgGmax => true
  | .cfgAlpha => true
  | .cfgDecay => true
  | .band _ => false
  | .bankFs => false
  | .bankM => false
  | .bankN => false
  | .bankBw _ => false
  | .lastLen => false
  | .params0 => false
  | .params1 => false

/-! ### Chunks -/

/-- Some payload word denotes no real number (R71). -/
def payloadNonFinite (ws : List Word) : Bool := ws.any nonFinite

/-- The channels of a payload of `n` frames: the sample of time `t` and channel `c` is word `t·NCH + c` (R73). -/
def channelsOf (nch n : Nat) (ws : List Word) : List (List Val) :=
  (List.range nch).map fun c => (List.range n).map fun t => decVal (ws.getD (t * nch + c) 0)

/-- The payload of `n` frames given word by word: word `t·NCH + c` is that of time `t` and channel `c` (R73). -/
def payloadOf (nch n : Nat) (word : Nat → Nat → Word) : List Word :=
  (List.range n).flatMap fun t => (List.range nch).map fun c => word c t

/-- `A[c][t]` of a chunk. -/
def sampleAt (x : List (List Val)) (c t : Nat) : Val := (x.getD c []).getD t Val.zero

end Machine

end Sys2Proof
end

