-- ==== Sys2Proof/Machine/Flags.lean ====
section
/-! DEFINITION. Flags: the error codes (R221), the sticky log (R26), and the status words (R27). -/

namespace Sys2Proof.Machine

/-- The errors of R221. -/
inductive Err where
  | invalidBand
  | filterBankConfig
  | invalidGain
  | notProcessing
  | emptyChunk
  | illegalCommand
  deriving DecidableEq, Repr

/-- The code of an error (R221). -/
def Err.code : Err → BitVec 4
  | .invalidBand => 1
  | .filterBankConfig => 2
  | .invalidGain => 3
  | .notProcessing => 4
  | .emptyChunk => 5
  | .illegalCommand => 6

/-- The bit of `ERRLOG` with the number of the error's code (R26). -/
def Err.logBit : Err → BitVec 7
  | .invalidBand => 0x02
  | .filterBankConfig => 0x04
  | .invalidGain => 0x08
  | .notProcessing => 0x10
  | .emptyChunk => 0x20
  | .illegalCommand => 0x40

/-- `ERRLOG[code of e] <- 1`; the other bits stay (R26, R228). -/
def logError (e : Err) (s : State) : State := { s with errlog := s.errlog ||| e.logBit }

/-- `STATUS`: bit 0 `RUN`, bit 1 `BUILT`, bit 2 `LAST_VALID`, the rest zero (R27). -/
def statusWord (s : State) : Word :=
  0#29 ++ BitVec.ofBool s.lastValid ++ BitVec.ofBool s.built ++ BitVec.ofBool s.run

/-- `ERRLOG`: bits 6:0, the rest zero (R27). -/
def errlogWord (s : State) : Word := 0#25 ++ s.errlog

end Sys2Proof.Machine
end

