-- ==== Sys2Proof/Machine/Ops.lean ====
section
/-! DEFINITION. The operations the commands share: responding, raising an error, reset, reading and writing a register,
taking a packet from a port, and the two formulas that the filter design and the analyzer have in common. -/

namespace Sys2Proof.Machine

/-- What a command or a step answers. -/
abbrev Result := Host.Outcome State Fault Refusal

/-! ### Responses and errors -/

/-- The header of a response: `op`, `code`, `aux`, `cnt` (R95). -/
def responseHeader (op : BitVec 8) (code aux : BitVec 4) (cnt : BitVec 16) : Word := op ++ code ++ aux ++ cnt

/-- Put words on the response channel of a port, behind those not yet delivered (R74, R75). -/
def putResponse (q : Nat) (ws : List Word) (s : State) : State :=
  { s with ports := s.ports.modify q fun p => { p with tx := p.tx ++ ws } }

/-- End the command successfully (R18 `respond`, R95): one response packet with code 0, on the port served. -/
def respond (op : BitVec 8) (aux : BitVec 4) (cnt : BitVec 16) (payload : List Word) (s : State) : Result :=
  .next (putResponse s.active (responseHeader op 0 aux cnt :: payload) s)

/-- TAKING AN ERROR, the block's only exception (R18 `raise`, R228). `s` is the state before the command: nothing it
would have written is kept, the sticky bit is set, and the response is the one word with the code. There is no return
from an error (R231): the next command executes normally. -/
def raise (op : BitVec 8) (e : Err) (aux : BitVec 4) (s : State) : Result :=
  .next (putResponse s.active [responseHeader op e.code aux 0] (logError e s))

/-! ### Reset -/

/-- `rst` (R250): every element of the block's state at its reset value, every packet in a port buffer and every
response not delivered discarded. The instance's parameters and what the world outside decides stay. -/
def applyReset (s : State) : State := { State.resetOf s.params with grants := s.grants, taken := s.taken }

/-! ### The register space -/

/-- `BANDb`: bits 15:0 `GDB`, bit 16 `MUTE`, the rest zero (R34). -/
def bandWord (b : Band) : Word := 0#15 ++ BitVec.ofBool b.mute ++ b.gdb

/-- `PARAMS0`: bits 15:0 `L`, 23:16 `NCH`, 31:24 `NA` (R37). -/
def params0Word (p : Params) : Word := BitVec.ofNat 8 p.na ++ BitVec.ofNat 8 p.nch ++ BitVec.ofNat 16 p.cap

/-- `PARAMS1`: bits 15:0 `MMAX`, 23:16 `NPORT` (255 if more), the rest zero (R37). -/
def params1Word (p : Params) : Word := 0#8 ++ BitVec.ofNat 8 (min p.nport 255) ++ BitVec.ofNat 16 p.mmax

/-- `RegRead` (R63): the word built from the current state as the register's rule says. -/
def regRead (s : State) : Reg → Word
  | .status => statusWord s
  | .errlog => errlogWord s
  | .cfgFs => s.cfgFs
  | .cfgOrder => s.cfgOrder
  | .cfgBw b => s.cfgBw.get b
  | .cfgGmin => s.cfgGmin
  | .cfgGmax => s.cfgGmax
  | .cfgAlpha => s.cfgAlpha
  | .cfgDecay => s.cfgDecay
  | .band b => bandWord (s.band.get b)
  | .bankFs => s.bankFs
  | .bankM => s.bankM.zeroExtend 32
  | .bankN => s.bankN
  | .bankBw b => s.bankBw.get b
  | .lastLen => s.lastLen.zeroExtend 32
  | .params0 => params0Word s.params
  | .params1 => params1Word s.params

/-- The legal values of a register (R122); a read-only register has none. -/
def legalValue (s : State) (v : Word) : Reg → Bool
  | .cfgFs => decide (41 ≤ v.toNat)
  | .cfgOrder => decide (1 ≤ v.toNat ∧ v.toNat ≤ s.params.mmax)
  | .cfgBw _ => true
  | .cfgGmin => decide (v.toNat < 2 ^ 16 ∧ boundCode v ≤ boundCode s.cfgGmax)
  | .cfgGmax => decide (v.toNat < 2 ^ 16 ∧ boundCode s.cfgGmin ≤ boundCode v)
  | .cfgAlpha => decide (v.toNat ≤ 0x10000)
  | .cfgDecay => decide (v.toNat ≤ 0x10000)
  | .status => false
  | .errlog => false
  | .band _ => false
  | .bankFs => false
  | .bankM => false
  | .bankN => false
  | .bankBw _ => false
  | .lastLen => false
  | .params0 => false
  | .params1 => false

/-- `RegWrite` (R64): replaces the whole register; a read-only register never gets here and keeps its value. -/
def regWrite (v : Word) (s : State) : Reg → State
  | .cfgFs => { s with cfgFs := v }
  | .cfgOrder => { s with cfgOrder := v }
  | .cfgBw b => { s with cfgBw := s.cfgBw.set b v }
  | .cfgGmin => { s with cfgGmin := v }
  | .cfgGmax => { s with cfgGmax := v }
  | .cfgAlpha => { s with cfgAlpha := v }
  | .cfgDecay => { s with cfgDecay := v }
  | .status => s
  | .errlog => s
  | .band _ => s
  | .bankFs => s
  | .bankM => s
  | .bankN => s
  | .bankBw _ => s
  | .lastLen => s
  | .params0 => s
  | .params1 => s

/-! ### Formulas shared by the filter design and the analyzer -/

/-- The Hamming window of length `len` at `j` (R133). -/
def hamming (A : Arith) (len j : Nat) : Val :=
  if len = 1 then Val.one
  else A.sub (.rat (mkRat 54 100)) (A.mul (.rat (mkRat 46 100)) (A.cos (mkRat j (len - 1))))

/-- `DFT_n(v)[k]` of a real sequence, as real and imaginary part: `exp(-2πi·t·k/n)` is the cosine and the sine of
`-t·k/n` turns (R18). -/
def dftBin (A : Arith) (n : Nat) (v : List Val) (k : Nat) : Val × Val :=
  (sumVal A (v.mapIdx fun t x => A.mul x (A.cos (mkRat (-(t * k : Nat)) n))),
   sumVal A (v.mapIdx fun t x => A.mul x (A.sin (mkRat (-(t * k : Nat)) n))))

/-! ### Ports -/

/-- What stands at the head of a port's word stream (R78, R102). -/
inductive Arrival where
  /-- No complete packet. -/
  | waiting
  /-- A complete command packet, and the words after it. -/
  | command (i : Instr) (rest : List Word)
  /-- A header that is an illegal command, and the words after it (R98, R106). -/
  | illegal (op : BitVec 8) (rest : List Word)
  deriving DecidableEq, Repr

/-- Cut the head of a word stream (R93, R102): a packet is taken only when all of its words have arrived (R78), and
an illegal header is a packet of one word (R106). -/
def arrivalOf (p : Params) (ws : List Word) : Arrival :=
  match decode p ws with
  | .ok (i, rest) => .command i rest
  | .error .noWord => .waiting
  | .error .incomplete => .waiting
  | .error _ => .illegal (opField (ws.headD 0)) ws.tail

/-- The word stream of port `q`. -/
def rxOf (s : State) (q : Nat) : List Word := ((s.ports[q]?).map Port.rx).getD []

/-- What stands at the head of port `q`. -/
def arrivalAt (s : State) (q : Nat) : Arrival := arrivalOf s.params (rxOf s q)

/-- The ports that hold a complete pending packet, in ascending order. -/
def readyPorts (s : State) : List Nat :=
  (List.range s.ports.length).filter fun q => decide (arrivalAt s q ≠ .waiting)

/-- The port served next (R77): any of those that are ready, the choice being given in `grants`, or free. -/
def nextPort (s : State) : Option Nat :=
  match readyPorts s with
  | [] => none
  | [q] => some q
  | q :: q' :: qs =>
    let ready := q :: q' :: qs
    let choice :=
      match s.grants with
      | c :: _ => c
      | [] => Config.arbiter s.taken
    ready[choice % ready.length]?

/-- Take a packet from port `q`, leaving `rest` in its buffer; its response goes to the same port (R75, R90). -/
def takeFrom (q : Nat) (rest : List Word) (s : State) : State :=
  { s with
    ports := s.ports.modify q fun p => { p with rx := rest }
    active := q
    grants := s.grants.tail
    taken := s.taken + 1 }

/-- An illegal command (R98): one word consumed, no state changed but `ERRLOG[6]`, the opcode echoed (R95). -/
def illegalHeader (op : BitVec 8) (s : State) : Result := raise op .illegalCommand 0 s

/-- The host sends words on port `q` (R74, R75): they join those that have arrived. -/
def deliver (q : Nat) (ws : List Word) (s : State) : State :=
  { s with ports := s.ports.modify q fun p => { p with rx := p.rx ++ ws } }

/-- The host takes the response words of port `q` (R74). -/
def collect (q : Nat) (s : State) : List Word × State :=
  (((s.ports[q]?).map Port.tx).getD [], { s with ports := s.ports.modify q fun p => { p with tx := [] } })

/-- The ports when the packet `ws` is all that port 0 has received (the port is made if there is none). -/
def portsWithPacket (ws : List Word) : List Port → List Port
  | [] => [⟨ws, []⟩]
  | p :: ps => { p with rx := ws } :: ps

/-- `s` with a packet as the next thing to be executed: port 0 holds exactly its words, the arbiter is told to serve
the first port that is ready, and `rst` is not asserted. -/
def placePacket (ws : List Word) (s : State) : State :=
  { s with ports := portsWithPacket ws s.ports, grants := 0 :: s.grants, rst := false }

end Sys2Proof.Machine
end

