-- ==== Sys2Proof/Machine/Analyzer.lean ====
section
/-! DEFINITION. Spectrum analyzer: `ANLZ`, `ANLZL`, `GETFRAME` (spec file 43). -/

namespace Sys2Proof.Machine

/-- `sig[t]`: the mean of the channels (R192). -/
def downmix (A : Arith) (nch n : Nat) (u : List (List Val)) : List Val :=
  (List.range n).map fun t =>
    if nch = 1 then sampleAt u 0 t
    else A.div (sumVal A ((List.range nch).map fun c => sampleAt u c t)) (.rat nch)

/-- `v[t] = sig[t]·w_n[t]` (R193). -/
def windowed (A : Arith) (n : Nat) (sig : List Val) : List Val :=
  (List.range n).map fun t => A.mul (sig.getD t Val.zero) (hamming A n t)

/-- `mag[k]`: the modulus of bin `k` of the transform of length `n` (R194). -/
def magnitudeAt (A : Arith) (n : Nat) (v : List Val) (k : Nat) : Val :=
  let z := dftBin A n v k
  A.abs z.1 z.2

/-- `f_k = k·fs/n` in Hz (R194). -/
def binFrequency (fs n k : Nat) : Rat := mkRat (k * fs : Nat) n

/-- `edge_i = 20·(nyq/20)^(i/NA)` (R195). -/
def bandEdge (A : Arith) (na fs i : Nat) : Val :=
  A.mul (.rat lowestEdge) (A.pow (mkRat fs (2 * lowestEdge)) i na)

/-- `edge_i <= f` (R196). -/
def edgeBelow (A : Arith) (na fs i : Nat) (f : Rat) : Bool := decide (compareRat (bandEdge A na fs i) f ≠ .gt)

/-- Bin `k` falls in the analyzer band `i`: half-open, the last band closed above by `edge_NA = nyq` (R195, R196). -/
def binInBand (A : Arith) (na fs n i k : Nat) : Bool :=
  let f := binFrequency fs n k
  edgeBelow A na fs i f &&
    (if i + 1 = na then decide (f ≤ mkRat fs 2) else !edgeBelow A na fs (i + 1) f)

/-- `B_i` (R196). -/
def binsOf (A : Arith) (na fs n i : Nat) : List Nat := (List.range (n / 2 + 1)).filter (binInBand A na fs n i)

/-- `raw[i]`: the mean of the magnitudes of the band, 0 where it has no bin (R197). -/
def rawLevel (A : Arith) (na fs n : Nat) (v : List Val) (i : Nat) : Val :=
  let bins := binsOf A na fs n i
  if bins.length = 0 then Val.zero
  else A.div (sumVal A (bins.map (magnitudeAt A n v))) (.rat bins.length)

/-- `norm[i]`: divided by the frame maximum where that is positive, else 0 (R198). -/
def normalise (A : Arith) (raw : List Val) : List Val :=
  let m := maxVal A raw
  if compareRat m 0 = .gt then raw.map fun r => A.div r m else raw.map fun _ => Val.zero

/-- The normalised levels of a chunk `u` of `n` frames (R192 to R198). -/
def chunkNorm (A : Arith) (p : Params) (fs n : Nat) (u : List (List Val)) : List Val :=
  let v := windowed A n (downmix A p.nch n u)
  normalise A ((List.range p.na).map (rawLevel A p.na fs n v))

/-- `LEVEL'[i] = alpha·norm[i] + (1 - alpha)·LEVEL[i]` (R199). -/
def smoothLevel (A : Arith) (alpha norm level : Val) : Val :=
  A.add (A.mul alpha norm) (A.mul (A.sub Val.one alpha) level)

/-- `PEAK'[i] = max(PEAK[i]·decay, LEVEL'[i])` (R200). -/
def decayPeak (A : Arith) (decay peak level' : Val) : Val := A.max (A.mul peak decay) level'

/-- `LEVEL'` (R199). -/
def nextLevel (A : Arith) (norm : List Val) (s : State) : List Val :=
  (List.range s.params.na).map fun i =>
    smoothLevel A (fraction s.cfgAlpha) (norm.getD i Val.zero) (s.level.getD i Val.zero)

/-- `PEAK'` (R200). -/
def nextPeak (A : Arith) (level' : List Val) (s : State) : List Val :=
  (List.range s.params.na).map fun i =>
    decayPeak A (fraction s.cfgDecay) (s.peak.getD i Val.zero) (level'.getD i Val.zero)

/-- A spectrum frame as words: the levels, then the peaks (R73). -/
def frameWords (A : Arith) (level peak : List Val) : List Word := level.map A.enc ++ peak.map A.enc

/-- The steps of `ANLZ` and `ANLZL` on a chunk of `n` frames, commit and response (R192 to R201). -/
def analyseChunk (A : Arith) (n : Nat) (u : List (List Val)) (s : State) : Result :=
  let level' := nextLevel A (chunkNorm A s.params s.cfgFs.toNat n u) s
  let peak' := nextPeak A level' s
  respond 0x07 0 (BitVec.ofNat 16 s.params.na) (frameWords A level' peak') { s with level := level', peak := peak' }

/-- `ANLZ` over an arithmetic: the payload check (R71, R102 step 3), then the empty chunk (R191). -/
def anlzWith (A : Arith) (n : BitVec 16) (payload : List Word) (s : State) : Result :=
  if payloadNonFinite payload then raise 0x07 .illegalCommand 0 s
  else if n = 0 then raise 0x07 .emptyChunk 0 s
  else analyseChunk A n.toNat (channelsOf s.params.nch n.toNat payload) s

/-- `ANLZ n : payload` (R191). -/
def execAnlz (n : BitVec 16) (payload : List Word) (s : State) : Result := anlzWith exactArith n payload s

/-- `ANLZL` over an arithmetic: the chunk is the last processed one (R191). -/
def anlzlWith (A : Arith) (s : State) : Result :=
  if s.lastValid then
    match s.last with
    | none => .fault .unwrittenLast
    | some chunk => analyseChunk A s.lastLen.toNat chunk s
  else raise 0x07 .emptyChunk 0 s

/-- `ANLZL` (R191). -/
def execAnlzl (s : State) : Result := anlzlWith exactArith s

/-- `GETFRAME` over an arithmetic (R204). -/
def getframeWith (A : Arith) (s : State) : Result :=
  respond 0x09 0 (BitVec.ofNat 16 s.params.na) (frameWords A s.level s.peak) s

/-- `GETFRAME` (R204). -/
def execGetframe (s : State) : Result := getframeWith exactArith s

end Sys2Proof.Machine
end

