-- ==== Sys2Proof/Machine/Build.lean ====
section
/-! DEFINITION. Configuration and bank construction: `WRCFG`, `RDREG`, `BUILD` (spec file 40). -/

namespace Sys2Proof.Machine

/-! ### `WRCFG` and `RDREG` -/

/-- The register an address names when it is read-write (R121, first check). -/
def writableAt (a : BitVec 8) : Option Reg := (regAt a).filter Reg.writable

/-- `WRCFG a, v` (R121). -/
def execWrcfg (a : BitVec 8) (v : Word) (s : State) : Result :=
  match writableAt a with
  | none => raise 0x0A .illegalCommand 0 s
  | some r =>
    if legalValue s v r then respond 0x0A 0 0 [] (regWrite v s r)
    else raise 0x0A .illegalCommand 0 s

/-- `RDREG a` (R123). -/
def execRdreg (a : BitVec 8) (s : State) : Result :=
  match regAt a with
  | none => raise 0x0B .illegalCommand 0 s
  | some r => respond 0x0B 0 1 [regRead s r] s

/-! ### The filter design -/

/-- The filter length: the order forced odd, upwards (R131, D9). -/
def oddLength (ord : Nat) : Nat := if ord % 2 = 1 then ord else ord + 1

/-- The least power of two not below `m` (R12). -/
def leastPowerOfTwo (m : Nat) : Nat := if m ≤ 1 then 1 else 2 ^ ((m - 1).log2 + 1)

/-- The ideal band-pass response at the centred index `n` (R132), with the closed form at 0 (R134). The angle
`ω·n` is `f·n/sampleRate` turns. -/
def idealTap (A : Arith) (lo hi : Rat) (fs : Nat) (n : Int) : Val :=
  if n = 0 then .rat (2 * (hi - lo) / (fs : Rat))
  else A.div (A.sub (A.sin (hi * n / (fs : Rat))) (A.sin (lo * n / (fs : Rat)))) (A.mul (.rat n) A.pi)

/-- Tap `j` of `designBandpass`: the ideal response at `j - (M-1)/2`, windowed (R132). -/
def bandpassTap (A : Arith) (lo hi : Rat) (fs M j : Nat) : Val :=
  A.mul (idealTap A lo hi fs ((j : Int) - ((M - 1) / 2 : Nat))) (hamming A M j)

/-- `designBandpass` (R132): `M` taps. -/
def designBandpass (A : Arith) (lo hi : Rat) (fs M : Nat) : List Val :=
  (List.range M).map (bandpassTap A lo hi fs M)

/-! ### `BUILD` -/

/-- The lower edge of band `b`, `FC[b] - bw/2`, exact (R131). -/
def lowerEdge (b : BandIx) (bw : Word) : Rat := (bandCentres.get b : Rat) - mkRat bw.toNat 2

/-- The upper edge of band `b`, `FC[b] + bw/2`, exact (R131). -/
def upperEdge (b : BandIx) (bw : Word) : Rat := (bandCentres.get b : Rat) + mkRat bw.toNat 2

/-- What is wrong with band `b` (R131, R230): zero width, then the upper edge at or above half the sample rate, then
the lower edge not positive. Both sides of the two comparisons of edges are doubled, so that they are integers. -/
def bandFault (s : State) (b : BandIx) : Option Err :=
  let bw := (s.cfgBw.get b).toNat
  let twiceCentre := 2 * bandCentres.get b
  if bw = 0 ∨ s.cfgFs.toNat ≤ twiceCentre + bw then some .filterBankConfig
  else if twiceCentre ≤ bw then some .invalidBand
  else none

/-- The first failing band, in ascending order (R131, R230). -/
def firstBandFault (s : State) : Option (BandIx × Err) :=
  ([0, 1, 2, 3, 4] : List BandIx).findSome? fun b => (bandFault s b).map fun e => (b, e)

/-- The filter length of the bank `BUILD` makes (R131). -/
def buildLength (s : State) : Nat := oddLength (s.cfgOrder.extractLsb' 0 16).toNat

/-- The transform length of the bank `BUILD` makes (R131). -/
def buildTransform (s : State) : Nat := leastPowerOfTwo (s.params.cap + buildLength s - 1)

/-- The impulse responses `BUILD` makes (R131, R132). -/
def buildTaps (A : Arith) (s : State) : PerBand (List Val) :=
  PerBand.build fun b =>
    designBandpass A (lowerEdge b (s.cfgBw.get b)) (upperEdge b (s.cfgBw.get b)) s.cfgFs.toNat (buildLength s)

/-- The effects of a successful `BUILD`, all together (R136). -/
def commitBank (A : Arith) (s : State) : State :=
  { s with
    bank := some (buildTaps A s)
    bankFs := s.cfgFs
    bankM := BitVec.ofNat 16 (buildLength s)
    bankN := BitVec.ofNat 32 (buildTransform s)
    bankBw := s.cfgBw
    tail := zeroTail s.params
    built := true }

/-- The state of a failed `BUILD` before its error is entered: `BUILT <- 0`, `RUN <- 0` (R137, R228). -/
def dropBank (s : State) : State := { s with built := false, run := false }

/-- `BUILD` over an arithmetic (R131, R136, R137). -/
def buildWith (A : Arith) (s : State) : Result :=
  match firstBandFault s with
  | some (b, e) => raise 0x01 e (BitVec.ofNat 4 b.val) (dropBank s)
  | none => respond 0x01 0 0 [] (commitBank A s)

/-- `BUILD` (R131). -/
def execBuild (s : State) : Result := buildWith exactArith s

end Sys2Proof.Machine
end

