-- ==== Sys2Proof/Machine/Control.lean ====
section
/-! DEFINITION. Equalizer control: `START`, `STOP`, `SETGAIN`, `SETMUTE` (spec file 41). -/

namespace Sys2Proof.Machine

/-- `START` (R151). -/
def execStart (s : State) : Result :=
  if s.built then respond 0x02 0 0 [] { s with run := true } else raise 0x02 .filterBankConfig 0 s

/-- `STOP` (R152). -/
def execStop (s : State) : Result := respond 0x03 0 0 [] { s with run := false }

/-- `clamp(req)` between the bounds as they stand now (R154). -/
def clampGain (s : State) (req : Int) : Int :=
  let lo := boundCode s.cfgGmin
  let hi := boundCode s.cfgGmax
  if req < lo then lo else if hi < req then hi else req

/-- Write the gain `g` of a band: `GDB` and `LIN` together, `MUTE` unchanged (R153, R156). -/
def writeGain (A : Arith) (b : BandIx) (g : Int) (s : State) : State :=
  { s with band := s.band.set b { s.band.get b with gdb := BitVec.ofInt 16 g, lin := A.db2lin g } }

/-- `SETGAIN` over an arithmetic (R153): a clamped request is no failure; it is logged and reported in `aux[3]`
(R224, R229). -/
def setgainWith (A : Arith) (b : BandIx) (v : BitVec 16) (s : State) : Result :=
  let req := gainCode v
  let g := clampGain s req
  let s' := writeGain A b g s
  if g = req then respond 0x04 0 0 [] s' else respond 0x04 8 0 [] (logError .invalidGain s')

/-- `SETGAIN b, v` (R153). -/
def execSetgain (b : BandIx) (v : BitVec 16) (s : State) : Result := setgainWith exactArith b v s

/-- `SETMUTE b, m` (R155): `GDB` and `LIN` unchanged. -/
def execSetmute (b : BandIx) (m : Bool) (s : State) : Result :=
  respond 0x05 0 0 [] { s with band := s.band.set b { s.band.get b with mute := m } }

end Sys2Proof.Machine
end

