-- ==== Sys2Proof/Machine/Process.lean ====
section
/-! DEFINITION. Chunk processing: `PROC`, `GETLAST` (spec file 42). The band signals are computed in the time-domain
form, which R179 allows the reference instance; `bandSignalFrequency` is R173 and R174 themselves. -/

namespace Sys2Proof.Machine

/-! ### The band signals -/

/-- `Y[t] = Σ_j h[j]·x[t-j]`, over the `j` in `0..M-1` with `t - j` in `0..n-1`, ascending (R179). -/
def bandSignal (A : Arith) (h x : List Val) (t : Nat) : Val :=
  let first := t + 1 - x.length
  let last := min (t + 1) h.length
  sumVal A ((List.range' first (last - first)).map fun j =>
    A.mul (h.getD j Val.zero) (x.getD (t - j) Val.zero))

/-- A list with zeros behind it, up to the length `N` (R135, R173). -/
def zeroPadded (N : Nat) (v : List Val) : List Val := v ++ List.replicate (N - v.length) Val.zero

/-- `BANK.H[b][k]`, the transform of an impulse response (R39, R135), as real and imaginary part. -/
def filterTransform (A : Arith) (N : Nat) (h : List Val) (k : Nat) : Val × Val := dftBin A N (zeroPadded N h) k

/-- The product of two complex numbers. -/
def mulComplex (A : Arith) (a b : Val × Val) : Val × Val :=
  (A.sub (A.mul a.1 b.1) (A.mul a.2 b.2), A.add (A.mul a.1 b.2) (A.mul a.2 b.1))

/-- `Re(IDFT_N(P)[t])` (R18, R174). -/
def inverseReal (A : Arith) (N : Nat) (P : Nat → Val × Val) (t : Nat) : Val :=
  A.div
    (sumVal A ((List.range N).map fun k =>
      A.sub (A.mul (P k).1 (A.cos (mkRat (t * k : Nat) N))) (A.mul (P k).2 (A.sin (mkRat (t * k : Nat) N)))))
    (.rat N)

/-- `Y[t]` by the frequency domain: the transform of the padded chunk, the product with `H`, the real part of the
inverse transform (R173, R174). -/
def bandSignalFrequency (A : Arith) (N : Nat) (h x : List Val) (t : Nat) : Val :=
  inverseReal A N (fun k => mulComplex A (dftBin A N (zeroPadded N x) k) (filterTransform A N h k)) t

/-! ### Overlap-add, gain and sum -/

/-- `out[t]`: the band signal and what earlier chunks carried to this sample (R175). -/
def overlapOut (A : Arith) (h x row : List Val) (t : Nat) : Val :=
  A.add (bandSignal A h x t) (if t < h.length - 1 then row.getD t Val.zero else Val.zero)

/-- `TAIL'[k]`, `k = 0..MMAX-2`: the old tail `n` positions on and this chunk's own overhang (R176). -/
def overlapTail (A : Arith) (mmax : Nat) (h x row : List Val) : List Val :=
  (List.range (mmax - 1)).map fun k =>
    if k < h.length - 1 then
      A.add (if k + x.length < h.length - 1 then row.getD (k + x.length) Val.zero else Val.zero)
        (bandSignal A h x (x.length + k))
    else Val.zero

/-- The effective gain of a band: 0 when muted, else `LIN` (R172). -/
def effectiveGain (b : Band) : Val := if b.mute then Val.zero else b.lin

/-- The gain snapshot (R172). -/
def gainSnapshot (s : State) : PerBand Val := PerBand.build fun b => effectiveGain (s.band.get b)

/-- `o = ((((g0·out0 + g1·out1) + g2·out2) + g3·out3) + g4·out4)` (R177). -/
def mixBands (A : Arith) (g out : PerBand Val) : Val :=
  A.add (A.add (A.add (A.add (A.mul g.b0 out.b0) (A.mul g.b1 out.b1)) (A.mul g.b2 out.b2)) (A.mul g.b3 out.b3))
    (A.mul g.b4 out.b4)

/-- The tail rows of channel `c`. -/
def tailOf (s : State) (c : Nat) : PerBand (List Val) := s.tail.getD c ⟨[], [], [], [], []⟩

/-- `o[c][t]` (R175, R177). -/
def compositeAt (A : Arith) (bank : PerBand (List Val)) (x : List (List Val)) (s : State) (c t : Nat) : Val :=
  mixBands A (gainSnapshot s)
    (PerBand.build fun b => overlapOut A (bank.get b) (x.getD c []) ((tailOf s c).get b) t)

/-- `TAIL'` of every channel and band (R176). -/
def nextTail (A : Arith) (bank : PerBand (List Val)) (x : List (List Val)) (s : State) : List (PerBand (List Val)) :=
  (List.range s.params.nch).map fun c =>
    PerBand.build fun b => overlapTail A s.params.mmax (bank.get b) (x.getD c []) ((tailOf s c).get b)

/-- The words of the output chunk, by channel and time: `enc32(o[c][t])` (R178). -/
def outputWords (A : Arith) (bank : PerBand (List Val)) (x : List (List Val)) (n : Nat) (s : State) : List (List Word) :=
  (List.range s.params.nch).map fun c => (List.range n).map fun t => A.enc (compositeAt A bank x s c t)

/-- Commit and response of `PROC`, all together (R178): `LAST` holds the values as delivered. -/
def commitChunk (A : Arith) (bank : PerBand (List Val)) (n : BitVec 16) (payload : List Word) (s : State) : Result :=
  let x := channelsOf s.params.nch n.toNat payload
  let out := outputWords A bank x n.toNat s
  respond 0x06 0 n (payloadOf s.params.nch n.toNat fun c t => (out.getD c []).getD t 0)
    { s with
      tail := nextTail A bank x s
      last := some (out.map fun ws => ws.map decVal)
      lastLen := n
      lastValid := true }

/-- `PROC` over an arithmetic: the payload check (R71, R102 step 3), then the command's own checks in order (R171,
R230), then the steps of R172 to R178. -/
def procWith (A : Arith) (n : BitVec 16) (payload : List Word) (s : State) : Result :=
  if payloadNonFinite payload then raise 0x06 .illegalCommand 0 s
  else if !s.run then raise 0x06 .notProcessing 0 s
  else if n = 0 then raise 0x06 .emptyChunk 0 s
  else
    match s.bank with
    | none => .fault .unwrittenBank
    | some bank => commitChunk A bank n payload s

/-- `PROC n : payload` (R171). -/
def execProc (n : BitVec 16) (payload : List Word) (s : State) : Result := procWith exactArith n payload s

/-! ### `GETLAST` -/

/-- `GETLAST` over an arithmetic (R183): no error in the empty case, which `aux[2]` reports. -/
def getlastWith (A : Arith) (s : State) : Result :=
  if s.lastValid then
    match s.last with
    | none => .fault .unwrittenLast
    | some chunk =>
      respond 0x08 0 s.lastLen (payloadOf s.params.nch s.lastLen.toNat fun c t => A.enc (sampleAt chunk c t)) s
  else respond 0x08 4 0 [] s

/-- `GETLAST` (R183). -/
def execGetlast (s : State) : Result := getlastWith exactArith s

end Sys2Proof.Machine
end

