-- ==== Sys2Proof/Machine/Dispatch.lean ====
section
/-! DEFINITION. One arm per command: its meaning. -/

namespace Sys2Proof.Machine

def exec (i : Instr) (s : State) : Host.Outcome State Fault Refusal :=
  match i with
  | .build => Sys2Proof.Machine.execBuild s
  | .start => Sys2Proof.Machine.execStart s
  | .stop => Sys2Proof.Machine.execStop s
  | .setgain b v => Sys2Proof.Machine.execSetgain b v s
  | .setmute b m => Sys2Proof.Machine.execSetmute b m s
  | .proc n payload => Sys2Proof.Machine.execProc n payload s
  | .anlz n payload => Sys2Proof.Machine.execAnlz n payload s
  | .anlzl => Sys2Proof.Machine.execAnlzl s
  | .getlast => Sys2Proof.Machine.execGetlast s
  | .getframe => Sys2Proof.Machine.execGetframe s
  | .wrcfg a v => Sys2Proof.Machine.execWrcfg a v s
  | .rdreg a => Sys2Proof.Machine.execRdreg a s

end Sys2Proof.Machine
end

