-- ==== Sys2Proof/Machine/Step.lean ====
section
/-! DEFINITION. One step of the block: it takes one complete command packet from some port, executes it, and puts the
response on that port (R75, R76). -/

namespace Sys2Proof.Machine

/-- One step. With `rst` asserted it is the reset (R250). With no complete packet on any port the block waits (R78,
R251). Otherwise one packet is taken and executed as one atomic step (R9, R76). -/
def step (s : State) : Host.Outcome State Fault Refusal :=
  if s.rst then .next (applyReset s)
  else
    match nextPort s with
    | none => .next s
    | some q =>
      match arrivalAt s q with
      | .waiting => .next s
      | .command i rest => exec i (takeFrom q rest s)
      | .illegal op rest => illegalHeader op (takeFrom q rest s)

/-- `s` with the packet of an opcode-table row as the very next thing it executes. -/
def State.withFetchWord (s : State) (nbits w : Nat) : State := placePacket (tablePacket s.params nbits w) s

end Sys2Proof.Machine
end

