-- ==== Sys2Proof/Machine/Denote.lean ====
section
/-! DEFINITION. What an exact value stands for: the real number of R15. No step computes it; claims are stated in it. -/

namespace Sys2Proof

/-- The real number a value stands for (R15). A quotient by zero is zero. -/
noncomputable def Val.toReal : Val → ℝ
  | .rat q => q
  | .pi => Real.pi
  | .cos q => Real.cos (2 * Real.pi * q)
  | .db g => (10 : ℝ) ^ ((g : ℝ) / 5120)
  | .pow b i n => (b : ℝ) ^ ((i : ℝ) / n)
  | .add a b => a.toReal + b.toReal
  | .sub a b => a.toReal - b.toReal
  | .mul a b => a.toReal * b.toReal
  | .div a b => a.toReal / b.toReal
  | .max a b => Max.max a.toReal b.toReal
  | .abs re im => Real.sqrt (re.toReal ^ 2 + im.toReal ^ 2)

/-- The value divides by nothing that is zero, and its powers have a positive base and a positive root. Such a value
stands for a real by the operations of R15 alone; every value a run makes is one (`State.Inv`). -/
def Val.Defined : Val → Prop
  | .rat _ => True
  | .pi => True
  | .cos _ => True
  | .db _ => True
  | .pow b _ n => 0 < b ∧ 0 < n
  | .add a b => a.Defined ∧ b.Defined
  | .sub a b => a.Defined ∧ b.Defined
  | .mul a b => a.Defined ∧ b.Defined
  | .div a b => a.Defined ∧ b.Defined ∧ b.toReal ≠ 0
  | .max a b => a.Defined ∧ b.Defined
  | .abs re im => re.Defined ∧ im.Defined

end Sys2Proof
end

