-- ==== Sys2Proof/Machine/Runs.lean ====
section
/-! DEFINITION. Runs of the block with the world outside it, and the fairness of its arbiter (R77, R84): every order of
the ports' commands is some run, and the runs of the block are the weakly fair ones. -/

namespace Sys2Proof.Machine

/-- What the world outside does between two steps (R74, R75), and what the arbiter is to choose (R77). -/
inductive Act where
  /-- Words arrive on a port. -/
  | deliver (q : Nat) (ws : List Word)
  /-- The requester takes the response words of a port. -/
  | collect (q : Nat)
  /-- `rst` is asserted. -/
  | reset
  /-- The arbiter's choice for the next command. -/
  | choose (c : Nat)
  deriving DecidableEq, Repr

/-- The state after an act. -/
def Act.apply (s : State) : Act → State
  | .deliver q ws => Machine.deliver q ws s
  | .collect q => (Machine.collect q s).2
  | .reset => { s with rst := true }
  | .choose c => { s with grants := c :: s.grants }

/-- A run: before each step the world outside acts, and each step answers a next state. -/
structure Run where
  state : Nat → State
  acts : Nat → List Act
  steps : ∀ t, step ((acts t).foldl Act.apply (state t)) = .next (state (t + 1))

/-- The state the step `t` of a run starts from. -/
def Run.at (r : Run) (t : Nat) : State := (r.acts t).foldl Act.apply (r.state t)

/-- At step `t` port `q` holds a complete pending packet. -/
def Run.Pending (r : Run) (q t : Nat) : Prop :=
  (r.at t).rst = false ∧ q < (r.at t).ports.length ∧ arrivalAt (r.at t) q ≠ .waiting

/-- Step `t` takes the packet at the head of port `q`. -/
def Run.Takes (r : Run) (q t : Nat) : Prop := (r.at t).rst = false ∧ nextPort (r.at t) = some q

/-- Weak fairness (R84): no port holds a complete pending packet from some step on without ever being served. -/
def Run.Fair (r : Run) : Prop := ∀ q t, (∀ u, t ≤ u → r.Pending q u) → ∃ u, t ≤ u ∧ r.Takes q u

end Sys2Proof.Machine
end

