-- ==== Sys2Proof/Safety.lean ====
section
/-! DEFINITION. The terms claims are stated in: the invariant of the block, the named properties of NUM (R16), the
rounding of a real to a port word (R72), and the whole-stream form of the filters (R180). -/

namespace Sys2Proof

namespace Machine

/-! ### The invariant -/

/-- The configuration registers hold legal values (R28 to R33, R122). -/
structure State.ConfigOk (s : State) : Prop where
  fs : 41 ≤ s.cfgFs.toNat
  order : 1 ≤ s.cfgOrder.toNat ∧ s.cfgOrder.toNat ≤ s.params.mmax
  gmin : s.cfgGmin.toNat < 2 ^ 16
  gmax : s.cfgGmax.toNat < 2 ^ 16
  bounds : boundCode s.cfgGmin ≤ boundCode s.cfgGmax
  alpha : s.cfgAlpha.toNat ≤ 65536
  decay : s.cfgDecay.toNat ≤ 65536

/-- A built bank has five responses of the odd length `BANK_M`, of reals, and `BANK_N` is its transform length (R12, R35,
R38). -/
structure State.BankOk (s : State) (h : PerBand (List Val)) : Prop where
  length : ∀ b, (h.get b).length = s.bankM.toNat
  odd : s.bankM.toNat % 2 = 1
  le : s.bankM.toNat ≤ s.params.mmax
  defined : ∀ b, ∀ v ∈ h.get b, v.Defined
  transform : s.bankN.toNat = leastPowerOfTwo (s.params.cap + s.bankM.toNat - 1)

/-- A last chunk has `NCH` channels of `LAST_LEN` reals (R36, R41). -/
structure State.LastOk (s : State) (x : List (List Val)) : Prop where
  channels : x.length = s.params.nch
  length : ∀ row ∈ x, row.length = s.lastLen.toNat
  defined : ∀ row ∈ x, ∀ v ∈ row, v.Defined
  range : 1 ≤ s.lastLen.toNat ∧ s.lastLen.toNat ≤ s.params.cap

/-- The tail memory has its shape, holds reals, and holds nothing beyond `BANK_M - 1` positions while `BUILT = 1` (R40, R48). -/
structure State.TailOk (s : State) : Prop where
  channels : s.tail.length = s.params.nch
  length : ∀ rows ∈ s.tail, ∀ b, (rows.get b).length = s.params.mmax - 1
  defined : ∀ rows ∈ s.tail, ∀ b, ∀ v ∈ rows.get b, v.Defined
  zero : s.built = true → ∀ rows ∈ s.tail, ∀ b k, s.bankM.toNat - 1 ≤ k → (rows.get b).getD k Val.zero = Val.zero

/-- The frame has its shape, holds reals (R42, R43), and `0 <= LEVEL[i] <= PEAK[i] <= 1` (R47). -/
structure State.FrameOk (s : State) : Prop where
  levels : s.level.length = s.params.na
  peaks : s.peak.length = s.params.na
  defined : (∀ v ∈ s.level, v.Defined) ∧ ∀ v ∈ s.peak, v.Defined
  range : ∀ i, i < s.params.na → 0 ≤ (s.level.getD i Val.zero).toReal ∧
    (s.level.getD i Val.zero).toReal ≤ (s.peak.getD i Val.zero).toReal ∧ (s.peak.getD i Val.zero).toReal ≤ 1

/-- What holds of the block after every command (R45 to R48, R26, R55, R122). -/
structure State.Inv (s : State) : Prop where
  params : s.params.Ok
  config : s.ConfigOk
  runBuilt : s.run = true → s.built = true
  bank : s.built = true → ∃ h, s.bank = some h ∧ s.BankOk h
  last : s.lastValid = true → ∃ x, s.last = some x ∧ s.LastOk x
  errlog : s.errlog.getLsbD 0 = false
  lin : ∀ b, (s.band.get b).lin = exactArith.db2lin (gainCode (s.band.get b).gdb)
  tail : s.TailOk
  frame : s.FrameOk
  ports : s.ports.length = s.params.nport
  active : s.active < s.params.nport

/-! ### Rounding to the port format -/

/-- The real number a finite port word denotes (R70). -/
noncomputable def portReal (w : Word) : ℝ := (((dec32 w).getD 0 : Rat) : ℝ)

/-- `w` is the word of `r` rounded to nearest, ties to even, onto the finite binary32 values (R72): it is finite, is not
the second word of zero, no finite value is nearer, and where another is as near its last bit is 0. -/
structure RoundsTo (r : ℝ) (w : Word) : Prop where
  finite : nonFinite w = false
  oneZero : w ≠ 0x80000000
  nearest : ∀ w', nonFinite w' = false → |r - portReal w| ≤ |r - portReal w'|
  even : ∀ w', nonFinite w' = false → portReal w' ≠ portReal w → |r - portReal w'| = |r - portReal w| →
    w.getLsbD 0 = false

end Machine

/-! ### The named properties of NUM (R16) -/

namespace Arith

open Machine

/-- N1. -/
structure N1 (A : Arith) : Prop where
  zeroMul : ∀ a, A.mul Val.zero a = Val.zero
  mulZero : ∀ a, A.mul a Val.zero = Val.zero
  addZero : ∀ a, A.add a Val.zero = a
  zeroAdd : ∀ a, A.add Val.zero a = a

/-- N2, of the values' reals. -/
structure N2 (A : Arith) : Prop where
  oneOfThem : ∀ a b, (A.max a b).toReal = a.toReal ∨ (A.max a b).toReal = b.toReal
  notLess : ∀ a b, a.toReal ≤ (A.max a b).toReal ∧ b.toReal ≤ (A.max a b).toReal

/-- N3, of the values that are defined. -/
structure N3 (A : Arith) : Prop where
  monotone : ∀ a b, a.Defined → b.Defined → a.toReal ≤ b.toReal → portReal (A.enc a) ≤ portReal (A.enc b)
  zero : A.enc Val.zero = 0x00000000
  one : A.enc Val.one = 0x3F800000
  exact : ∀ a w, a.Defined → nonFinite w = false → a.toReal = portReal w → portReal (A.enc a) = portReal w

/-- N4. -/
structure N4 (A : Arith) : Prop where
  positive : ∀ g, 0 < (A.db2lin g).toReal
  monotone : ∀ g g', g ≤ g' → (A.db2lin g).toReal ≤ (A.db2lin g').toReal
  zero : A.db2lin 0 = Val.one

/-- N5. -/
structure N5 (A : Arith) : Prop where
  unit : ∀ a m, 0 ≤ a.toReal → a.toReal ≤ m.toReal → 0 < m.toReal →
    0 ≤ (A.div a m).toReal ∧ (A.div a m).toReal ≤ 1
  self : ∀ m, 0 < m.toReal → (A.div m m).toReal = 1
  zero : ∀ m, 0 < m.toReal → A.div Val.zero m = Val.zero

/-- N6. -/
structure N6 (A : Arith) : Prop where
  blend : ∀ alpha x y, 0 ≤ alpha.toReal → alpha.toReal ≤ 1 →
    min x.toReal y.toReal ≤ (smoothLevel A alpha x y).toReal ∧
    (smoothLevel A alpha x y).toReal ≤ Max.max x.toReal y.toReal

end Arith

namespace Machine

/-! ### Streams -/

/-- The band signal of a stream cut into chunks: `out` of each chunk in turn, the tail carried on (R175, R176). -/
def streamOut (A : Arith) (mmax : Nat) (h : List Val) : List Val → List (List Val) → List Val
  | _, [] => []
  | row, x :: xs =>
    (List.range x.length).map (overlapOut A h x row) ++ streamOut A mmax h (overlapTail A mmax h x row) xs

/-- `Σ_j h[j]·x[T-j]` of a whole stream, with `x[U] = 0` for `U < 0` (R180). -/
noncomputable def streamConv (h x : List Val) (T : Nat) : ℝ :=
  ∑ j ∈ Finset.range h.length,
    if j ≤ T then (h.getD j Val.zero).toReal * (x.getD (T - j) Val.zero).toReal else 0

end Machine

end Sys2Proof
end

