-- ==== Sys2Proof/Certificates/Slice0/Obligations.lean ====
section
/-! DEFINITION. The statements of the model: what the decoder, the step and each command do, and the rules about the
whole machine. In each, `.next (putResponse s.active ws t)` says that the state after the command is `t` with the
response packet `ws` put on the port served, so every field that `t` does not change is unchanged. -/

open Sys2Proof Sys2Proof.Machine

/-! ### Encoding -/

/-- Every well-formed command survives encoding and decoding, with every operand at every value, whatever follows it
in the stream (R92, R93, R94, R106). -/
def Obligations.DecodeOfEncode : Prop :=
  ∀ (p : Params) (i : Instr) (rest : List Word), i.wf p = true → decode p (encode i ++ rest) = .ok (i, rest)

/-- A decoded packet is the encoding of its command: each word has one meaning (R94, R99, R101). -/
def Obligations.DecodedPacketIsAnEncoding : Prop :=
  ∀ (p : Params) (ws : List Word) (i : Instr) (rest : List Word),
    decode p ws = .ok (i, rest) → ws = encode i ++ rest ∧ i.wf p = true

/-- Which headers are illegal commands, bit by bit (R98, R99, R100). -/
def Obligations.IllegalHeadersExactly : Prop :=
  ∀ (p : Params) (c : Word),
    (∃ e, decodeHeader p c = .error e) ↔
      let op := c.toNat / 2 ^ 24
      let low := c.toNat % 2 ^ 16
      let s := c.toNat / 2 ^ 16 % 2
      let b := c.toNat / 2 ^ 16 % 8
      (op = 0 ∨ 0x0C ≤ op) ∨
      ((op = 1 ∨ op = 2 ∨ op = 3 ∨ op = 8 ∨ op = 9) ∧ c.toNat % 2 ^ 24 ≠ 0) ∨
      (op = 4 ∧ (c.toNat / 2 ^ 19 % 2 ^ 5 ≠ 0 ∨ 5 ≤ b)) ∨
      (op = 5 ∧ (c.toNat / 2 ^ 19 % 2 ^ 5 ≠ 0 ∨ c.toNat / 2 % 2 ^ 15 ≠ 0 ∨ 5 ≤ b)) ∨
      (op = 6 ∧ (c.toNat / 2 ^ 17 % 2 ^ 7 ≠ 0 ∨ s = 1 ∨ p.cap < low)) ∨
      (op = 7 ∧ (c.toNat / 2 ^ 17 % 2 ^ 7 ≠ 0 ∨ (s = 1 ∧ low ≠ 0) ∨ (s = 0 ∧ p.cap < low))) ∨
      ((op = 0x0A ∨ op = 0x0B) ∧ low ≠ 0)

/-- A header word of each command decodes to its command (fields by R92 and R94), and two illegal headers are refused (R98,
R99, R100). That the numbers are words with bit 0 the
least significant bit of the header (log 13), and that a header which announces a payload is given one of zeros (log 10),
is the model's choice: the payloads of `PROC`, `ANLZ` and `WRCFG` here are that fill, not the spec's. -/
def Obligations.SpecWordsDecode : Prop :=
  decodeTableWord 32 0x01000000 = some .build ∧ decodeTableWord 32 0x02000000 = some .start ∧
  decodeTableWord 32 0x03000000 = some .stop ∧ decodeTableWord 32 0x04020600 = some (.setgain 2 0x0600) ∧
  decodeTableWord 32 0x05010001 = some (.setmute 1 true) ∧
  decodeTableWord 32 0x06000001 = some (.proc 1 [0]) ∧ decodeTableWord 32 0x07000002 = some (.anlz 2 [0, 0]) ∧
  decodeTableWord 32 0x07010000 = some .anlzl ∧ decodeTableWord 32 0x08000000 = some .getlast ∧
  decodeTableWord 32 0x09000000 = some .getframe ∧ decodeTableWord 32 0x0A020000 = some (.wrcfg 0x02 0) ∧
  decodeTableWord 32 0x0B210000 = some (.rdreg 0x21) ∧ decodeTableWord 32 0x04050000 = none ∧
  decodeTableWord 32 0x07010001 = none

/-! ### The step -/

/-- A step executes the decoded command of the port served, after its words have left that port's buffer (R75,
R78). The port served and the counters are the model's own fields (logs 4 and 5). -/
def Obligations.StepRunsTheDecodedCommand : Prop :=
  ∀ (s : State) (q : Nat) (i : Instr) (rest : List Word),
    s.rst = false → nextPort s = some q → decode s.params (rxOf s q) = .ok (i, rest) →
    step s = exec i { s with
      ports := s.ports.modify q fun p => { p with rx := rest }
      active := q
      grants := s.grants.tail
      taken := s.taken + 1 }

/-- An illegal header is a packet of one word: nothing of the block's state changes but `ERRLOG[6]`, and the answer is the
opcode with code 6 (R98, R106). The port served and the counters are the model's own fields (logs 4 and 5). -/
def Obligations.IllegalHeaderTakesOneWord : Prop :=
  ∀ (s : State) (q : Nat) (c : Word) (ws : List Word) (e : Reject),
    s.rst = false → nextPort s = some q → rxOf s q = c :: ws → decodeHeader s.params c = .error e →
    step s = .next (putResponse q [responseHeader (opField c) 6 0 0]
      { s with
        ports := s.ports.modify q fun p => { p with rx := ws }
        active := q
        grants := s.grants.tail
        taken := s.taken + 1
        errlog := s.errlog ||| 0x40 })

/-- With no complete packet on any port the block waits (R78). -/
def Obligations.NoCompletePacketWaits : Prop :=
  ∀ s : State, s.rst = false →
    (∀ q, q < s.ports.length →
      decode s.params (rxOf s q) = .error .noWord ∨ decode s.params (rxOf s q) = .error .incomplete) →
    step s = .next s

/-- The port served holds a complete packet, and every port that holds one can be the one served (R77),
the choice being the model's own list of grants (log 5). In a run whose arbiter is weakly fair every complete pending packet
is at last taken, unless a reset discards it: what has arrived is still at the head of its port then (R77, R84). -/
def Obligations.ArbiterMayServeAnyReadyPort : Prop :=
  (∀ (s : State) (q : Nat), nextPort s = some q → q < s.ports.length ∧ arrivalAt s q ≠ .waiting) ∧
  (∀ (s : State) (q : Nat), q < s.ports.length → arrivalAt s q ≠ .waiting →
    ∃ g, nextPort { s with grants := g :: s.grants } = some q) ∧
  (∀ (r : Run) (q t : Nat), r.Fair → (∀ u, t ≤ u → (r.at u).rst = false) → r.Pending q t →
    ∃ u, t ≤ u ∧ r.Takes q u ∧ rxOf (r.at t) q <+: rxOf (r.at u) q)

/-- Reset puts every element of the block's state at its reset value and empties the ports, whatever the state (R55,
R250). That `rst` is a field the step reads, and that a reset keeps the parameters, is the model's choice (logs 1 and 6).
-/
def Obligations.ResetPutsEveryElementAtItsValue : Prop :=
  ∀ s : State, s.rst = true → ∃ t, step s = .next t ∧ t.params = s.params ∧
    t.run = false ∧ t.built = false ∧ t.lastValid = false ∧ t.errlog = 0 ∧
    t.cfgFs = 44100 ∧ t.cfgOrder = BitVec.ofNat 32 s.params.orderReset ∧ t.cfgBw = s.params.bwReset ∧
    t.cfgGmin = 0xE200 ∧ t.cfgGmax = 0x0C00 ∧
    t.cfgAlpha = BitVec.ofNat 32 s.params.alphaReset ∧ t.cfgDecay = BitVec.ofNat 32 s.params.decayReset ∧
    (∀ b, (t.band.get b).gdb = 0 ∧ (t.band.get b).mute = false ∧ (t.band.get b).lin = Val.one) ∧
    t.bankFs = 0 ∧ t.bankM = 0 ∧ t.bankN = 0 ∧ (∀ b, t.bankBw.get b = 0) ∧ t.bank = none ∧
    t.tail.length = s.params.nch ∧
    (∀ c b k, c < s.params.nch → k < s.params.mmax - 1 → ((tailOf t c).get b)[k]? = some Val.zero) ∧
    t.last = none ∧ t.lastLen = 0 ∧
    t.level = List.replicate s.params.na Val.zero ∧ t.peak = List.replicate s.params.na Val.zero ∧
    t.ports = List.replicate s.params.nport ⟨[], []⟩

/-- Every command is answered by exactly one response packet on the port served: the opcode echoed, a code in use,
`cnt` and the payload length as the command says, and neither payload nor `cnt` with an error (R90, R95, R96). -/
def Obligations.OneResponsePacketPerCommand : Prop :=
  ∀ (i : Instr) (s t : State), s.Inv → i.wf s.params = true → exec i s = .next t →
    ∃ (code aux : BitVec 4) (cnt : BitVec 16) (payload : List Word),
      t.ports = s.ports.modify s.active
        (fun p => { p with tx := p.tx ++ responseHeader i.opcode code aux cnt :: payload }) ∧
      (code = 0 ∨ code = 1 ∨ code = 2 ∨ code = 4 ∨ code = 5 ∨ code = 6) ∧
      (code ≠ 0 → cnt = 0 ∧ payload = []) ∧
      (code = 0 → (cnt.toNat, payload.length) =
        match i with
        | .proc n _ => (n.toNat, n.toNat * s.params.nch)
        | .getlast =>
          if s.lastValid then (s.lastLen.toNat, s.lastLen.toNat * s.params.nch) else (0, 0)
        | .anlz _ _ => (s.params.na, 2 * s.params.na)
        | .anlzl => (s.params.na, 2 * s.params.na)
        | .getframe => (s.params.na, 2 * s.params.na)
        | .rdreg _ => (1, 1)
        | _ => (0, 0))

/-! ### The invariant -/

/-- The block meets its invariant right after reset, for every choice of parameters. Its clauses on the ports are
the model's own (logs 4 and 12). -/
def Obligations.ResetMeetsTheInvariant : Prop :=
  ∀ p : Params, p.Ok → (State.resetOf p).Inv

/-- Every step keeps the invariant (R45, R46, R47, R48). -/
def Obligations.StepKeepsTheInvariant : Prop :=
  ∀ s t : State, s.Inv → step s = .next t → t.Inv

/-- In a state that meets the invariant no step stops: every command taken completes (R84), the reads of unwritten memory
being guarded (R56; that such a read faults is the model's choice, log 9). -/
def Obligations.StepNeverStops : Prop :=
  ∀ s : State, s.Inv → ∃ t, step s = .next t

/-! ### Rules about the whole machine -/

/-- What changes `RUN`: `START` with a bank, `STOP`, a failed `BUILD`, and reset (R150). -/
def Obligations.WhatChangesRun : Prop :=
  (∀ (i : Instr) (s t : State), exec i s = .next t → t.run ≠ s.run →
    (i = .start ∧ s.built = true ∧ t.run = true) ∨ (i = .stop ∧ t.run = false) ∨
    (i = .build ∧ t.built = false ∧ t.run = false)) ∧
  (∀ s t : State, s.rst = true → step s = .next t → t.run = false)

/-- Which commands write which state: each element is changed by no command but its writers, and `ERRLOG` only gains bits
(R20 to R43, R49). -/
def Obligations.WhoWritesWhat : Prop :=
  ∀ (i : Instr) (s t : State), exec i s = .next t →
    t.params = s.params ∧
    ((∀ a v, i ≠ .wrcfg a v) → t.cfgFs = s.cfgFs ∧ t.cfgOrder = s.cfgOrder ∧ t.cfgBw = s.cfgBw ∧
      t.cfgGmin = s.cfgGmin ∧ t.cfgGmax = s.cfgGmax ∧ t.cfgAlpha = s.cfgAlpha ∧ t.cfgDecay = s.cfgDecay) ∧
    ((∀ b v, i ≠ .setgain b v) → ∀ b, (t.band.get b).gdb = (s.band.get b).gdb ∧ (t.band.get b).lin = (s.band.get b).lin) ∧
    ((∀ b m, i ≠ .setmute b m) → ∀ b, (t.band.get b).mute = (s.band.get b).mute) ∧
    (i ≠ .build → t.built = s.built ∧ t.bank = s.bank ∧ t.bankFs = s.bankFs ∧ t.bankM = s.bankM ∧
      t.bankN = s.bankN ∧ t.bankBw = s.bankBw) ∧
    (i ≠ .build → (∀ n ws, i ≠ .proc n ws) → t.tail = s.tail) ∧
    ((∀ n ws, i ≠ .proc n ws) → t.last = s.last ∧ t.lastLen = s.lastLen ∧ t.lastValid = s.lastValid) ∧
    ((∀ n ws, i ≠ .anlz n ws) → i ≠ .anlzl → t.level = s.level ∧ t.peak = s.peak) ∧
    (i ≠ .start → i ≠ .stop → i ≠ .build → t.run = s.run) ∧
    (∀ k, s.errlog.getLsbD k = true → t.errlog.getLsbD k = true) ∧
    ((i = .stop ∨ (∃ b m, i = .setmute b m) ∨ i = .getlast ∨ i = .getframe) → t.errlog = s.errlog)

/-- `ERRLOG` is sticky and `LAST_VALID` is never cleared, but by reset (R25, R26). -/
def Obligations.LogAndLastValidAreSticky : Prop :=
  ∀ s t : State, s.rst = false → step s = .next t →
    (∀ k, s.errlog.getLsbD k = true → t.errlog.getLsbD k = true) ∧ (s.lastValid = true → t.lastValid = true)

/-- `GETLAST`, `GETFRAME` and `RDREG` change no state, except that a refusal sets `ERRLOG[6]` (R82). -/
def Obligations.ReadersChangeNoState : Prop :=
  ∀ (i : Instr) (s t : State), (i = .getlast ∨ i = .getframe ∨ ∃ a, i = .rdreg a) → exec i s = .next t →
    ∃ ws, t = putResponse s.active ws s ∨
      ((∃ a, i = .rdreg a) ∧ t = putResponse s.active ws { s with errlog := s.errlog ||| 0x40 })

/-- A chunk is processed alike whatever the configuration registers hold: they are not seen by `PROC` (R65, R81). -/
def Obligations.ProcIgnoresTheConfigurationRegisters : Prop :=
  ∀ (n : BitVec 16) (ws : List Word) (s t : State) (fs ord gmin gmax alpha decay : Word) (bw : PerBand Word),
    exec (.proc n ws) s = .next t →
    exec (.proc n ws)
        { s with
          cfgFs := fs
          cfgOrder := ord
          cfgBw := bw
          cfgGmin := gmin
          cfgGmax := gmax
          cfgAlpha := alpha
          cfgDecay := decay } =
      .next
        { t with
          cfgFs := fs
          cfgOrder := ord
          cfgBw := bw
          cfgGmin := gmin
          cfgGmax := gmax
          cfgAlpha := alpha
          cfgDecay := decay }

/-! ### `WRCFG` and `RDREG` -/

/-- The register map: which register stands at each address, which addresses are reserved, which registers are
read-write (R62). -/
def Obligations.RegisterMap : Prop :=
  (∀ b : BandIx,
    regAt (0x04 + BitVec.ofNat 8 b.val) = some (.cfgBw b) ∧ regAt (0x10 + BitVec.ofNat 8 b.val) = some (.band b) ∧
    regAt (0x1B + BitVec.ofNat 8 b.val) = some (.bankBw b)) ∧
  regAt 0x00 = some .status ∧ regAt 0x01 = some .errlog ∧ regAt 0x02 = some .cfgFs ∧ regAt 0x03 = some .cfgOrder ∧
  regAt 0x09 = some .cfgGmin ∧ regAt 0x0A = some .cfgGmax ∧ regAt 0x0B = some .cfgAlpha ∧
  regAt 0x0C = some .cfgDecay ∧ regAt 0x18 = some .bankFs ∧ regAt 0x19 = some .bankM ∧ regAt 0x1A = some .bankN ∧
  regAt 0x20 = some .lastLen ∧ regAt 0x21 = some .params0 ∧ regAt 0x22 = some .params1 ∧
  (∀ a : BitVec 8, regAt a = none ↔
    (0x0D ≤ a.toNat ∧ a.toNat ≤ 0x0F) ∨ (0x15 ≤ a.toNat ∧ a.toNat ≤ 0x17) ∨ 0x23 ≤ a.toNat) ∧
  (∀ a : BitVec 8, (∃ r, regAt a = some r ∧ r.writable = true) ↔ 0x02 ≤ a.toNat ∧ a.toNat ≤ 0x0C)

/-- `WRCFG` of a legal value to a read-write register: that register reads the value, every other register reads as
before, and nothing but registers is touched (R121, R64). -/
def Obligations.WrcfgReplacesTheRegister : Prop :=
  ∀ (a : BitVec 8) (v : Word) (s : State) (r : Reg),
    regAt a = some r → r.writable = true → legalValue s v r = true →
    ∃ t, exec (.wrcfg a v) s = .next (putResponse s.active [0x0A000000] t) ∧
      regRead t r = v ∧ (∀ r', r' ≠ r → regRead t r' = regRead s r') ∧
      t =
        { s with
          cfgFs := t.cfgFs
          cfgOrder := t.cfgOrder
          cfgBw := t.cfgBw
          cfgGmin := t.cfgGmin
          cfgGmax := t.cfgGmax
          cfgAlpha := t.cfgAlpha
          cfgDecay := t.cfgDecay }

/-- `WRCFG` to a reserved or read-only address, or of an illegal value, is refused and changes only `ERRLOG[6]`
(R121). -/
def Obligations.WrcfgRefusals : Prop :=
  ∀ (a : BitVec 8) (v : Word) (s : State),
    (∀ r, regAt a = some r → r.writable = false ∨ legalValue s v r = false) →
    exec (.wrcfg a v) s = .next (putResponse s.active [0x0A600000] { s with errlog := s.errlog ||| 0x40 })

/-- The legal values of every read-write register (R122). -/
def Obligations.LegalValuesByRegister : Prop :=
  ∀ (s : State) (v : Word),
    (legalValue s v .cfgFs = true ↔ 41 ≤ v.toNat ∧ v.toNat ≤ 0xFFFFFFFF) ∧
    (legalValue s v .cfgOrder = true ↔ 1 ≤ v.toNat ∧ v.toNat ≤ s.params.mmax) ∧
    (∀ b, legalValue s v (.cfgBw b) = true) ∧
    (legalValue s v .cfgGmin = true ↔
      v.toNat / 2 ^ 16 = 0 ∧ (v.setWidth 16).toInt ≤ (s.cfgGmax.setWidth 16).toInt) ∧
    (legalValue s v .cfgGmax = true ↔
      v.toNat / 2 ^ 16 = 0 ∧ (s.cfgGmin.setWidth 16).toInt ≤ (v.setWidth 16).toInt) ∧
    (legalValue s v .cfgAlpha = true ↔ v.toNat ≤ 0x10000) ∧
    (legalValue s v .cfgDecay = true ↔ v.toNat ≤ 0x10000)

/-- `RDREG` of a register answers its word and changes nothing; of a reserved address it is refused (R123). -/
def Obligations.RdregAnswersTheRegister : Prop :=
  ∀ (a : BitVec 8) (s : State),
    (∀ r, regAt a = some r → exec (.rdreg a) s = .next (putResponse s.active [0x0B000001, regRead s r] s)) ∧
    (regAt a = none →
      exec (.rdreg a) s = .next (putResponse s.active [0x0B600000] { s with errlog := s.errlog ||| 0x40 }))

/-- The words of the registers that are made of fields (R27, R34, R35, R36, R37). -/
def Obligations.FieldRegisterWords : Prop :=
  ∀ s : State, s.params.Ok →
    (regRead s .status).toNat = s.run.toNat + 2 * s.built.toNat + 4 * s.lastValid.toNat ∧
    (regRead s .errlog).toNat = s.errlog.toNat ∧
    (∀ b, (regRead s (.band b)).toNat = (s.band.get b).gdb.toNat + 2 ^ 16 * (s.band.get b).mute.toNat) ∧
    (regRead s .bankM).toNat = s.bankM.toNat ∧ (regRead s .lastLen).toNat = s.lastLen.toNat ∧
    (regRead s .params0).toNat = s.params.cap + 2 ^ 16 * s.params.nch + 2 ^ 24 * s.params.na ∧
    (regRead s .params1).toNat = s.params.mmax + 2 ^ 16 * min s.params.nport 255

/-! ### `BUILD` -/

/-- `BUILD` when every band has a positive width, ends below half the sample rate and begins above zero: the new bank,
its information registers, the cleared tail and `BUILT`, and nothing else (R131, R136). -/
def Obligations.BuildMakesTheBank : Prop :=
  ∀ s : State,
    (∀ b, (s.cfgBw.get b).toNat ≠ 0 ∧ upperEdge b (s.cfgBw.get b) < (s.cfgFs.toNat : Rat) / 2 ∧
      0 < lowerEdge b (s.cfgBw.get b)) →
    exec .build s = .next (putResponse s.active [0x01000000]
      { s with
        bank := some (PerBand.build fun b =>
          designBandpass exactArith (lowerEdge b (s.cfgBw.get b)) (upperEdge b (s.cfgBw.get b)) s.cfgFs.toNat
            (oddLength (s.cfgOrder.toNat % 2 ^ 16)))
        bankFs := s.cfgFs
        bankM := BitVec.ofNat 16 (oddLength (s.cfgOrder.toNat % 2 ^ 16))
        bankN := BitVec.ofNat 32 (leastPowerOfTwo (s.params.cap + oddLength (s.cfgOrder.toNat % 2 ^ 16) - 1))
        bankBw := s.cfgBw
        tail := zeroTail s.params
        built := true })

/-- `BUILD` fails at its first bad band: `FilterBankConfigError` for a zero width or an upper edge at or above half the
sample rate, else `InvalidBandError` for a lower edge not positive; `BUILT` and `RUN` are cleared, the log bit set,
the band reported, and the rest kept (R131, R137, R230). -/
def Obligations.BuildFailsAtTheFirstBadBand : Prop :=
  ∀ (s : State) (b : BandIx),
    (∀ b', b' < b → (s.cfgBw.get b').toNat ≠ 0 ∧ upperEdge b' (s.cfgBw.get b') < (s.cfgFs.toNat : Rat) / 2 ∧
      0 < lowerEdge b' (s.cfgBw.get b')) →
    ((s.cfgBw.get b).toNat = 0 ∨ (s.cfgFs.toNat : Rat) / 2 ≤ upperEdge b (s.cfgBw.get b) →
      exec .build s = .next (putResponse s.active [responseHeader 0x01 2 (BitVec.ofNat 4 b.val) 0]
        { s with built := false, run := false, errlog := s.errlog ||| 0x04 })) ∧
    ((s.cfgBw.get b).toNat ≠ 0 → upperEdge b (s.cfgBw.get b) < (s.cfgFs.toNat : Rat) / 2 →
      lowerEdge b (s.cfgBw.get b) ≤ 0 →
      exec .build s = .next (putResponse s.active [responseHeader 0x01 1 (BitVec.ofNat 4 b.val) 0]
        { s with built := false, run := false, errlog := s.errlog ||| 0x02 }))

/-- The filter length is the order forced odd, upwards; the transform length is the least power of two not below its
argument (R12, R131). -/
def Obligations.FilterAndTransformLengths : Prop :=
  (∀ ord, oddLength ord % 2 = 1 ∧ ord ≤ oddLength ord ∧ oddLength ord ≤ ord + 1) ∧
  (∀ m, m ≤ leastPowerOfTwo m ∧ (∃ k, leastPowerOfTwo m = 2 ^ k) ∧ ∀ k, m ≤ 2 ^ k → leastPowerOfTwo m ≤ 2 ^ k)

/-- The Hamming window (R133). -/
def Obligations.HammingWindow : Prop :=
  (∀ len j, 2 ≤ len → j < len →
    (hamming exactArith len j).toReal = 0.54 - 0.46 * Real.cos (2 * Real.pi * j / (len - 1))) ∧
  (hamming exactArith 1 0).toReal = 1

/-- The taps of a designed band-pass: the ideal response at the centred index, windowed (R132, R134). -/
def Obligations.TapsAreTheWindowedIdealResponse : Prop :=
  ∀ (lo hi : Rat) (fs M j : Nat), 0 < fs → M % 2 = 1 → j < M →
    (designBandpass exactArith lo hi fs M).length = M ∧
    ((designBandpass exactArith lo hi fs M).getD j Val.zero).toReal =
      (let n : ℝ := (j : ℝ) - ((M : ℝ) - 1) / 2
       let ωL : ℝ := 2 * Real.pi * lo / fs
       let ωH : ℝ := 2 * Real.pi * hi / fs
       if n = 0 then (ωH - ωL) / Real.pi else (Real.sin (ωH * n) - Real.sin (ωL * n)) / (n * Real.pi)) *
      (hamming exactArith M j).toReal

/-- A designed response is symmetric, and its centre tap is twice the width over the sample rate (R138). -/
def Obligations.TapsAreSymmetric : Prop :=
  ∀ (lo hi : Rat) (fs M j : Nat), 0 < fs → M % 2 = 1 → j < M →
    ((designBandpass exactArith lo hi fs M).getD j Val.zero).toReal =
      ((designBandpass exactArith lo hi fs M).getD (M - 1 - j) Val.zero).toReal ∧
    ((designBandpass exactArith lo hi fs M).getD ((M - 1) / 2) Val.zero).toReal = 2 * ((hi : ℝ) - lo) / fs

/-! ### `START`, `STOP`, `SETGAIN`, `SETMUTE` -/

/-- `START`: to `Processing` with a bank; without one, `FilterBankConfigError` (R151). `STOP`: to `Idle`, always
(R152). Neither changes anything else. -/
def Obligations.StartAndStop : Prop :=
  ∀ s : State,
    (s.built = true → exec .start s = .next (putResponse s.active [0x02000000] { s with run := true })) ∧
    (s.built = false →
      exec .start s = .next (putResponse s.active [0x02200000] { s with errlog := s.errlog ||| 0x04 })) ∧
    exec .stop s = .next (putResponse s.active [0x03000000] { s with run := false })

/-- `SETGAIN` of a gain within the bounds (R153): the code and its linear gain are stored, the mute bit and the other
bands stay. -/
def Obligations.SetgainStoresTheGain : Prop :=
  ∀ (b : BandIx) (v : BitVec 16) (s : State),
    (s.cfgGmin.setWidth 16).toInt ≤ v.toInt → v.toInt ≤ (s.cfgGmax.setWidth 16).toInt →
    exec (.setgain b v) s = .next (putResponse s.active [0x04000000]
      { s with band := s.band.set b ⟨v, (s.band.get b).mute, exactArith.db2lin v.toInt⟩ }) ∧
    (exactArith.db2lin v.toInt).toReal = (10 : ℝ) ^ ((v.toInt : ℝ) / 5120) ∧
    (∀ x, (s.band.set b x).get b = x) ∧ (∀ x b', b' ≠ b → (s.band.set b x).get b' = s.band.get b')

/-- `SETGAIN` of a gain outside the bounds is clamped to the nearer one, reported in `aux[3]` and logged, and does not
fail (R153, R154, R224, R229). -/
def Obligations.SetgainClamps : Prop :=
  ∀ (b : BandIx) (v : BitVec 16) (s : State),
    (s.cfgGmin.setWidth 16).toInt ≤ (s.cfgGmax.setWidth 16).toInt →
    (v.toInt < (s.cfgGmin.setWidth 16).toInt →
      exec (.setgain b v) s = .next (putResponse s.active [0x04080000]
        { s with band := s.band.set b ⟨s.cfgGmin.setWidth 16, (s.band.get b).mute,
                          exactArith.db2lin (s.cfgGmin.setWidth 16).toInt⟩
                 errlog := s.errlog ||| 0x08 })) ∧
    ((s.cfgGmax.setWidth 16).toInt < v.toInt →
      exec (.setgain b v) s = .next (putResponse s.active [0x04080000]
        { s with band := s.band.set b ⟨s.cfgGmax.setWidth 16, (s.band.get b).mute,
                          exactArith.db2lin (s.cfgGmax.setWidth 16).toInt⟩
                 errlog := s.errlog ||| 0x08 }))

/-- `SETMUTE`: the mute bit of one band, its gain kept (R155). -/
def Obligations.SetmuteWritesTheBit : Prop :=
  ∀ (b : BandIx) (m : Bool) (s : State),
    exec (.setmute b m) s = .next (putResponse s.active [0x05000000]
      { s with band := s.band.set b ⟨(s.band.get b).gdb, m, (s.band.get b).lin⟩ })

/-- The gain round trip (R157). -/
def Obligations.GainRoundTrip : Prop :=
  ∀ g : Int, 20 * Real.logb 10 (exactArith.db2lin g).toReal = (g : ℝ) / 256

/-! ### `PROC` and `GETLAST` -/

/-- The checks of `PROC`, in order; a failed one changes nothing but its `ERRLOG` bit, so the stream is intact (R171,
R184, R230). -/
def Obligations.ProcChecksInOrder : Prop :=
  ∀ (n : BitVec 16) (ws : List Word) (s : State),
    ((∃ w ∈ ws, w.toNat / 2 ^ 23 % 2 ^ 8 = 255) →
      exec (.proc n ws) s = .next (putResponse s.active [0x06600000] { s with errlog := s.errlog ||| 0x40 })) ∧
    ((∀ w ∈ ws, w.toNat / 2 ^ 23 % 2 ^ 8 ≠ 255) → s.run = false →
      exec (.proc n ws) s = .next (putResponse s.active [0x06400000] { s with errlog := s.errlog ||| 0x10 })) ∧
    ((∀ w ∈ ws, w.toNat / 2 ^ 23 % 2 ^ 8 ≠ 255) → s.run = true → n = 0 →
      exec (.proc n ws) s = .next (putResponse s.active [0x06500000] { s with errlog := s.errlog ||| 0x20 }))

/-- `PROC` of a non-empty finite chunk in `Processing`: the output chunk is answered, kept in `LAST` as delivered, and
the tail carried on (R171, R178). -/
def Obligations.ProcProcessesTheChunk : Prop :=
  ∀ (n : BitVec 16) (ws : List Word) (s : State) (h : PerBand (List Val)),
    (∀ w ∈ ws, w.toNat / 2 ^ 23 % 2 ^ 8 ≠ 255) → s.run = true → n ≠ 0 → s.bank = some h →
    exec (.proc n ws) s = .next (putResponse s.active
      (responseHeader 0x06 0 0 n ::
        payloadOf s.params.nch n.toNat fun c t =>
          enc32 (compositeAt exactArith h (channelsOf s.params.nch n.toNat ws) s c t))
      { s with
        tail := nextTail exactArith h (channelsOf s.params.nch n.toNat ws) s
        last := some ((List.range s.params.nch).map fun c => (List.range n.toNat).map fun t =>
          decVal (enc32 (compositeAt exactArith h (channelsOf s.params.nch n.toNat ws) s c t)))
        lastLen := n
        lastValid := true })

/-- The frequency-domain steps of `PROC` (pad, transform, multiply by the filter's transform, real part of the inverse
transform) and the sum the model computes both give the causal convolution, with nothing wrapping around; it is zero
from `n + M - 1` on (R173, R174, R179). -/
def Obligations.FrequencyAndTimeFormsAgree : Prop :=
  ∀ (N : Nat) (h x : List Val) (t : Nat),
    1 ≤ h.length → 1 ≤ x.length → x.length + h.length - 1 ≤ N → t < N →
    (bandSignalFrequency exactArith N h x t).toReal = streamConv h x t ∧
    (bandSignal exactArith h x t).toReal = streamConv h x t ∧
    (x.length + h.length - 1 ≤ t → streamConv h x t = 0)

/-- The output sample: each band's filtered signal with its tail, scaled by its effective gain, summed (R172, R175,
R177). -/
def Obligations.CompositeIsTheGainedSum : Prop :=
  ∀ (h : PerBand (List Val)) (x : List (List Val)) (s : State) (c t : Nat),
    (compositeAt exactArith h x s c t).toReal =
      ∑ b : BandIx, (if (s.band.get b).mute then 0 else (s.band.get b).lin.toReal) *
        (streamConv (h.get b) (x.getD c []) t +
          if t < (h.get b).length - 1 then (((tailOf s c).get b).getD t Val.zero).toReal else 0)

/-- The tail update of every channel and band: the old tail moved down by the chunk's length, plus this chunk's overhang;
zero beyond `M - 2` (R176). -/
def Obligations.TailUpdate : Prop :=
  ∀ (h : PerBand (List Val)) (x : List (List Val)) (s : State) (c : Nat) (b : BandIx) (k : Nat),
    c < s.params.nch → k < s.params.mmax - 1 →
    ∃ v, ((tailOf { s with tail := nextTail exactArith h x s } c).get b)[k]? = some v ∧
      (k < (h.get b).length - 1 → v.toReal =
        (if k + (x.getD c []).length < (h.get b).length - 1 then
            (((tailOf s c).get b).getD (k + (x.getD c []).length) Val.zero).toReal else 0) +
          streamConv (h.get b) (x.getD c []) ((x.getD c []).length + k)) ∧
      ((h.get b).length - 1 ≤ k → v = Val.zero)

/-- Cutting a stream into chunks does not change its band signal (R180). -/
def Obligations.ChunkingDoesNotChangeTheStream : Prop :=
  ∀ (mmax : Nat) (h : List Val) (chunks : List (List Val)) (T : Nat),
    1 ≤ h.length → h.length ≤ mmax → T < chunks.flatten.length →
    ∃ v, (streamOut exactArith mmax h (List.replicate (mmax - 1) Val.zero) chunks)[T]? = some v ∧
      v.toReal = streamConv h chunks.flatten T

/-- Silence in, silence out, when the tail that is due is zero, for every arithmetic with N1 and `rnd(0) = 0` (R181). -/
def Obligations.SilenceInSilenceOut : Prop :=
  ∀ (A : Arith) (n : BitVec 16) (ws : List Word) (s : State) (h : PerBand (List Val)),
    A.N1 → A.enc Val.zero = 0 → s.run = true → n ≠ 0 → s.bank = some h →
    (∀ w ∈ ws, w = 0x00000000 ∨ w = 0x80000000) →
    (∀ c b k, c < s.params.nch → k < min n.toNat ((h.get b).length - 1) →
      ((tailOf s c).get b).getD k Val.zero = Val.zero) →
    (∀ c t, c < s.params.nch → t < n.toNat →
      compositeAt A h (channelsOf s.params.nch n.toNat ws) s c t = Val.zero) ∧
    ∃ t, procWith A n ws s = .next (putResponse s.active
        (responseHeader 0x06 0 0 n :: List.replicate (n.toNat * s.params.nch) 0x00000000) t) ∧
      t = { s with tail := t.tail, last := t.last, lastLen := n, lastValid := true }

/-- With the four other bands muted the output is the one band's signal times its gain, exactly, for every arithmetic
with N1 (R185). -/
def Obligations.OneBandAlone : Prop :=
  ∀ (A : Arith) (h : PerBand (List Val)) (x : List (List Val)) (s : State) (b : BandIx) (c t : Nat),
    A.N1 → (∀ b', b' ≠ b → (s.band.get b').mute = true) → (s.band.get b).mute = false →
    compositeAt A h x s c t =
      A.mul (s.band.get b).lin (overlapOut A (h.get b) (x.getD c []) ((tailOf s c).get b) t)

/-- `GETLAST`: empty before any chunk, not an error; then the last chunk (R183). -/
def Obligations.GetlastAnswersTheLastChunk : Prop :=
  ∀ s : State,
    (s.lastValid = false → exec .getlast s = .next (putResponse s.active [0x08040000] s)) ∧
    (∀ x, s.lastValid = true → s.last = some x →
      exec .getlast s = .next (putResponse s.active
        (responseHeader 0x08 0 0 s.lastLen ::
          payloadOf s.params.nch s.lastLen.toNat fun c t => enc32 (sampleAt x c t)) s))

/-- A `GETLAST` after a `PROC` answers exactly the payload of the `PROC`'s response (R178). -/
def Obligations.GetlastRepeatsTheDeliveredChunk : Prop :=
  ∀ (n : BitVec 16) (ws : List Word) (s : State) (h : PerBand (List Val)),
    (∀ w ∈ ws, w.toNat / 2 ^ 23 % 2 ^ 8 ≠ 255) → s.run = true → n ≠ 0 → s.bank = some h →
    ∃ payload t u, exec (.proc n ws) s = .next t ∧
      t = putResponse s.active (responseHeader 0x06 0 0 n :: payload) u ∧
      exec .getlast t = .next (putResponse t.active (responseHeader 0x08 0 0 n :: payload) t)

/-! ### `ANLZ`, `ANLZL` and `GETFRAME` -/

/-- `ANLZ` of a non-finite sample, then of an empty chunk, is refused and changes nothing but its `ERRLOG` bit, in
`Idle` and `Processing` alike (R191, R230). -/
def Obligations.AnlzRefusals : Prop :=
  ∀ (n : BitVec 16) (ws : List Word) (s : State),
    ((∃ w ∈ ws, w.toNat / 2 ^ 23 % 2 ^ 8 = 255) →
      exec (.anlz n ws) s = .next (putResponse s.active [0x07600000] { s with errlog := s.errlog ||| 0x40 })) ∧
    ((∀ w ∈ ws, w.toNat / 2 ^ 23 % 2 ^ 8 ≠ 255) → n = 0 →
      exec (.anlz n ws) s = .next (putResponse s.active [0x07500000] { s with errlog := s.errlog ||| 0x20 })) ∧
    (s.lastValid = false →
      exec .anlzl s = .next (putResponse s.active [0x07500000] { s with errlog := s.errlog ||| 0x20 }))

/-- `ANLZ` of a non-empty finite chunk: the new levels and peaks are stored and answered, and nothing else changes
(R191, R201). -/
def Obligations.AnlzAnswersTheFrame : Prop :=
  ∀ (n : BitVec 16) (ws : List Word) (s : State),
    (∀ w ∈ ws, w.toNat / 2 ^ 23 % 2 ^ 8 ≠ 255) → n ≠ 0 →
    ∃ level peak : List Val,
      level = nextLevel exactArith
        (chunkNorm exactArith s.params s.cfgFs.toNat n.toNat (channelsOf s.params.nch n.toNat ws)) s ∧
      peak = nextPeak exactArith level s ∧
      exec (.anlz n ws) s = .next (putResponse s.active
        (responseHeader 0x07 0 0 (BitVec.ofNat 16 s.params.na) :: (level.map enc32 ++ peak.map enc32))
        { s with level := level, peak := peak })

/-- `ANLZL` analyses the last chunk exactly as `ANLZ` would analyse its words (R178, R191). -/
def Obligations.AnlzlAnalysesTheLastChunk : Prop :=
  ∀ s : State, s.lastValid = true →
    (∀ x, s.last = some x → ∃ level peak : List Val,
      level = nextLevel exactArith (chunkNorm exactArith s.params s.cfgFs.toNat s.lastLen.toNat x) s ∧
      peak = nextPeak exactArith level s ∧
      exec .anlzl s = .next (putResponse s.active
        (responseHeader 0x07 0 0 (BitVec.ofNat 16 s.params.na) :: (level.map enc32 ++ peak.map enc32))
        { s with level := level, peak := peak })) ∧
    (∀ ws, s.last = some (channelsOf s.params.nch s.lastLen.toNat ws) → s.lastLen ≠ 0 →
      (∀ w ∈ ws, w.toNat / 2 ^ 23 % 2 ^ 8 ≠ 255) → exec .anlzl s = exec (.anlz s.lastLen ws) s)

/-- A magnitude is the modulus of the discrete Fourier transform at its bin (R18, R194). -/
def Obligations.MagnitudeIsTheModulusOfTheTransform : Prop :=
  ∀ (v : List Val) (k : Nat), v ≠ [] →
    (magnitudeAt exactArith v.length v k).toReal =
      ‖∑ t ∈ Finset.range v.length, ((v.getD t Val.zero).toReal : ℂ) *
        Complex.exp (-(2 * Real.pi * Complex.I * t * k / v.length))‖

/-- The comparison of a bin's frequency with a band edge says what the edge formula says (R195, R196). -/
def Obligations.BandEdgeTestIsExact : Prop :=
  ∀ (na fs i : Nat) (f : Rat), 1 ≤ na → 41 ≤ fs → i ≤ na →
    (edgeBelow exactArith na fs i f = true ↔ 20 * (((fs : ℝ) / 2) / 20) ^ ((i : ℝ) / na) ≤ (f : ℝ))

/-- The bins of the analyzer bands are disjoint, and every bin from 20 Hz to the Nyquist frequency is in one (R196). -/
def Obligations.BinsArePartitioned : Prop :=
  ∀ (na fs n k : Nat), 1 ≤ na → 41 ≤ fs → 1 ≤ n → k ≤ n / 2 →
    (∀ i j, i < na → j < na → k ∈ binsOf exactArith na fs n i → k ∈ binsOf exactArith na fs n j → i = j) ∧
    ((∃ i, i < na ∧ k ∈ binsOf exactArith na fs n i) ↔ 20 * n ≤ k * fs)

/-- The chunk that is transformed is the mean of the channels under the window, a raw level is the mean of the magnitudes
of its bins, 0 where it has none, and these are what the analysis normalises (R192, R193, R197). -/
def Obligations.DownmixWindowAndAggregate : Prop :=
  (∀ (nch n : Nat) (u : List (List Val)) (t : Nat), 1 ≤ nch → t < n →
    ∃ v, (windowed exactArith n (downmix exactArith nch n u))[t]? = some v ∧
      v.toReal = (∑ c ∈ Finset.range nch, (sampleAt u c t).toReal) / nch * (hamming exactArith n t).toReal) ∧
  (∀ (na fs n i : Nat) (v : List Val),
    (rawLevel exactArith na fs n v i).toReal =
      if binsOf exactArith na fs n i = [] then 0
      else ((binsOf exactArith na fs n i).map fun k => (magnitudeAt exactArith n v k).toReal).sum / (binsOf exactArith na fs n i).length) ∧
  (∀ (p : Params) (fs n : Nat) (u : List (List Val)),
    chunkNorm exactArith p fs n u =
      normalise exactArith ((List.range p.na).map
        (rawLevel exactArith p.na fs n (windowed exactArith n (downmix exactArith p.nch n u)))))

/-- Normalisation: by the maximum where it is positive, else to zero; every level is in `[0, 1]`, and where the maximum is
positive one of them is 1 (R198). -/
def Obligations.NormalisedLevels : Prop :=
  ∀ raw : List Val, raw ≠ [] → (∀ r ∈ raw, r.Defined) → (∀ r ∈ raw, 0 ≤ r.toReal) →
    ∃ m : ℝ, (∃ r ∈ raw, r.toReal = m) ∧ (∀ r ∈ raw, r.toReal ≤ m) ∧
      (normalise exactArith raw).map Val.toReal = raw.map (fun r => if 0 < m then r.toReal / m else 0) ∧
      (∀ v ∈ normalise exactArith raw, 0 ≤ v.toReal ∧ v.toReal ≤ 1) ∧
      (0 < m → ∃ v ∈ normalise exactArith raw, v.toReal = 1)

/-- Smoothing and peak decay of every analyzer band, and that the new level lies between the norm and the old level and
the new peak stays in `[0, 1]` (R199, R200). -/
def Obligations.SmoothingAndPeakDecay : Prop :=
  ∀ (norm level' : List Val) (s : State) (i : Nat),
    i < s.params.na → s.cfgAlpha.toNat ≤ 65536 → s.cfgDecay.toNat ≤ 65536 →
    (∃ v, (nextLevel exactArith norm s)[i]? = some v ∧
      v.toReal = (s.cfgAlpha.toNat : ℝ) / 65536 * (norm.getD i Val.zero).toReal +
        (1 - (s.cfgAlpha.toNat : ℝ) / 65536) * (s.level.getD i Val.zero).toReal ∧
      min (norm.getD i Val.zero).toReal (s.level.getD i Val.zero).toReal ≤ v.toReal ∧
      v.toReal ≤ max (norm.getD i Val.zero).toReal (s.level.getD i Val.zero).toReal) ∧
    (∃ v, (nextPeak exactArith level' s)[i]? = some v ∧
      v.toReal = max ((s.peak.getD i Val.zero).toReal * ((s.cfgDecay.toNat : ℝ) / 65536)) (level'.getD i Val.zero).toReal ∧
      (0 ≤ (s.peak.getD i Val.zero).toReal → (s.peak.getD i Val.zero).toReal ≤ 1 →
        0 ≤ (level'.getD i Val.zero).toReal → (level'.getD i Val.zero).toReal ≤ 1 →
        0 ≤ v.toReal ∧ v.toReal ≤ 1))

/-- A silent chunk: the levels fall by `1 - alpha`, the peaks decay and do not rise (R202). -/
def Obligations.SilentChunkDecays : Prop :=
  ∀ (n : BitVec 16) (ws : List Word) (s : State),
    s.Inv → n ≠ 0 → (∀ w ∈ ws, w = 0x00000000 ∨ w = 0x80000000) →
    ∃ ws' t, exec (.anlz n ws) s = .next (putResponse s.active ws' t) ∧
      ∀ i, i < s.params.na →
        (t.level.getD i Val.zero).toReal =
          (1 - (s.cfgAlpha.toNat : ℝ) / 65536) * (s.level.getD i Val.zero).toReal ∧
        (t.peak.getD i Val.zero).toReal =
          max ((s.peak.getD i Val.zero).toReal * ((s.cfgDecay.toNat : ℝ) / 65536)) (t.level.getD i Val.zero).toReal ∧
        (t.peak.getD i Val.zero).toReal ≤ (s.peak.getD i Val.zero).toReal

/-- After an `ANLZ` no peak is below its level, for every arithmetic with N2 (R203). -/
def Obligations.PeakIsNotBelowItsLevel : Prop :=
  ∀ (A : Arith) (n : BitVec 16) (ws : List Word) (s : State),
    A.N2 → (∀ w ∈ ws, w.toNat / 2 ^ 23 % 2 ^ 8 ≠ 255) → n ≠ 0 →
    ∃ ws' t, anlzWith A n ws s = .next (putResponse s.active ws' t) ∧
      ∀ i, i < s.params.na → (t.level.getD i Val.zero).toReal ≤ (t.peak.getD i Val.zero).toReal

/-- `GETFRAME` answers the levels and the peaks and changes nothing (R204). -/
def Obligations.GetframeAnswersTheFrame : Prop :=
  ∀ s : State, exec .getframe s = .next (putResponse s.active
    (responseHeader 0x09 0 0 (BitVec.ofNat 16 s.params.na) :: (s.level.map enc32 ++ s.peak.map enc32)) s)

/-! ### The port format and the arithmetic -/

/-- The real a sample word denotes (R70). -/
def Obligations.SampleWordsDenote : Prop :=
  ∀ w : Word,
    let e : Nat := w.toNat / 2 ^ 23 % 2 ^ 8
    let f : Nat := w.toNat % 2 ^ 23
    let sign : ℝ := if w.toNat / 2 ^ 31 = 1 then -1 else 1
    (e = 255 → dec32 w = none) ∧
    (e = 0 → ∃ q, dec32 w = some q ∧ (q : ℝ) = sign * f * (2 : ℝ) ^ (-149 : Int)) ∧
    (1 ≤ e → e ≤ 254 → ∃ q, dec32 w = some q ∧ (q : ℝ) = sign * (2 ^ 23 + f) * (2 : ℝ) ^ ((e : Int) - 150))

/-- The word delivered for an exact value is that value rounded to nearest, ties to even, onto the finite words (R72); the
values that `PROC`, `ANLZ`, `ANLZL`, `GETLAST` and `GETFRAME` deliver are such values; and every word delivered is
finite. -/
def Obligations.DeliveredWordsAreRounded : Prop :=
  (∀ v : Val, v.Defined → RoundsTo v.toReal (enc32 v)) ∧
  (∀ s : State, s.Inv →
    (∀ (h : PerBand (List Val)) (n : BitVec 16) (ws : List Word) (c t : Nat), s.bank = some h → s.built = true →
      (compositeAt exactArith h (channelsOf s.params.nch n.toNat ws) s c t).Defined) ∧
    (∀ (x : List (List Val)) (c t : Nat), s.last = some x → s.lastValid = true → (sampleAt x c t).Defined) ∧
    (∀ v, v ∈ s.level ∨ v ∈ s.peak → v.Defined)) ∧
  (∀ v : Val, nonFinite (enc32 v) = false)

/-- The reference instance of NUM has the named properties N1 to N6 (R16). -/
def Obligations.ReferenceInstanceHasTheNamedProperties : Prop :=
  exactArith.N1 ∧ exactArith.N2 ∧ exactArith.N3 ∧ exactArith.N4 ∧ exactArith.N5 ∧ exactArith.N6
end

