-- ==== Sys2Proof/Laws/Enclose.lean ====
section
/-! SUPPORT. The enclosures hold what they say: each operation of `Machine/Enclose.lean` is sound for the reals, and
so `enclose` holds the real a value stands for. -/

namespace Sys2Proof.Machine

open Real

/-! ### Integers and their quotients in the reals -/

/-- `2^p` times the real `r` lies between the ends of the enclosure. -/
def Enclosure.Holds (p : Nat) (x : Enclosure) (r : ℝ) : Prop := (x.lo : ℝ) ≤ r * 2 ^ p ∧ r * 2 ^ p ≤ (x.hi : ℝ)

theorem ediv_le_real (a : Int) {b : Int} (hb : 0 < b) : ((a / b : Int) : ℝ) ≤ (a : ℝ) / b := by
  rw [le_div_iff₀ (by exact_mod_cast hb)]
  exact_mod_cast Int.ediv_mul_le a hb.ne'

theorem real_le_ceilDiv (a : Int) {b : Int} (hb : 0 < b) : (a : ℝ) / b ≤ ((ceilDiv a b : Int) : ℝ) := by
  have h := ediv_le_real (-a) hb
  unfold ceilDiv
  push_cast at h ⊢
  rw [neg_div] at h
  linarith

theorem real_le_nat_div_add_one (a : Nat) {b : Nat} (hb : 0 < b) : (a : ℝ) / b ≤ ((a / b + 1 : Nat) : ℝ) := by
  rw [div_le_iff₀ (by exact_mod_cast hb)]
  exact_mod_cast (Nat.lt_div_mul_add hb).le.trans (by rw [Nat.add_mul, Nat.one_mul])

theorem mul_between {a b c d x y : ℝ} (hx : a ≤ x ∧ x ≤ b) (hy : c ≤ y ∧ y ≤ d) :
    min (min (a * c) (a * d)) (min (b * c) (b * d)) ≤ x * y ∧
      x * y ≤ max (max (a * c) (a * d)) (max (b * c) (b * d)) := by
  obtain ⟨hax, hxb⟩ := hx
  obtain ⟨hcy, hyd⟩ := hy
  have low : ∀ z, c ≤ z → z ≤ d → min (a * z) (b * z) ≤ x * z ∧ x * z ≤ max (a * z) (b * z) := by
    intro z _ _
    rcases le_total 0 z with hz | hz
    · exact ⟨min_le_of_left_le (mul_le_mul_of_nonneg_right hax hz), le_max_of_le_right (mul_le_mul_of_nonneg_right hxb hz)⟩
    · exact ⟨min_le_of_right_le (mul_le_mul_of_nonpos_right hxb hz), le_max_of_le_left (mul_le_mul_of_nonpos_right hax hz)⟩
  have high : min (x * c) (x * d) ≤ x * y ∧ x * y ≤ max (x * c) (x * d) := by
    rcases le_total 0 x with hz | hz
    · exact ⟨min_le_of_left_le (mul_le_mul_of_nonneg_left hcy hz), le_max_of_le_right (mul_le_mul_of_nonneg_left hyd hz)⟩
    · exact ⟨min_le_of_right_le (mul_le_mul_of_nonpos_left hyd hz), le_max_of_le_left (mul_le_mul_of_nonpos_left hcy hz)⟩
  have hc := low c le_rfl (hcy.trans hyd)
  have hd := low d (hcy.trans hyd) le_rfl
  constructor
  · refine le_trans (le_min ?_ ?_) high.1
    · exact le_trans (le_min (min_le_of_left_le (min_le_left _ _)) (min_le_of_right_le (min_le_left _ _))) hc.1
    · exact le_trans (le_min (min_le_of_left_le (min_le_right _ _)) (min_le_of_right_le (min_le_right _ _))) hd.1
  · refine le_trans high.2 (max_le ?_ ?_)
    · exact le_trans hc.2 (max_le (le_max_of_le_left (le_max_left _ _)) (le_max_of_le_right (le_max_left _ _)))
    · exact le_trans hd.2 (max_le (le_max_of_le_left (le_max_right _ _)) (le_max_of_le_right (le_max_right _ _)))

theorem holds_ofRat (p : Nat) (q : Rat) : (Enclosure.ofRat p q).Holds p q := by
  have hd : (0 : Int) < q.den := by exact_mod_cast q.den_pos
  have e : (q : ℝ) * 2 ^ p = ((q.num * 2 ^ p : Int) : ℝ) / ((q.den : Int) : ℝ) := by
    rw [Rat.cast_def]; push_cast; ring
  rw [Enclosure.Holds, e]
  exact ⟨ediv_le_real _ hd, real_le_ceilDiv _ hd⟩

theorem holds_add {p : Nat} {x y : Enclosure} {a b : ℝ} (hx : x.Holds p a) (hy : y.Holds p b) :
    (x.add y).Holds p (a + b) := by
  obtain ⟨h1, h2⟩ := hx; obtain ⟨h3, h4⟩ := hy
  constructor <;> simp only [Enclosure.add] <;> push_cast <;> linarith

theorem holds_sub {p : Nat} {x y : Enclosure} {a b : ℝ} (hx : x.Holds p a) (hy : y.Holds p b) :
    (x.sub y).Holds p (a - b) := by
  obtain ⟨h1, h2⟩ := hx; obtain ⟨h3, h4⟩ := hy
  constructor <;> simp only [Enclosure.sub] <;> push_cast <;> linarith

theorem holds_max {p : Nat} {x y : Enclosure} {a b : ℝ} (hx : x.Holds p a) (hy : y.Holds p b) :
    (x.max y).Holds p (Max.max a b) := by
  obtain ⟨h1, h2⟩ := hx; obtain ⟨h3, h4⟩ := hy
  have e : Max.max a b * 2 ^ p = Max.max (a * 2 ^ p) (b * 2 ^ p) := max_mul_of_nonneg _ _ (by positivity)
  rw [Enclosure.Holds, e]
  constructor <;> simp only [Enclosure.max] <;> push_cast
  · exact max_le_max h1 h3
  · exact max_le_max h2 h4

theorem holds_mul {p : Nat} {x y : Enclosure} {a b : ℝ} (hx : x.Holds p a) (hy : y.Holds p b) :
    (Enclosure.mul p x y).Holds p (a * b) := by
  have h := mul_between hx hy
  have hp : (0 : Int) < 2 ^ p := by positivity
  have e : a * b * 2 ^ p = (a * 2 ^ p) * (b * 2 ^ p) / ((2 ^ p : Int) : ℝ) := by
    push_cast; field_simp
  have hp' : (0 : ℝ) < ((2 ^ p : Int) : ℝ) := by exact_mod_cast hp
  rw [Enclosure.Holds, e]
  constructor
  · refine (ediv_le_real _ hp).trans ?_
    gcongr
    simpa [least4, or_assoc] using h.1
  · refine le_trans ?_ (real_le_ceilDiv _ hp)
    gcongr
    simpa [greatest4, or_assoc] using h.2

theorem holds_inv {p : Nat} {x y : Enclosure} {a : ℝ} (hx : x.Holds p a) (h : Enclosure.inv p x = some y) :
    y.Holds p a⁻¹ := by
  obtain ⟨h1, h2⟩ := hx
  have h2p : (0 : ℝ) < 2 ^ p := by positivity
  have key : a⁻¹ * 2 ^ p = 4 ^ p / (a * 2 ^ p) := by
    rcases eq_or_ne a 0 with rfl | ha
    · simp
    · field_simp
      rw [← pow_mul, mul_comm p 2, pow_mul]; norm_num
  unfold Enclosure.inv at h
  split_ifs at h with hlo hhi
  · cases h
    have hl : (0 : ℝ) < x.lo := by exact_mod_cast hlo
    have hpos : 0 < a * 2 ^ p := hl.trans_le h1
    have hhi' : (0 : Int) < x.hi := by
      have : (0 : ℝ) < x.hi := hpos.trans_le h2
      exact_mod_cast this
    rw [Enclosure.Holds, key]
    constructor
    · refine (ediv_le_real _ hhi').trans ?_
      push_cast
      gcongr
    · refine le_trans ?_ (real_le_ceilDiv _ hlo)
      push_cast
      gcongr
  · cases h
    have hh : (x.hi : ℝ) < 0 := by exact_mod_cast hhi
    have hneg : 0 < -(a * 2 ^ p) := by linarith
    have hlo' : (0 : Int) < -x.lo := by
      have : (x.lo : ℝ) < 0 := by linarith
      have : x.lo < 0 := by exact_mod_cast this
      omega
    have hhi' : (0 : Int) < -x.hi := by omega
    have e : (4 : ℝ) ^ p / (a * 2 ^ p) = -(4 ^ p / (-(a * 2 ^ p))) := by rw [div_neg, neg_neg]
    rw [Enclosure.Holds, key, e]
    constructor
    · push_cast
      rw [neg_le_neg_iff]
      refine le_trans ?_ (real_le_ceilDiv _ hhi')
      push_cast
      have : (0 : ℝ) < -x.hi := by linarith
      gcongr
    · push_cast
      rw [neg_le_neg_iff]
      refine (ediv_le_real _ hlo').trans ?_
      push_cast
      gcongr

/-! ### `π`, by Machin's formula -/

theorem cast_mkRat (a : Int) (b : Nat) : ((mkRat a b : Rat) : ℝ) = (a : ℝ) / b := by
  rw [Rat.mkRat_eq_div]; push_cast; rfl

theorem arctanSum_cast (n K : Nat) :
    ((arctanSum n K : Rat) : ℝ) = ∑ i ∈ Finset.range K, (-1) ^ i * (((n : ℝ)⁻¹) ^ (2 * i + 1) / ((2 * i + 1 : Nat) : ℝ)) := by
  induction K with
  | zero => simp [arctanSum]
  | succ K ih =>
    rw [Finset.sum_range_succ, ← ih, arctanSum, Rat.cast_add]
    congr 1
    rcases Nat.even_or_odd K with h | h
    · rw [if_pos (Nat.even_iff.mp h), h.neg_one_pow, cast_mkRat]
      simp only [inv_pow]; push_cast; field_simp
    · rw [if_neg (by rw [Nat.odd_iff.mp h]; decide), h.neg_one_pow, cast_mkRat]
      simp only [inv_pow]; push_cast; field_simp

theorem arctan_between (n : Nat) (hn : 2 ≤ n) (K : Nat) :
    ((arctanSum n (2 * K) : Rat) : ℝ) ≤ arctan ((n : ℝ)⁻¹) ∧ arctan ((n : ℝ)⁻¹) ≤ ((arctanSum n (2 * K + 1) : Rat) : ℝ) := by
  have hn' : (2 : ℝ) ≤ n := by exact_mod_cast hn
  have h0 : (0 : ℝ) < (n : ℝ)⁻¹ := by positivity
  have h1 : (n : ℝ)⁻¹ < 1 := inv_lt_one_of_one_lt₀ (by linarith)
  have hs := (hasSum_arctan (x := (n : ℝ)⁻¹) (by rw [Real.norm_of_nonneg h0.le]; exact h1)).tendsto_sum_nat
  have hf : Antitone fun i : ℕ => ((n : ℝ)⁻¹) ^ (2 * i + 1) / ((2 * i + 1 : Nat) : ℝ) := by
    intro i j hij
    have : ((2 * i + 1 : Nat) : ℝ) ≤ ((2 * j + 1 : Nat) : ℝ) := by exact_mod_cast (by omega)
    have hp : ((n : ℝ)⁻¹) ^ (2 * j + 1) ≤ ((n : ℝ)⁻¹) ^ (2 * i + 1) := pow_le_pow_of_le_one h0.le h1.le (by omega)
    have : (0 : ℝ) < ((2 * i + 1 : Nat) : ℝ) := by positivity
    dsimp only
    gcongr
  have e : (fun m => ∑ i ∈ Finset.range m, (-1 : ℝ) ^ i * (((n : ℝ)⁻¹) ^ (2 * i + 1) / ((2 * i + 1 : Nat) : ℝ))) =
      fun m => ∑ i ∈ Finset.range m, (-1 : ℝ) ^ i * ((n : ℝ)⁻¹) ^ (2 * i + 1) / ((2 * i + 1 : Nat) : ℝ) := by
    funext m; exact Finset.sum_congr rfl fun i _ => (mul_div_assoc _ _ _).symm
  rw [arctanSum_cast, arctanSum_cast]
  constructor
  · exact hf.alternating_series_le_tendsto (by rw [e]; exact hs) K
  · exact hf.tendsto_le_alternating_series (by rw [e]; exact hs) K

theorem piScaled_low : mkRat piScaled (2 ^ 360) ≤ 4 * (4 * arctanSum 5 90 - arctanSum 239 31) := by decide +kernel
theorem piScaled_high : 4 * (4 * arctanSum 5 91 - arctanSum 239 30) ≤ mkRat (piScaled + 1) (2 ^ 360) := by decide +kernel

theorem pi_between : (piScaled : ℝ) ≤ π * 2 ^ 360 ∧ π * 2 ^ 360 ≤ ((piScaled + 1 : Nat) : ℝ) := by
  have h5 := arctan_between 5 (by norm_num) 45
  have h239 := arctan_between 239 (by norm_num) 15
  have m := four_mul_arctan_inv_5_sub_arctan_inv_239
  have lo : ((mkRat piScaled (2 ^ 360) : Rat) : ℝ) ≤ ((4 * (4 * arctanSum 5 90 - arctanSum 239 31) : Rat) : ℝ) := by exact_mod_cast piScaled_low
  have hi : ((4 * (4 * arctanSum 5 91 - arctanSum 239 30) : Rat) : ℝ) ≤ ((mkRat (piScaled + 1) (2 ^ 360) : Rat) : ℝ) := by exact_mod_cast piScaled_high
  rw [cast_mkRat] at lo hi
  push_cast at lo hi h5 h239 ⊢
  constructor
  · rw [← div_le_iff₀ (by positivity)]; linarith [h5.1, h239.2]
  · rw [← le_div_iff₀ (by positivity)]; linarith [h5.2, h239.1]

/-! ### The cosine -/

/-- The nested cosine series, cut after `fuel` terms. -/
noncomputable def nestedCos (y : ℝ) : Nat → Nat → ℝ
  | 0, _ => 0
  | fuel + 1, k => 1 - y * nestedCos y fuel (k + 1) / (((2 * k + 1) * (2 * k + 2) : Nat) : ℝ)

theorem nestedCos_eq_sum (y : ℝ) (fuel k : Nat) :
    nestedCos y fuel k =
      ∑ i ∈ Finset.range fuel, (-1) ^ i * y ^ i * ((2 * k).factorial : ℝ) / ((2 * k + 2 * i).factorial : ℝ) := by
  induction fuel generalizing k with
  | zero => simp [nestedCos]
  | succ fuel ih =>
    have hf : ∀ m : Nat, ((m.factorial : Nat) : ℝ) ≠ 0 := fun m => by exact_mod_cast m.factorial_ne_zero
    rw [nestedCos, ih, Finset.sum_range_succ', Finset.mul_sum, Finset.sum_div, sub_eq_add_neg, add_comm,
      ← Finset.sum_neg_distrib]
    congr 1
    · refine Finset.sum_congr rfl fun i _ => ?_
      have e1 : 2 * (k + 1) + 2 * i = 2 * k + 2 * (i + 1) := by ring
      have e2 : (2 * (k + 1)).factorial = (2 * k + 2) * ((2 * k + 1) * (2 * k).factorial) := by
        rw [show 2 * (k + 1) = (2 * k + 1) + 1 by ring, Nat.factorial_succ, Nat.factorial_succ]
      rw [e1, e2]
      have := hf (2 * k + 2 * (i + 1))
      push_cast
      field_simp
      ring
    · have := hf (2 * k)
      simp
      field_simp

theorem cosNested_holds (w a2 fuel k : Nat) :
    (cosNested w a2 fuel k).Holds w (nestedCos ((a2 : ℝ) / 4 ^ w) fuel k) := by
  induction fuel generalizing k with
  | zero => simp [cosNested, nestedCos, Enclosure.Holds]
  | succ fuel ih =>
    obtain ⟨h1, h2⟩ := ih (k + 1)
    have hd : (0 : Int) < ((4 ^ w * ((2 * k + 1) * (2 * k + 2)) : Nat) : Int) := by positivity
    have e : nestedCos ((a2 : ℝ) / 4 ^ w) (fuel + 1) k * 2 ^ w =
        2 ^ w - (a2 * (nestedCos ((a2 : ℝ) / 4 ^ w) fuel (k + 1) * 2 ^ w)) /
          (((4 ^ w * ((2 * k + 1) * (2 * k + 2)) : Nat) : Int) : ℝ) := by
      rw [nestedCos]; push_cast; field_simp
    have hd' : (0 : ℝ) < (((4 ^ w * ((2 * k + 1) * (2 * k + 2)) : Nat) : Int) : ℝ) := by exact_mod_cast hd
    rw [Enclosure.Holds, e]
    simp only [cosNested]
    constructor
    · rw [Int.cast_sub]
      have := real_le_ceilDiv ((a2 : Int) * (cosNested w a2 fuel (k + 1)).hi) hd
      have h : (a2 * (nestedCos ((a2 : ℝ) / 4 ^ w) fuel (k + 1) * 2 ^ w)) /
          (((4 ^ w * ((2 * k + 1) * (2 * k + 2)) : Nat) : Int) : ℝ) ≤
          (((a2 : Int) * (cosNested w a2 fuel (k + 1)).hi : Int) : ℝ) / (((4 ^ w * ((2 * k + 1) * (2 * k + 2)) : Nat) : Int) : ℝ) := by
        gcongr; push_cast; gcongr
      rw [Int.cast_pow, Int.cast_ofNat]
      linarith
    · rw [Int.cast_sub]
      have := ediv_le_real ((a2 : Int) * (cosNested w a2 fuel (k + 1)).lo) hd
      have h : (((a2 : Int) * (cosNested w a2 fuel (k + 1)).lo : Int) : ℝ) / (((4 ^ w * ((2 * k + 1) * (2 * k + 2)) : Nat) : Int) : ℝ) ≤
          (a2 * (nestedCos ((a2 : ℝ) / 4 ^ w) fuel (k + 1) * 2 ^ w)) /
          (((4 ^ w * ((2 * k + 1) * (2 * k + 2)) : Nat) : Int) : ℝ) := by
        gcongr; push_cast; gcongr
      rw [Int.cast_pow, Int.cast_ofNat]
      linarith

theorem exp_sum_re (x : ℝ) (K : Nat) :
    (∑ m ∈ Finset.range (2 * K), ((x : ℂ) * Complex.I) ^ m / (m.factorial : ℂ)).re = nestedCos (x ^ 2) K 0 := by
  rw [nestedCos_eq_sum]
  induction K with
  | zero => simp
  | succ K ih =>
    rw [show 2 * (K + 1) = 2 * K + 1 + 1 by ring, Finset.sum_range_succ, Finset.sum_range_succ, Finset.sum_range_succ,
      Complex.add_re, Complex.add_re, ih]
    have e1 : (((x : ℂ) * Complex.I) ^ (2 * K) / ((2 * K).factorial : ℂ)) =
        (((-1) ^ K * (x ^ 2) ^ K / ((2 * K).factorial : ℝ) : ℝ) : ℂ) := by
      rw [mul_pow, pow_mul Complex.I, Complex.I_sq]; push_cast; ring
    have e2 : (((x : ℂ) * Complex.I) ^ (2 * K + 1) / ((2 * K + 1).factorial : ℂ)) =
        (((-1) ^ K * x ^ (2 * K + 1) / ((2 * K + 1).factorial : ℝ) : ℝ) : ℂ) * Complex.I := by
      rw [mul_pow, pow_succ Complex.I, pow_mul Complex.I, Complex.I_sq]; push_cast; ring
    rw [e1, e2, Complex.ofReal_re, Complex.re_ofReal_mul, Complex.I_re]
    simp

theorem cos_sub_nestedCos (x : ℝ) (hx : 0 ≤ x) (K : Nat) (hK : x ≤ (2 * K + 1 : ℝ) / 2) :
    |Real.cos x - nestedCos (x ^ 2) K 0| ≤ x ^ (2 * K) / ((2 * K).factorial : ℝ) * 2 := by
  have hn : ‖(x : ℂ) * Complex.I‖ = x := by simp [abs_of_nonneg hx]
  have h := Complex.exp_bound' (x := (x : ℂ) * Complex.I) (n := 2 * K) (by
    rw [hn, div_le_iff₀ (by positivity)]; push_cast; linarith)
  rw [hn] at h
  refine le_trans ?_ h
  refine le_trans (le_of_eq ?_) (Complex.abs_re_le_norm _)
  rw [Complex.sub_re, exp_sum_re, Complex.exp_ofReal_mul_I_re]

theorem holds_cosEnclosure (p : Nat) (r : Rat) (h0 : 0 ≤ r) (h1 : r ≤ 1 / 2) :
    (cosEnclosure p r).Holds p (Real.cos (2 * π * r)) := by
  obtain ⟨hpl, hph⟩ := pi_between
  set w := p + 8 with hw
  set K := p / 4 + 4 with hK
  set a : Nat := 2 * r.num.toNat * piScaled * 2 ^ w / (r.den * 2 ^ 360) with ha
  set b : Nat := 2 * r.num.toNat * (piScaled + 1) * 2 ^ w / (r.den * 2 ^ 360) + 1 with hb
  set cut : Nat := 2 ^ w * 2 * 10 ^ K / (2 * K).factorial + 1 with hcut
  have hden : (0 : ℝ) < r.den := by exact_mod_cast r.den_pos
  have hnum : (r : ℝ) = (r.num.toNat : ℝ) / r.den := by
    rw [Rat.cast_def]
    congr 1
    have : ((r.num.toNat : Int) : ℝ) = (r.num : ℝ) := by
      rw [Int.toNat_of_nonneg (Rat.num_nonneg.mpr h0)]
    rw [← this, Int.cast_natCast]
  have h2w : (0 : ℝ) < 2 ^ w := by positivity
  have h360 : (0 : ℝ) < 2 ^ 360 := by positivity
  -- the angle lies between a and b
  have hlow : (a : ℝ) ≤ 2 * π * r * 2 ^ w := by
    refine (Nat.cast_div_le).trans ?_
    rw [hnum]
    push_cast
    rw [div_le_iff₀ (by positivity)]
    have e : 2 * π * ((r.num.toNat : ℝ) / r.den) * 2 ^ w * (r.den * 2 ^ 360) =
        2 * (r.num.toNat : ℝ) * (π * 2 ^ 360) * 2 ^ w := by
      field_simp
    rw [e]
    gcongr
  have hhigh : 2 * π * r * 2 ^ w ≤ (b : ℝ) := by
    refine le_trans ?_ (real_le_nat_div_add_one _ (by have := r.den_pos; positivity))
    rw [hnum]
    push_cast
    rw [le_div_iff₀ (by positivity)]
    have e : 2 * π * ((r.num.toNat : ℝ) / r.den) * 2 ^ w * (r.den * 2 ^ 360) =
        2 * (r.num.toNat : ℝ) * (π * 2 ^ 360) * 2 ^ w := by
      field_simp
    rw [e]
    push_cast at hph
    gcongr
  set x : ℝ := a / 2 ^ w with hx
  have hx0 : 0 ≤ x := by positivity
  have hr' : (r : ℝ) ≤ 1 / 2 := by
    have : ((r : ℚ) : ℝ) ≤ ((1 / 2 : ℚ) : ℝ) := by exact_mod_cast h1
    push_cast at this; exact this
  have hxt : x ≤ 2 * π * r := by rw [hx, div_le_iff₀ h2w]; exact hlow
  have hxpi : x ≤ π := hxt.trans (by have := mul_le_mul_of_nonneg_left hr' (mul_pos two_pos pi_pos).le; linarith)
  have hx315 : x < 3.15 := hxpi.trans_lt pi_lt_d2
  have hx2 : x ^ 2 ≤ 10 := by nlinarith
  have hK4 : (4 : ℝ) ≤ K := by exact_mod_cast (by omega : 4 ≤ K)
  have hrem := cos_sub_nestedCos x hx0 K (by linarith)
  have hlip : |Real.cos (2 * π * r) - Real.cos x| ≤ 2 * π * r - x := by
    have := Real.abs_cos_sub_cos_le (2 * π * r) x
    rwa [abs_of_nonneg (by linarith : 0 ≤ 2 * π * r - x)] at this
  have hs := cosNested_holds w (a * a) K 0
  have hy : (((a * a : Nat) : ℝ)) / 4 ^ w = x ^ 2 := by
    rw [hx, div_pow, ← pow_mul, mul_comm w 2, pow_mul]; push_cast; norm_num [pow_two]
  rw [hy] at hs
  obtain ⟨hs1, hs2⟩ := hs
  have hcutr : x ^ (2 * K) / ((2 * K).factorial : ℝ) * 2 * 2 ^ w ≤ cut := by
    refine le_trans ?_ (real_le_nat_div_add_one _ (Nat.factorial_pos _))
    push_cast
    rw [pow_mul]
    have : (x ^ 2) ^ K ≤ 10 ^ K := pow_le_pow_left₀ (by positivity) hx2 K
    have hf : (0 : ℝ) < ((2 * K).factorial : ℝ) := by exact_mod_cast Nat.factorial_pos _
    rw [div_mul_eq_mul_div, div_mul_eq_mul_div, div_le_div_iff_of_pos_right hf]
    calc (x ^ 2) ^ K * 2 * 2 ^ w = 2 ^ w * 2 * (x ^ 2) ^ K := by ring
      _ ≤ 2 ^ w * 2 * 10 ^ K := by gcongr
  have hba : ((b - a + cut : Nat) : ℝ) = b - a + cut := by
    have : a ≤ b := by
      have : (a : ℝ) ≤ b := hlow.trans hhigh
      exact_mod_cast this
    push_cast [Nat.cast_sub this]; ring
  have hdist : |Real.cos (2 * π * r) * 2 ^ w - nestedCos (x ^ 2) K 0 * 2 ^ w| ≤ b - a + cut := by
    rw [← sub_mul, abs_mul, abs_of_pos h2w]
    have ht : |Real.cos (2 * π * r) - nestedCos (x ^ 2) K 0| ≤
        (2 * π * r - x) + x ^ (2 * K) / ((2 * K).factorial : ℝ) * 2 := by
      refine le_trans (abs_sub_le _ (Real.cos x) _) (add_le_add hlip hrem)
    have hxw : x * 2 ^ w = a := by rw [hx]; field_simp
    nlinarith
  obtain ⟨hd1, hd2⟩ := abs_le.mp hdist
  have e8 : Real.cos (2 * π * r) * 2 ^ p = Real.cos (2 * π * r) * 2 ^ w / ((2 ^ 8 : Int) : ℝ) := by
    rw [hw, pow_add]; push_cast; field_simp; ring
  have hp8 : (0 : Int) < 2 ^ 8 := by norm_num
  have hp8' : (0 : ℝ) < ((2 ^ 8 : Int) : ℝ) := by norm_num
  rw [Enclosure.Holds, e8]
  have hdef : cosEnclosure p r = ⟨((cosNested w (a * a) K 0).lo - ((b - a + cut : Nat) : Int)) / 2 ^ 8,
      ceilDiv ((cosNested w (a * a) K 0).hi + ((b - a + cut : Nat) : Int)) (2 ^ 8)⟩ := rfl
  rw [hdef]
  constructor
  · refine (ediv_le_real _ hp8).trans ?_
    gcongr
    rw [Int.cast_sub, Int.cast_natCast, hba]
    linarith
  · refine le_trans ?_ (real_le_ceilDiv _ hp8)
    gcongr
    rw [Int.cast_add, Int.cast_natCast, hba]
    linarith

theorem fracRat_cos (q : Rat) : Real.cos (2 * π * (fracRat q : Rat)) = Real.cos (2 * π * q) := by
  unfold fracRat
  push_cast
  rw [mul_sub, mul_comm (2 * π) (((q.num / q.den : Int)) : ℝ)]
  exact Real.cos_sub_int_mul_two_pi _ _

theorem fracRat_range (q : Rat) : 0 ≤ fracRat q ∧ fracRat q < 1 := by
  have : (q.num / q.den : Int) = ⌊q⌋ := Rat.floor_def'.symm
  unfold fracRat
  rw [this]
  exact ⟨Int.fract_nonneg q, Int.fract_lt_one q⟩

theorem foldTurn_cos (q : Rat) : Real.cos (2 * π * (foldTurn q : Rat)) = Real.cos (2 * π * q) := by
  unfold foldTurn
  dsimp only
  split_ifs
  · exact fracRat_cos q
  · rw [← fracRat_cos q]
    push_cast
    rw [mul_sub, mul_one, Real.cos_two_pi_sub]

theorem foldTurn_range (q : Rat) : 0 ≤ foldTurn q ∧ foldTurn q ≤ 1 / 2 := by
  obtain ⟨h0, h1⟩ := fracRat_range q
  have e : (mkRat 1 2) = 1 / 2 := by rw [Rat.mkRat_eq_div]; norm_num
  unfold foldTurn
  dsimp only
  rw [e]
  split_ifs with h
  · exact ⟨h0, h⟩
  · constructor <;> linarith

/-! ### Moduli and powers of ten -/

theorem sq_bounds {p : Nat} {x : Enclosure} {a : ℝ} (hx : x.Holds p a) :
    ((x.sq.lo : Int) : ℝ) ≤ (a * 2 ^ p) ^ 2 ∧ (a * 2 ^ p) ^ 2 ≤ ((x.sq.hi : Int) : ℝ) ∧ 0 ≤ x.sq.lo := by
  obtain ⟨h1, h2⟩ := hx
  generalize a * 2 ^ p = y at h1 h2
  unfold Enclosure.sq
  split_ifs with hlo hhi
  · have : (0 : ℝ) ≤ x.lo := by exact_mod_cast hlo
    refine ⟨?_, ?_, mul_self_nonneg _⟩ <;> push_cast <;> nlinarith
  · have : (x.hi : ℝ) ≤ 0 := by exact_mod_cast hhi
    refine ⟨?_, ?_, mul_self_nonneg _⟩ <;> push_cast <;> nlinarith
  · refine ⟨by simpa using sq_nonneg y, ?_, le_rfl⟩
    push_cast
    rcases le_total 0 y with h | h
    · exact le_max_of_le_right (by nlinarith)
    · exact le_max_of_le_left (by nlinarith)

theorem holds_abs {p : Nat} {x y z : Enclosure} {a b : ℝ} (hx : x.Holds p a) (hy : y.Holds p b)
    (h : Enclosure.abs x y = some z) : z.Holds p (Real.sqrt (a ^ 2 + b ^ 2)) := by
  obtain ⟨hx1, hx2, hx0⟩ := sq_bounds hx
  obtain ⟨hy1, hy2, hy0⟩ := sq_bounds hy
  have e : Real.sqrt (a ^ 2 + b ^ 2) * 2 ^ p = Real.sqrt ((a * 2 ^ p) ^ 2 + (b * 2 ^ p) ^ 2) := by
    have : (a * 2 ^ p) ^ 2 + (b * 2 ^ p) ^ 2 = (a ^ 2 + b ^ 2) * ((2 : ℝ) ^ p) ^ 2 := by ring
    rw [this, Real.sqrt_mul (by positivity), Real.sqrt_sq (by positivity)]
  unfold Enclosure.abs at h
  dsimp only at h
  split_ifs at h with hc
  cases h
  obtain ⟨hl, hh⟩ := hc
  rw [Enclosure.Holds, e]
  simp only [Enclosure.add] at hl hh
  have hl' : (((isqrt (x.sq.add y.sq).lo.toNat * isqrt (x.sq.add y.sq).lo.toNat : Nat) : Int) : ℝ) ≤ ((x.sq.lo + y.sq.lo : Int) : ℝ) := by
    exact_mod_cast hl
  have hh' : ((x.sq.hi + y.sq.hi : Int) : ℝ) ≤ ((((isqrt (x.sq.add y.sq).hi.toNat + 1) * (isqrt (x.sq.add y.sq).hi.toNat + 1) : Nat) : Int) : ℝ) := by
    exact_mod_cast hh
  push_cast at hl' hh'
  constructor
  · push_cast
    apply Real.le_sqrt_of_sq_le
    nlinarith
  · push_cast
    apply Real.sqrt_le_iff.mpr
    constructor
    · positivity
    · nlinarith

theorem dbRoot (p : Nat) (r lo hi : Nat) (hl : lo ^ 5120 ≤ 10 ^ r * 2 ^ (5120 * p)) (hh : 10 ^ r * 2 ^ (5120 * p) ≤ hi ^ 5120) :
    (lo : ℝ) ≤ (10 : ℝ) ^ ((r : ℝ) / 5120) * 2 ^ p ∧ (10 : ℝ) ^ ((r : ℝ) / 5120) * 2 ^ p ≤ hi := by
  have e : ((10 : ℝ) ^ ((r : ℝ) / 5120) * 2 ^ p) ^ 5120 = ((10 ^ r * 2 ^ (5120 * p) : Nat) : ℝ) := by
    rw [mul_pow, ← Real.rpow_mul_natCast (by norm_num), ← pow_mul, mul_comm p]
    rw [Nat.cast_ofNat, div_mul_cancel₀ _ (by norm_num), Real.rpow_natCast]
    push_cast; rfl
  constructor
  · refine le_of_pow_le_pow_left₀ (n := 5120) (by norm_num) (by positivity) ?_
    rw [e]; exact_mod_cast hl
  · refine le_of_pow_le_pow_left₀ (n := 5120) (by norm_num) (by positivity) ?_
    rw [e]; exact_mod_cast hh

theorem db_split (g : Int) : (10 : ℝ) ^ ((g : ℝ) / 5120) = (10 : ℝ) ^ (g / 5120 : Int) * (10 : ℝ) ^ (((g % 5120).toNat : ℝ) / 5120) := by
  have h0 : 0 ≤ g % 5120 := Int.emod_nonneg _ (by norm_num)
  have hn : (((g % 5120).toNat : Nat) : ℝ) = ((g % 5120 : Int) : ℝ) := by
    rw [← Int.cast_natCast, Int.toNat_of_nonneg h0]
  have hg : (g : ℝ) = 5120 * ((g / 5120 : Int) : ℝ) + ((g % 5120 : Int) : ℝ) := by
    exact_mod_cast (Int.mul_ediv_add_emod g 5120).symm
  rw [hn, ← Real.rpow_intCast, ← Real.rpow_add (by norm_num), hg]
  congr 1
  field_simp

theorem holds_db {p : Nat} {g : Int} {x : Enclosure} (h : dbEnclosure p g = some x) :
    x.Holds p ((10 : ℝ) ^ ((g : ℝ) / 5120)) := by
  unfold dbEnclosure at h
  dsimp only at h
  split_ifs at h with hc hk
  · cases h
    obtain ⟨hl, hh⟩ := dbRoot p _ _ _ hc.1 hc.2
    clear hc
    generalize powScaled (p + 40) (rootOfTen (p + 40)) (g % 5120).toNat / 2 ^ 40 = m at hl hh ⊢
    rw [db_split]
    have e : (10 : ℝ) ^ (g / 5120 : Int) = 10 ^ (g / 5120).toNat := by
      conv_lhs => rw [← Int.toNat_of_nonneg hk]
      rw [zpow_natCast]
    rw [Enclosure.Holds, e, mul_assoc, mul_comm ((10 : ℝ) ^ _)]
    rw [Int.cast_natCast, Int.cast_natCast, Nat.cast_mul, Nat.cast_mul, Nat.cast_pow, Nat.cast_ofNat]
    exact ⟨mul_le_mul_of_nonneg_right hl (by positivity), mul_le_mul_of_nonneg_right hh (by positivity)⟩
  · cases h
    obtain ⟨hl, hh⟩ := dbRoot p _ _ _ hc.1 hc.2
    clear hc
    generalize powScaled (p + 40) (rootOfTen (p + 40)) (g % 5120).toNat / 2 ^ 40 = m at hl hh ⊢
    rw [db_split]
    have e : (10 : ℝ) ^ (g / 5120 : Int) = (((10 ^ (-(g / 5120)).toNat : Nat)) : ℝ)⁻¹ := by
      have : g / 5120 = -(((-(g / 5120)).toNat : Nat) : Int) := by
        rw [Int.toNat_of_nonneg (by omega)]; ring
      conv_lhs => rw [this]
      rw [zpow_neg, zpow_natCast]; push_cast; rfl
    rw [Enclosure.Holds, e, mul_assoc, ← div_eq_inv_mul, Int.cast_natCast, Int.cast_natCast]
    constructor
    · exact (Nat.cast_div_le).trans (div_le_div_of_nonneg_right hl (Nat.cast_nonneg _))
    · exact le_trans (div_le_div_of_nonneg_right hh (Nat.cast_nonneg _)) (real_le_nat_div_add_one _ (by positivity))

/-! ### Roots, bit by bit -/

theorem rootFloorFrom_spec {n t : Nat} (b r : Nat) (h0 : r ^ n ≤ t) (h1 : t < (r + 2 ^ b) ^ n) :
    rootFloorFrom n t b r ^ n ≤ t ∧ t < (rootFloorFrom n t b r + 1) ^ n := by
  induction b generalizing r with
  | zero => exact ⟨h0, h1⟩
  | succ b ih =>
    unfold rootFloorFrom
    split_ifs with h
    · exact ih _ h (by rwa [add_assoc, ← two_mul, ← pow_succ'])
    · exact ih _ h0 (not_le.mp h)

/-- The integer root and the next integer hold the root between them. -/
theorem rootFloor_spec {n : Nat} (hn : 0 < n) (t : Nat) :
    rootFloor n t ^ n ≤ t ∧ t < (rootFloor n t + 1) ^ n := by
  refine rootFloorFrom_spec _ _ (by rw [zero_pow hn.ne']; exact Nat.zero_le _) ?_
  rw [zero_add, ← pow_mul]
  refine Nat.lt_log2_self.trans_le (Nat.pow_le_pow_right (by norm_num) ?_)
  have := Nat.lt_div_mul_add (a := t.log2) hn
  rw [Nat.add_mul, Nat.one_mul]
  omega

/-- The scaled root of a rational is within one unit below its root. -/
theorem scaledRoot_between {n : Nat} (hn : 0 < n) (p : Nat) {s : Rat} (hs : 0 ≤ s) :
    (scaledRoot p n s : ℝ) ≤ (s : ℝ) ^ ((n : ℝ)⁻¹) * 2 ^ p ∧
      (s : ℝ) ^ ((n : ℝ)⁻¹) * 2 ^ p ≤ ((scaledRoot p n s + 1 : Nat) : ℝ) := by
  have hs' : (0 : ℝ) ≤ s := by exact_mod_cast hs
  have e : ((s : ℝ) ^ ((n : ℝ)⁻¹) * 2 ^ p) ^ n = (s : ℝ) * 2 ^ (n * p) := by
    rw [mul_pow, Real.rpow_inv_natCast_pow hs' hn.ne', ← pow_mul, mul_comm p n]
  have q : (s : ℝ) * 2 ^ (n * p) = ((s.num.toNat * 2 ^ (n * p) : Nat) : ℝ) / s.den := by
    have h : ((s.num.toNat : Nat) : ℝ) = (s.num : ℝ) := by
      rw [← Int.cast_natCast, Int.toNat_of_nonneg (Rat.num_nonneg.mpr hs)]
    push_cast
    rw [h, Rat.cast_def]
    ring
  obtain ⟨hl, hh⟩ := rootFloor_spec hn (s.num.toNat * 2 ^ (n * p) / s.den)
  rw [show rootFloor n (s.num.toNat * 2 ^ (n * p) / s.den) = scaledRoot p n s from rfl] at hl hh
  have hl' : ((scaledRoot p n s : ℝ)) ^ n ≤ ((s.num.toNat * 2 ^ (n * p) / s.den : Nat) : ℝ) := by exact_mod_cast hl
  have hh' : ((s.num.toNat * 2 ^ (n * p) / s.den + 1 : Nat) : ℝ) ≤ ((scaledRoot p n s + 1 : Nat) : ℝ) ^ n := by
    exact_mod_cast hh
  constructor
  · refine le_of_pow_le_pow_left₀ hn.ne' (by positivity) ?_
    rw [e, q]
    exact hl'.trans Nat.cast_div_le
  · refine le_of_pow_le_pow_left₀ hn.ne' (by positivity) ?_
    rw [e, q]
    exact (real_le_nat_div_add_one _ s.den_pos).trans hh'

theorem rpow_div_eq (b : Rat) (hb : 0 < b) (i n : Nat) :
    (b : ℝ) ^ ((i : ℝ) / n) = ((b ^ i : Rat) : ℝ) ^ ((n : ℝ)⁻¹) := by
  have hb' : (0 : ℝ) ≤ b := by exact_mod_cast hb.le
  push_cast
  rw [div_eq_mul_inv, Real.rpow_mul hb', Real.rpow_natCast]

theorem holds_pow {p : Nat} {b : Rat} {i n : Nat} {x : Enclosure} (h : powEnclosure p b i n = some x) :
    x.Holds p ((b : ℝ) ^ ((i : ℝ) / n)) := by
  unfold powEnclosure at h
  split_ifs at h with hc
  cases h
  rw [rpow_div_eq b hc.1]
  exact scaledRoot_between hc.2 p (pow_nonneg hc.1.le i)

/-! ### The enclosure of a value -/

theorem holds_pi (p : Nat) : (piEnclosure p).Holds p π := by
  obtain ⟨hl, hh⟩ := pi_between
  have key : ∀ (m : ℝ) (k : ℝ), 0 < k → (m / k) * 2 ^ p = m * 2 ^ p / k := fun m k _ => by ring
  have h360 : (0 : ℝ) < ((2 ^ 360 : Nat) : ℝ) := by positivity
  have e : π * 2 ^ p = π * ((2 ^ 360 : Nat) : ℝ) * 2 ^ p / ((2 ^ 360 : Nat) : ℝ) := by
    field_simp
  have hp : π * ((2 ^ 360 : Nat) : ℝ) = π * 2 ^ 360 := by rw [Nat.cast_pow, Nat.cast_ofNat]
  rw [Enclosure.Holds, e, hp]
  simp only [piEnclosure, Int.cast_natCast]
  constructor
  · refine (Nat.cast_div_le).trans ?_
    refine div_le_div_of_nonneg_right ?_ h360.le
    rw [Nat.cast_mul, Nat.cast_pow, Nat.cast_ofNat]
    exact mul_le_mul_of_nonneg_right hl (by positivity)
  · refine le_trans ?_ (real_le_nat_div_add_one _ (by positivity))
    refine div_le_div_of_nonneg_right ?_ h360.le
    rw [Nat.cast_mul, Nat.cast_pow, Nat.cast_ofNat]
    exact mul_le_mul_of_nonneg_right hh (by positivity)

theorem enclose2_some {f : Enclosure → Enclosure → Option Enclosure} {a b : Option Enclosure} {z : Enclosure}
    (h : enclose2 f a b = some z) : ∃ x y, a = some x ∧ b = some y ∧ f x y = some z := by
  cases a <;> cases b <;> simp_all [enclose2]

/-- An enclosure holds the real the value stands for. -/
theorem enclose_holds {p : Nat} {v : Val} {x : Enclosure} (h : enclose p v = some x) : x.Holds p v.toReal := by
  induction v generalizing x with
  | rat q => cases h; exact holds_ofRat p q
  | pi => cases h; exact holds_pi p
  | cos q =>
    cases h
    rw [Val.toReal, ← foldTurn_cos]
    exact holds_cosEnclosure p _ (foldTurn_range q).1 (foldTurn_range q).2
  | db g => exact holds_db h
  | pow b i n => exact holds_pow h
  | add a b iha ihb =>
    obtain ⟨y, z, hy, hz, hf⟩ := enclose2_some h
    cases hf; exact holds_add (iha hy) (ihb hz)
  | sub a b iha ihb =>
    obtain ⟨y, z, hy, hz, hf⟩ := enclose2_some h
    cases hf; exact holds_sub (iha hy) (ihb hz)
  | mul a b iha ihb =>
    obtain ⟨y, z, hy, hz, hf⟩ := enclose2_some h
    cases hf; exact holds_mul (iha hy) (ihb hz)
  | div a b iha ihb =>
    obtain ⟨y, z, hy, hz, hf⟩ := enclose2_some h
    obtain ⟨i, hi, rfl⟩ := Option.map_eq_some_iff.mp hf
    rw [Val.toReal, div_eq_mul_inv]
    exact holds_mul (iha hy) (holds_inv (ihb hz) hi)
  | max a b iha ihb =>
    obtain ⟨y, z, hy, hz, hf⟩ := enclose2_some h
    cases hf; exact holds_max (iha hy) (ihb hz)
  | abs a b iha ihb =>
    obtain ⟨y, z, hy, hz, hf⟩ := enclose2_some h
    exact holds_abs (iha hy) (ihb hz) hf

/-- A value whose enclosure keeps clear of zero is not zero. -/
theorem ne_zero_of_apart {p : Nat} {x : Enclosure} {r : ℝ} (hx : x.Holds p r) (h : x.Apart) : r ≠ 0 := by
  rintro rfl
  obtain ⟨h1, h2⟩ := hx
  rw [zero_mul] at h1 h2
  rcases h with h | h
  · exact absurd h1 (not_le.mpr (by exact_mod_cast h))
  · exact absurd h2 (not_le.mpr (by exact_mod_cast h))

/-- Enclosures that do not overlap order the values. -/
theorem le_of_enclosures {p : Nat} {x y : Enclosure} {a b : ℝ} (hx : x.Holds p a) (hy : y.Holds p b)
    (h : x.hi ≤ y.lo) : a ≤ b := by
  have : (x.hi : ℝ) ≤ y.lo := by exact_mod_cast h
  exact le_of_mul_le_mul_right (hx.2.trans (this.trans hy.1)) (by positivity)

end Sys2Proof.Machine
end

