-- ==== Sys2Proof/Laws/Approx.lean ====
section
/-! SUPPORT. The bounds of `Machine/Approx.lean` hold the real a value stands for, and close in on it where the value is
defined. -/

namespace Sys2Proof.Machine

open Real Filter Topology

/-- The real `r` lies in the span. -/
def Span.Holds (x : Span) (r : ℝ) : Prop := (x.lo : ℝ) ≤ r ∧ r ≤ (x.hi : ℝ)

/-- Spans that are there from some index on, and whose ends both tend to `r`. -/
def ClosesIn (f : Nat → Option Span) (r : ℝ) : Prop :=
  ∃ g : Nat → Span, (∀ᶠ k in atTop, f k = some (g k)) ∧
    Tendsto (fun k => ((g k).lo : ℝ)) atTop (𝓝 r) ∧ Tendsto (fun k => ((g k).hi : ℝ)) atTop (𝓝 r)

/-! ### The operations hold and close in -/

theorem span_holds_add {x y : Span} {a b : ℝ} (hx : x.Holds a) (hy : y.Holds b) : (x.add y).Holds (a + b) := by
  obtain ⟨h1, h2⟩ := hx; obtain ⟨h3, h4⟩ := hy
  constructor <;> simp only [Span.add] <;> push_cast <;> linarith

theorem span_holds_sub {x y : Span} {a b : ℝ} (hx : x.Holds a) (hy : y.Holds b) : (x.sub y).Holds (a - b) := by
  obtain ⟨h1, h2⟩ := hx; obtain ⟨h3, h4⟩ := hy
  constructor <;> simp only [Span.sub] <;> push_cast <;> linarith

theorem span_holds_mul {x y : Span} {a b : ℝ} (hx : x.Holds a) (hy : y.Holds b) : (x.mul y).Holds (a * b) := by
  have h := mul_between hx hy
  constructor <;> simp only [Span.mul] <;> push_cast
  · exact h.1
  · exact h.2

theorem span_holds_max {x y : Span} {a b : ℝ} (hx : x.Holds a) (hy : y.Holds b) : (x.max y).Holds (max a b) := by
  constructor <;> simp only [Span.max] <;> push_cast
  · exact max_le_max hx.1 hy.1
  · exact max_le_max hx.2 hy.2

theorem span_holds_inv {x y : Span} {a : ℝ} (hx : x.Holds a) (h : x.inv = some y) : y.Holds a⁻¹ := by
  unfold Span.inv at h
  split_ifs at h with hc
  cases h
  obtain ⟨h1, h2⟩ := hx
  constructor <;> push_cast
  · rcases hc with hc | hc
    · have : (0 : ℝ) < x.lo := by exact_mod_cast hc
      exact inv_anti₀ (this.trans_le h1) h2
    · have : (x.hi : ℝ) < 0 := by exact_mod_cast hc
      exact (inv_le_inv_of_neg this (h2.trans_lt this)).mpr h2
  · rcases hc with hc | hc
    · have : (0 : ℝ) < x.lo := by exact_mod_cast hc
      exact inv_anti₀ this h1
    · have : (x.hi : ℝ) < 0 := by exact_mod_cast hc
      exact (inv_le_inv_of_neg (h2.trans_lt this) ((h1.trans h2).trans_lt this)).mpr h1

theorem span_holds_sq {x : Span} {a : ℝ} (hx : x.Holds a) : x.sq.Holds (a ^ 2) := by
  obtain ⟨h1, h2⟩ := hx
  constructor <;> simp only [Span.sq] <;> push_cast
  · rw [← sq_abs a]
    refine pow_le_pow_left₀ (le_max_left _ _) (max_le (abs_nonneg a) (max_le ?_ ?_)) 2
    · exact h1.trans (le_abs_self a)
    · exact (neg_le_neg h2).trans (neg_le_abs a)
  · rcases le_total 0 a with h | h
    · exact le_max_of_le_right (pow_le_pow_left₀ h h2 2)
    · refine le_max_of_le_left ?_
      nlinarith

theorem root_between {n : Nat} (hn : 0 < n) (k : Nat) {s : Rat} (hs : 0 ≤ s) :
    ((rootSpan k n s).lo : ℝ) ≤ (s : ℝ) ^ ((n : ℝ)⁻¹) ∧ (s : ℝ) ^ ((n : ℝ)⁻¹) ≤ ((rootSpan k n s).hi : ℝ) ∧
      ((rootSpan k n s).hi : ℝ) = ((rootSpan k n s).lo : ℝ) + (1 / 2) ^ k := by
  obtain ⟨h1, h2⟩ := scaledRoot_between hn k hs
  simp only [rootSpan, cast_mkRat]
  have h2k : (0 : ℝ) < ((2 ^ k : Nat) : ℝ) := by positivity
  have e : ((2 ^ k : Nat) : ℝ) = 2 ^ k := by push_cast; rfl
  refine ⟨?_, ?_, ?_⟩
  · rw [div_le_iff₀ h2k, e]; exact_mod_cast h1
  · rw [le_div_iff₀ h2k, e]; exact_mod_cast h2
  · rw [e, one_div, inv_pow]; push_cast; field_simp

theorem span_holds_abs {k : Nat} {x y : Span} {a b : ℝ} (hx : x.Holds a) (hy : y.Holds b) :
    (Span.abs k x y).Holds (√(a ^ 2 + b ^ 2)) := by
  have h1 := span_holds_sq hx
  have h2 := span_holds_sq hy
  have nonneg : ∀ z : Span, (0 : Rat) ≤ z.sq.lo ∧ (0 : Rat) ≤ z.sq.hi := fun z =>
    ⟨sq_nonneg _, le_max_of_le_left (sq_nonneg _)⟩
  have e : ∀ s : Rat, (s : ℝ) ^ (((2 : Nat) : ℝ)⁻¹) = √(s : ℝ) := fun s => by
    rw [Real.sqrt_eq_rpow]; norm_num
  constructor
  · show ((rootSpan k 2 (x.sq.lo + y.sq.lo)).lo : ℝ) ≤ _
    refine (root_between (by norm_num) k (add_nonneg (nonneg x).1 (nonneg y).1)).1.trans ?_
    rw [e]
    apply Real.sqrt_le_sqrt
    push_cast
    exact add_le_add h1.1 h2.1
  · show _ ≤ ((rootSpan k 2 (x.sq.hi + y.sq.hi)).hi : ℝ)
    refine le_trans ?_ (root_between (by norm_num) k (add_nonneg (nonneg x).2 (nonneg y).2)).2.1
    rw [e]
    apply Real.sqrt_le_sqrt
    push_cast
    exact add_le_add h1.2 h2.2

theorem tendsto_half_pow : Tendsto (fun k : Nat => (1 / 2 : ℝ) ^ k) atTop (𝓝 0) :=
  tendsto_pow_atTop_nhds_zero_of_lt_one (by norm_num) (by norm_num)

/-- The ends of the span of a root tend to the root, also of a radicand that varies. -/
theorem tendsto_root {n : Nat} (hn : 0 < n) {s : Nat → Rat} {r : ℝ} (hs : ∀ k, 0 ≤ s k)
    (h : Tendsto (fun k => (s k : ℝ) ^ ((n : ℝ)⁻¹)) atTop (𝓝 r)) :
    Tendsto (fun k => ((rootSpan k n (s k)).lo : ℝ)) atTop (𝓝 r) ∧
      Tendsto (fun k => ((rootSpan k n (s k)).hi : ℝ)) atTop (𝓝 r) := by
  have lo := h.sub tendsto_half_pow
  have hi := h.add tendsto_half_pow
  rw [sub_zero] at lo
  rw [add_zero] at hi
  constructor
  · refine tendsto_of_tendsto_of_tendsto_of_le_of_le lo h (fun k => ?_) fun k => (root_between hn k (hs k)).1
    obtain ⟨_, h2, h3⟩ := root_between hn k (hs k)
    dsimp only
    linarith
  · refine tendsto_of_tendsto_of_tendsto_of_le_of_le h hi (fun k => (root_between hn k (hs k)).2.1) fun k => ?_
    obtain ⟨h1, _, h3⟩ := root_between hn k (hs k)
    dsimp only
    linarith

/-! ### `π` and the cosine -/

theorem pi_holds (k : Nat) : (piSpan k).Holds π := by
  have h5 := arctan_between 5 (by norm_num) k
  have h239 := arctan_between 239 (by norm_num) k
  have m := four_mul_arctan_inv_5_sub_arctan_inv_239
  constructor <;> simp only [piSpan] <;> push_cast at *
  · exact max_le Real.pi_gt_three.le (by linarith [h5.1, h239.2])
  · linarith [h5.2, h239.1]

theorem tendsto_arctanSum (n : Nat) (hn : 2 ≤ n) :
    Tendsto (fun K => ((arctanSum n K : Rat) : ℝ)) atTop (𝓝 (arctan ((n : ℝ)⁻¹))) := by
  have hn' : (2 : ℝ) ≤ n := by exact_mod_cast hn
  have h0 : (0 : ℝ) < (n : ℝ)⁻¹ := by positivity
  have h1 : (n : ℝ)⁻¹ < 1 := inv_lt_one_of_one_lt₀ (by linarith)
  have hs := (hasSum_arctan (x := (n : ℝ)⁻¹) (by rw [Real.norm_of_nonneg h0.le]; exact h1)).tendsto_sum_nat
  refine hs.congr fun K => ?_
  rw [arctanSum_cast]
  exact Finset.sum_congr rfl fun i _ => mul_div_assoc _ _ _

theorem tendsto_piSpan :
    Tendsto (fun k => ((piSpan k).lo : ℝ)) atTop (𝓝 π) ∧ Tendsto (fun k => ((piSpan k).hi : ℝ)) atTop (𝓝 π) := by
  have t2 : Tendsto (fun k : Nat => 2 * k) atTop atTop := tendsto_atTop_mono (fun k => by dsimp only [id]; omega) tendsto_id
  have t2' : Tendsto (fun k : Nat => 2 * k + 1) atTop atTop := 
    tendsto_atTop_mono (fun k => by dsimp only [id]; omega) tendsto_id
  have a := tendsto_arctanSum 5 (by norm_num)
  have b := tendsto_arctanSum 239 (by norm_num)
  have m := four_mul_arctan_inv_5_sub_arctan_inv_239
  have e : 4 * (4 * arctan (((5 : Nat) : ℝ)⁻¹) - arctan (((239 : Nat) : ℝ)⁻¹)) = π := by push_cast; linarith
  constructor
  · have h := ((((a.comp t2).const_mul 4).sub (b.comp t2')).const_mul 4)
    rw [e] at h
    have h' := (tendsto_const_nhds (x := (3 : ℝ))).max h
    rw [max_eq_right Real.pi_gt_three.le] at h'
    refine h'.congr fun k => ?_
    simp [piSpan]
  · have h := ((((a.comp t2').const_mul 4).sub (b.comp t2)).const_mul 4)
    rw [e] at h
    refine h.congr fun k => ?_
    simp [piSpan]

theorem cosSeries_cast (y : Rat) (fuel j : Nat) : ((cosSeries y fuel j : Rat) : ℝ) = nestedCos y fuel j := by
  induction fuel generalizing j with
  | zero => simp [cosSeries, nestedCos]
  | succ fuel ih => simp only [cosSeries, nestedCos]; push_cast; rw [ih]

/-- The angle a span of a cosine is computed at. -/
theorem cosAngle_range (k : Nat) {r : Rat} (h0 : 0 ≤ r) (h1 : r ≤ 1 / 2) :
    0 ≤ ((2 * r * (piSpan k).lo : Rat) : ℝ) ∧ ((2 * r * (piSpan k).lo : Rat) : ℝ) ≤ π := by
  have hr0 : (0 : ℝ) ≤ r := by exact_mod_cast h0
  have hr1 : (r : ℝ) ≤ 1 / 2 := by
    have : ((r : Rat) : ℝ) ≤ ((1 / 2 : Rat) : ℝ) := by exact_mod_cast h1
    push_cast at this
    exact this
  have hlo : (3 : ℝ) ≤ (piSpan k).lo := by
    simp only [piSpan]; push_cast; exact le_max_left _ _
  have hpi := (pi_holds k).1
  push_cast
  constructor
  · positivity
  · nlinarith

theorem cos_holds (k : Nat) {r : Rat} (h0 : 0 ≤ r) (h1 : r ≤ 1 / 2) : (cosSpan k r).Holds (cos (2 * π * r)) := by
  obtain ⟨ha0, ha1⟩ := cosAngle_range k h0 h1
  obtain ⟨hl, hh⟩ := pi_holds k
  have hr0 : (0 : ℝ) ≤ r := by exact_mod_cast h0
  set a : ℝ := ((2 * r * (piSpan k).lo : Rat) : ℝ) with ha
  have ha' : a = 2 * r * (piSpan k).lo := by rw [ha]; push_cast; rfl
  have near : |cos (2 * π * r) - cos a| ≤ 2 * r * ((piSpan k).hi - (piSpan k).lo) := by
    refine (Real.abs_cos_sub_cos_le _ _).trans ?_
    rw [abs_of_nonneg (by rw [ha']; nlinarith), ha']
    nlinarith
  have series := cos_sub_nestedCos a ha0 (k + 8) (by
    have : (0 : ℝ) ≤ (k : ℝ) := by positivity
    push_cast
    linarith [Real.pi_le_four])
  have e : |cos (2 * π * r) - nestedCos (a ^ 2) (k + 8) 0| ≤
      2 * r * ((piSpan k).hi - (piSpan k).lo) + a ^ (2 * (k + 8)) / ((2 * (k + 8)).factorial : ℝ) * 2 :=
    (abs_sub_le _ (cos a) _).trans (add_le_add near series)
  rw [abs_sub_le_iff] at e
  have c : ((cosSeries ((2 * r * (piSpan k).lo) ^ 2) (k + 8) 0 : Rat) : ℝ) = nestedCos (a ^ 2) (k + 8) 0 := by
    rw [cosSeries_cast, ha]; push_cast; rfl
  constructor <;> simp only [cosSpan] <;> push_cast at * <;> rw [c, ← ha'] <;> linarith [e.1, e.2]

theorem tendsto_cosSpan {r : Rat} (h0 : 0 ≤ r) (h1 : r ≤ 1 / 2) :
    Tendsto (fun k => ((cosSpan k r).lo : ℝ)) atTop (𝓝 (cos (2 * π * r))) ∧
      Tendsto (fun k => ((cosSpan k r).hi : ℝ)) atTop (𝓝 (cos (2 * π * r))) := by
  have width : Tendsto (fun k : Nat => 2 * (2 * (r : ℝ) * ((piSpan k).hi - (piSpan k).lo) +
      π ^ (2 * (k + 8)) / ((2 * (k + 8)).factorial : ℝ) * 2)) atTop (𝓝 0) := by
    have t : Tendsto (fun k : Nat => 2 * (k + 8)) atTop atTop :=
      tendsto_atTop_mono (fun k => by dsimp only [id]; omega) tendsto_id
    have f := ((FloorSemiring.tendsto_pow_div_factorial_atTop π).comp t).mul_const 2
    have g := (tendsto_piSpan.2.sub tendsto_piSpan.1).const_mul (2 * (r : ℝ))
    have h := (g.add f).const_mul 2
    have z : 2 * (2 * (r : ℝ) * (π - π) + 0 * 2) = 0 := by ring
    rw [z] at h
    exact h
  have gap : ∀ k, ((cosSpan k r).hi : ℝ) - (cosSpan k r).lo ≤ 2 * (2 * (r : ℝ) * ((piSpan k).hi - (piSpan k).lo) +
      π ^ (2 * (k + 8)) / ((2 * (k + 8)).factorial : ℝ) * 2) := by
    intro k
    obtain ⟨ha0, ha1⟩ := cosAngle_range k h0 h1
    have : ((2 * r * (piSpan k).lo : Rat) : ℝ) ^ (2 * (k + 8)) ≤ π ^ (2 * (k + 8)) := pow_le_pow_left₀ ha0 ha1 _
    have hf : (0 : ℝ) < ((2 * (k + 8)).factorial : ℝ) := by exact_mod_cast Nat.factorial_pos _
    have := div_le_div_of_nonneg_right this hf.le
    simp only [cosSpan]
    push_cast at *
    linarith
  have c := tendsto_const_nhds (x := cos (2 * π * r)) (f := (atTop : Filter Nat))
  have lo := c.sub width
  have hi := c.add width
  rw [sub_zero] at lo
  rw [add_zero] at hi
  constructor
  · refine tendsto_of_tendsto_of_tendsto_of_le_of_le lo c (fun k => ?_) fun k => (cos_holds k h0 h1).1
    have h2 := (cos_holds k h0 h1).2
    have h3 := gap k
    dsimp only
    linarith
  · refine tendsto_of_tendsto_of_tendsto_of_le_of_le c hi (fun k => (cos_holds k h0 h1).2) fun k => ?_
    have h2 := (cos_holds k h0 h1).1
    have h3 := gap k
    dsimp only
    linarith

/-! ### The powers -/

theorem tenPower_cast (g : Int) : ((tenPower g : Rat) : ℝ) = (10 : ℝ) ^ g := by
  unfold tenPower
  split_ifs with h
  · have : g = -(((-g).toNat : Nat) : Int) := by rw [Int.toNat_of_nonneg (by omega)]; ring
    conv_rhs => rw [this]
    rw [cast_mkRat, zpow_neg, zpow_natCast]
    push_cast
    rw [one_div]
  · have : g = ((g.toNat : Nat) : Int) := by rw [Int.toNat_of_nonneg (by omega)]
    conv_rhs => rw [this]
    rw [zpow_natCast]
    push_cast
    rfl

theorem tenPower_pos (g : Int) : 0 < tenPower g := by
  have : (0 : ℝ) < ((tenPower g : Rat) : ℝ) := by rw [tenPower_cast]; positivity
  exact_mod_cast this

theorem db_eq_root (g : Int) : (10 : ℝ) ^ ((g : ℝ) / 5120) = ((tenPower g : Rat) : ℝ) ^ (((5120 : Nat) : ℝ)⁻¹) := by
  rw [tenPower_cast, div_eq_mul_inv, Real.rpow_mul (by norm_num), Real.rpow_intCast]
  push_cast
  rfl

/-! ### The bounds of a value -/

theorem span2_some {f : Span → Span → Option Span} {a b : Option Span} {z : Span} (h : span2 f a b = some z) :
    ∃ x y, a = some x ∧ b = some y ∧ f x y = some z := by
  cases a <;> cases b <;> simp_all [span2]

/-- The bounds of a value hold the real it stands for. -/
theorem approx_holds {k : Nat} {v : Val} {x : Span} (h : approx k v = some x) : x.Holds v.toReal := by
  induction v generalizing x with
  | rat q => cases h; exact ⟨le_rfl, le_rfl⟩
  | pi => cases h; exact pi_holds k
  | cos q =>
    cases h
    rw [Val.toReal, ← foldTurn_cos]
    exact cos_holds k (foldTurn_range q).1 (foldTurn_range q).2
  | db g =>
    cases h
    rw [Val.toReal, db_eq_root]
    have := root_between (n := 5120) (by norm_num) k (tenPower_pos g).le
    exact ⟨this.1, this.2.1⟩
  | pow b i n =>
    simp only [approx] at h
    split_ifs at h with hc
    cases h
    rw [Val.toReal, rpow_div_eq b hc.1]
    have := root_between hc.2 k (pow_nonneg hc.1.le i)
    exact ⟨this.1, this.2.1⟩
  | add a b iha ihb =>
    obtain ⟨y, z, hy, hz, hf⟩ := span2_some h
    cases hf; exact span_holds_add (iha hy) (ihb hz)
  | sub a b iha ihb =>
    obtain ⟨y, z, hy, hz, hf⟩ := span2_some h
    cases hf; exact span_holds_sub (iha hy) (ihb hz)
  | mul a b iha ihb =>
    obtain ⟨y, z, hy, hz, hf⟩ := span2_some h
    cases hf; exact span_holds_mul (iha hy) (ihb hz)
  | div a b iha ihb =>
    obtain ⟨y, z, hy, hz, hf⟩ := span2_some h
    obtain ⟨i, hi, rfl⟩ := Option.map_eq_some_iff.mp hf
    rw [Val.toReal, div_eq_mul_inv]
    exact span_holds_mul (iha hy) (span_holds_inv (ihb hz) hi)
  | max a b iha ihb =>
    obtain ⟨y, z, hy, hz, hf⟩ := span2_some h
    cases hf; exact span_holds_max (iha hy) (ihb hz)
  | abs a b iha ihb =>
    obtain ⟨y, z, hy, hz, hf⟩ := span2_some h
    cases hf; exact span_holds_abs (iha hy) (ihb hz)

/-- An operation on spans closes in where it is there from some index on and its ends are continuous. -/
theorem closesIn_span2 {f g : Nat → Option Span} {a b r : ℝ} {op : Nat → Span → Span → Option Span}
    {opS : Nat → Span → Span → Span} (hf : ClosesIn f a) (hg : ClosesIn g b)
    (hop : ∀ x y : Nat → Span, Tendsto (fun k => ((x k).lo : ℝ)) atTop (𝓝 a) →
      Tendsto (fun k => ((x k).hi : ℝ)) atTop (𝓝 a) → Tendsto (fun k => ((y k).lo : ℝ)) atTop (𝓝 b) →
      Tendsto (fun k => ((y k).hi : ℝ)) atTop (𝓝 b) →
      (∀ᶠ k in atTop, op k (x k) (y k) = some (opS k (x k) (y k))) ∧
        Tendsto (fun k => ((opS k (x k) (y k)).lo : ℝ)) atTop (𝓝 r) ∧
        Tendsto (fun k => ((opS k (x k) (y k)).hi : ℝ)) atTop (𝓝 r)) :
    ClosesIn (fun k => span2 (op k) (f k) (g k)) r := by
  obtain ⟨x, hx, hxl, hxh⟩ := hf
  obtain ⟨y, hy, hyl, hyh⟩ := hg
  obtain ⟨h1, h2, h3⟩ := hop x y hxl hxh hyl hyh
  refine ⟨fun k => opS k (x k) (y k), ?_, h2, h3⟩
  filter_upwards [hx, hy, h1] with k a b c
  rw [a, b, span2, c]

theorem tendsto_span_mul {x y : Nat → Span} {a b : ℝ} (hxl : Tendsto (fun k => ((x k).lo : ℝ)) atTop (𝓝 a))
    (hxh : Tendsto (fun k => ((x k).hi : ℝ)) atTop (𝓝 a)) (hyl : Tendsto (fun k => ((y k).lo : ℝ)) atTop (𝓝 b))
    (hyh : Tendsto (fun k => ((y k).hi : ℝ)) atTop (𝓝 b)) :
    Tendsto (fun k => (((x k).mul (y k)).lo : ℝ)) atTop (𝓝 (a * b)) ∧
      Tendsto (fun k => (((x k).mul (y k)).hi : ℝ)) atTop (𝓝 (a * b)) := by
  constructor
  · have := ((hxl.mul hyl).min (hxl.mul hyh)).min ((hxh.mul hyl).min (hxh.mul hyh))
    simp only [min_self] at this
    refine this.congr fun k => ?_
    simp [Span.mul]
  · have := ((hxl.mul hyl).max (hxl.mul hyh)).max ((hxh.mul hyl).max (hxh.mul hyh))
    simp only [max_self] at this
    refine this.congr fun k => ?_
    simp [Span.mul]

theorem tendsto_span_sq {x : Nat → Span} {a : ℝ} (hxl : Tendsto (fun k => ((x k).lo : ℝ)) atTop (𝓝 a))
    (hxh : Tendsto (fun k => ((x k).hi : ℝ)) atTop (𝓝 a)) :
    Tendsto (fun k => (((x k).sq).lo : ℝ)) atTop (𝓝 (a ^ 2)) ∧
      Tendsto (fun k => (((x k).sq).hi : ℝ)) atTop (𝓝 (a ^ 2)) := by
  constructor
  · have := ((tendsto_const_nhds (x := (0 : ℝ))).max (hxl.max hxh.neg)).pow 2
    have e : max 0 (max a (-a)) ^ 2 = a ^ 2 := by
      rw [show max a (-a) = |a| from rfl, max_eq_right (abs_nonneg a), sq_abs]
    rw [e] at this
    refine this.congr fun k => ?_
    simp [Span.sq]
  · have := (hxl.pow 2).max (hxh.pow 2)
    rw [max_self] at this
    refine this.congr fun k => ?_
    simp [Span.sq]

/-- The bounds of a defined value close in on the real it stands for. -/
theorem approx_closesIn {v : Val} (h : v.Defined) : ClosesIn (fun k => approx k v) v.toReal := by
  induction v with
  | rat q =>
    exact ⟨fun _ => ⟨q, q⟩, Eventually.of_forall fun _ => rfl, tendsto_const_nhds, tendsto_const_nhds⟩
  | pi => exact ⟨piSpan, Eventually.of_forall fun _ => rfl, tendsto_piSpan.1, tendsto_piSpan.2⟩
  | cos q =>
    have := tendsto_cosSpan (foldTurn_range q).1 (foldTurn_range q).2
    rw [foldTurn_cos] at this
    exact ⟨fun k => cosSpan k (foldTurn q), Eventually.of_forall fun _ => rfl, this.1, this.2⟩
  | db g =>
    have := tendsto_root (n := 5120) (by norm_num) (s := fun _ => tenPower g) (fun _ => (tenPower_pos g).le)
      (tendsto_const_nhds)
    rw [← db_eq_root] at this
    exact ⟨fun k => rootSpan k 5120 (tenPower g), Eventually.of_forall fun _ => rfl, this.1, this.2⟩
  | pow b i n =>
    have := tendsto_root h.2 (s := fun _ => b ^ i) (fun _ => pow_nonneg h.1.le i) (tendsto_const_nhds)
    rw [← rpow_div_eq b h.1] at this
    exact ⟨fun k => rootSpan k n (b ^ i), Eventually.of_forall fun _ => by simp only [approx]; rw [if_pos (show 0 < b ∧ 0 < n from h)],
      this.1, this.2⟩
  | add a b iha ihb =>
    refine closesIn_span2 (op := fun _ x y => some (x.add y)) (opS := fun _ => Span.add) (iha h.1) (ihb h.2)
      fun x y h1 h2 h3 h4 => ⟨Eventually.of_forall fun _ => rfl, ?_, ?_⟩
    · refine (h1.add h3).congr fun k => ?_
      simp [Span.add]
    · refine (h2.add h4).congr fun k => ?_
      simp [Span.add]
  | sub a b iha ihb =>
    refine closesIn_span2 (op := fun _ x y => some (x.sub y)) (opS := fun _ => Span.sub) (iha h.1) (ihb h.2)
      fun x y h1 h2 h3 h4 => ⟨Eventually.of_forall fun _ => rfl, ?_, ?_⟩
    · refine (h1.sub h4).congr fun k => ?_
      simp [Span.sub]
    · refine (h2.sub h3).congr fun k => ?_
      simp [Span.sub]
  | mul a b iha ihb =>
    exact closesIn_span2 (op := fun _ x y => some (x.mul y)) (opS := fun _ => Span.mul) (iha h.1) (ihb h.2)
      fun x y h1 h2 h3 h4 => ⟨Eventually.of_forall fun _ => rfl, tendsto_span_mul h1 h2 h3 h4⟩
  | div a b iha ihb =>
    refine closesIn_span2 (op := fun _ x y => y.inv.map x.mul) (opS := fun _ x y => x.mul ⟨y.hi⁻¹, y.lo⁻¹⟩)
      (iha h.1) (ihb h.2.1) fun x y h1 h2 h3 h4 => ⟨?_, ?_⟩
    · rcases lt_or_gt_of_ne h.2.2 with hb | hb
      · filter_upwards [h4.eventually_lt_const hb] with k hk
        have : (y k).hi < 0 := by exact_mod_cast hk
        simp [Span.inv, this]
      · filter_upwards [h3.eventually_const_lt hb] with k hk
        have : 0 < (y k).lo := by exact_mod_cast hk
        simp [Span.inv, this]
    · rw [Val.toReal, div_eq_mul_inv]
      refine tendsto_span_mul (y := fun k => ⟨(y k).hi⁻¹, (y k).lo⁻¹⟩) h1 h2 ?_ ?_
      · refine (h4.inv₀ h.2.2).congr fun k => ?_
        simp
      · refine (h3.inv₀ h.2.2).congr fun k => ?_
        simp
  | max a b iha ihb =>
    refine closesIn_span2 (op := fun _ x y => some (x.max y)) (opS := fun _ => Span.max) (iha h.1) (ihb h.2)
      fun x y h1 h2 h3 h4 => ⟨Eventually.of_forall fun _ => rfl, ?_, ?_⟩
    · refine (h1.max h3).congr fun k => ?_
      simp [Span.max]
    · refine (h2.max h4).congr fun k => ?_
      simp [Span.max]
  | abs a b iha ihb =>
    have e : ∀ s : Rat, (s : ℝ) ^ (((2 : Nat) : ℝ)⁻¹) = √(s : ℝ) := fun s => by
      rw [Real.sqrt_eq_rpow]; norm_num
    refine closesIn_span2 (op := fun k x y => some (Span.abs k x y)) (opS := Span.abs) (iha h.1) (ihb h.2)
      fun x y h1 h2 h3 h4 => ⟨Eventually.of_forall fun _ => rfl, ?_, ?_⟩
    · show Tendsto (fun k => ((rootSpan k 2 ((x k).sq.lo + (y k).sq.lo)).lo : ℝ)) atTop _
      refine (tendsto_root (by norm_num) (s := fun k => (x k).sq.lo + (y k).sq.lo)
        (fun k => add_nonneg (sq_nonneg _) (sq_nonneg _)) ?_).1
      refine (((tendsto_span_sq h1 h2).1.add (tendsto_span_sq h3 h4).1).sqrt).congr fun k => ?_
      rw [e]; push_cast; rfl
    · show Tendsto (fun k => ((rootSpan k 2 ((x k).sq.hi + (y k).sq.hi)).hi : ℝ)) atTop _
      refine (tendsto_root (by norm_num) (s := fun k => (x k).sq.hi + (y k).sq.hi)
        (fun k => add_nonneg (le_max_of_le_left (sq_nonneg _)) (le_max_of_le_left (sq_nonneg _))) ?_).2
      refine (((tendsto_span_sq h1 h2).2.add (tendsto_span_sq h3 h4).2).sqrt).congr fun k => ?_
      rw [e]; push_cast; rfl

end Sys2Proof.Machine
end

