-- ==== Sys2Proof/Laws/ZeroTest.lean ====
section
/-! SUPPORT. The zero test is right where it says zero. -/

namespace Sys2Proof.Machine

open Complex

/-- The root of unity at an angle in turns. -/
noncomputable def rootAt (r : Rat) : ℂ := exp (2 * Real.pi * I * (r : ℝ))

/-- The complex number a combination of roots of unity stands for. -/
noncomputable def RootForm.toComplex (f : RootForm) : ℂ := (f.map fun x => ((x.2 : ℝ) : ℂ) * rootAt x.1).sum

theorem rootAt_add (r s : Rat) : rootAt (r + s) = rootAt r * rootAt s := by
  unfold rootAt
  rw [← Complex.exp_add]
  congr 1
  push_cast
  ring

theorem rootAt_zero : rootAt 0 = 1 := by simp [rootAt]

theorem rootAt_fracRat (r : Rat) : rootAt (fracRat r) = rootAt r := by
  unfold rootAt fracRat
  rw [Complex.exp_eq_exp_iff_exists_int]
  refine ⟨-(r.num / r.den), ?_⟩
  push_cast
  ring

theorem rootAt_add_neg (r : Rat) : rootAt r + rootAt (-r) = 2 * (Real.cos (2 * Real.pi * r) : ℝ) := by
  unfold rootAt
  rw [Complex.ofReal_cos, Complex.two_cos]
  push_cast
  congr 2 <;> ring

theorem rootAt_ne_one {p : Nat} (hp : 2 ≤ p) : rootAt (mkRat 1 p) ≠ 1 := by
  unfold rootAt
  rw [Ne, Complex.exp_eq_one_iff]
  rintro ⟨n, hn⟩
  have hp0 : (p : ℝ) ≠ 0 := by positivity
  have h2 : (2 * (Real.pi : ℂ) * I) ≠ 0 := by simp [Real.pi_ne_zero]
  have h3 : (((mkRat 1 p : Rat) : ℝ) : ℂ) = (n : ℂ) := by
    refine mul_left_cancel₀ h2 ?_
    rw [hn]
    ring
  have h4 : ((mkRat 1 p : Rat) : ℝ) = (n : ℝ) := by exact_mod_cast h3
  rw [cast_mkRat] at h4
  have h5 : (1 : ℝ) = n * p := by
    field_simp at h4
    push_cast at h4
    linarith
  have h6 : (1 : Int) = n * p := by exact_mod_cast h5
  have := Int.eq_one_or_neg_one_of_mul_eq_one' h6.symm
  omega

@[simp] theorem RootForm.toComplex_nil : RootForm.toComplex [] = 0 := rfl

@[simp] theorem RootForm.toComplex_cons (x : Rat × Rat) (f : RootForm) :
    RootForm.toComplex (x :: f) = ((x.2 : ℝ) : ℂ) * rootAt x.1 + f.toComplex := rfl

@[simp] theorem RootForm.toComplex_append (f g : RootForm) :
    RootForm.toComplex (f ++ g) = f.toComplex + g.toComplex := by
  simp [RootForm.toComplex]

@[simp] theorem RootForm.toComplex_neg (f : RootForm) : f.neg.toComplex = -f.toComplex := by
  induction f with
  | nil => simp [RootForm.neg]
  | cons x f ih =>
    simp only [RootForm.neg, List.map_cons, RootForm.toComplex_cons] at *
    rw [ih]
    push_cast
    ring

theorem RootForm.toComplex_shift (f : RootForm) (r q : Rat) :
    RootForm.toComplex (f.map fun y => (r + y.1, q * y.2)) = ((q : ℝ) : ℂ) * rootAt r * f.toComplex := by
  induction f with
  | nil => simp
  | cons y f ih =>
    simp only [List.map_cons, RootForm.toComplex_cons] at *
    rw [ih, rootAt_add]
    push_cast
    ring

theorem RootForm.toComplex_mul (f g : RootForm) : (f.mul g).toComplex = f.toComplex * g.toComplex := by
  unfold RootForm.mul
  induction f with
  | nil => simp
  | cons x f ih =>
    rw [List.flatMap_cons, RootForm.toComplex_append, ih, RootForm.toComplex_shift, RootForm.toComplex_cons]
    ring

/-- A combination read from a value stands for the value. -/
theorem rootForm_toComplex {v : Val} {f : RootForm} (h : rootForm v = some f) : f.toComplex = (v.toReal : ℂ) := by
  induction v generalizing f with
  | rat q => simp only [rootForm, Option.some.injEq] at h; subst h; simp [rootAt_zero, Val.toReal]
  | cos q =>
    simp only [rootForm, Option.some.injEq] at h
    subst h
    have := rootAt_add_neg q
    simp only [RootForm.toComplex_cons, RootForm.toComplex_nil, cast_mkRat, Val.toReal]
    push_cast at *
    linear_combination this / 2
  | add a b iha ihb =>
    simp only [rootForm] at h
    split at h
    · next x y hx hy => cases h; simp [iha hx, ihb hy, Val.toReal]
    · cases h
  | sub a b iha ihb =>
    simp only [rootForm] at h
    split at h
    · next x y hx hy => cases h; simp [iha hx, ihb hy, Val.toReal, sub_eq_add_neg]
    · cases h
  | mul a b iha ihb =>
    simp only [rootForm] at h
    split at h
    · next x y hx hy => cases h; simp [iha hx, ihb hy, Val.toReal, RootForm.toComplex_mul]
    · cases h
  | _ => simp [rootForm] at h

theorem insertTerm_toComplex (x : Rat × Rat) (f : RootForm) :
    (insertTerm x f).toComplex = ((x.2 : ℝ) : ℂ) * rootAt x.1 + f.toComplex := by
  induction f with
  | nil => simp [insertTerm]
  | cons y f ih =>
    unfold insertTerm
    split_ifs with h
    · rw [RootForm.toComplex_cons, RootForm.toComplex_cons, h]
      push_cast
      ring
    · rw [RootForm.toComplex_cons, RootForm.toComplex_cons, ih]
      ring

theorem collect_toComplex (f : RootForm) : f.collect.toComplex = f.toComplex := by
  have key : ∀ (l g : RootForm),
      (l.foldl (fun g x => insertTerm (fracRat x.1, x.2) g) g).toComplex = g.toComplex + l.toComplex := by
    intro l
    induction l with
    | nil => simp
    | cons x l ih =>
      intro g
      rw [List.foldl_cons, ih, insertTerm_toComplex, rootAt_fracRat, RootForm.toComplex_cons]
      ring
  rw [RootForm.collect, key, RootForm.toComplex_nil, zero_add]

theorem timesFactor_toComplex (f : RootForm) (p : Nat) :
    (f.timesFactor p).toComplex = f.toComplex * (rootAt (mkRat 1 p) - 1) := by
  have : (f.map fun x => (x.1 + mkRat 1 p, x.2)) = f.map fun y => (mkRat 1 p + y.1, 1 * y.2) := by
    simp [add_comm]
  rw [RootForm.timesFactor, RootForm.toComplex_append, this, RootForm.toComplex_shift, RootForm.toComplex_neg]
  push_cast
  ring

theorem toComplex_eq_zero_of_factors {ps : List Nat} (hp : ∀ p ∈ ps, 2 ≤ p) {f : RootForm}
    (h : (ps.foldl RootForm.timesFactor f).toComplex = 0) : f.toComplex = 0 := by
  induction ps generalizing f with
  | nil => exact h
  | cons p ps ih =>
    have := ih (fun q hq => hp q (List.mem_cons_of_mem _ hq)) h
    rw [timesFactor_toComplex, mul_eq_zero, sub_eq_zero] at this
    exact this.resolve_right (rootAt_ne_one (hp p List.mem_cons_self))

theorem toComplex_eq_zero_of_coefficients {f : RootForm} (h : ∀ x ∈ f, x.2 = 0) : f.toComplex = 0 := by
  induction f with
  | nil => rfl
  | cons x f ih =>
    rw [RootForm.toComplex_cons, h x List.mem_cons_self, ih fun y hy => h y (List.mem_cons_of_mem _ hy)]
    simp

theorem toComplex_eq_zero_of_isZero {f : RootForm} (h : f.isZero = true) : f.toComplex = 0 := by
  unfold RootForm.isZero at h
  have h1 := toComplex_eq_zero_of_coefficients fun x hx => of_decide_eq_true (List.all_eq_true.mp h x hx)
  rw [collect_toComplex] at h1
  have h2 := toComplex_eq_zero_of_factors
    (fun p hp => by
      simp only [primeDivisors, List.mem_filter, Bool.and_eq_true, decide_eq_true_eq] at hp
      exact hp.2.1.1) h1
  rwa [collect_toComplex] at h2

/-! ### Sums of products -/

/-- The product of the powers of the moduli of a table. -/
noncomputable def atomsAt : List Val → List Int → ℂ
  | [], _ => 1
  | _, [] => 1
  | a :: table, e :: es => (a.toReal : ℂ) ^ e * atomsAt table es

/-- `π^i·10^(g/5120)·Π_j a_j^(es[j])`. -/
noncomputable def unitAt (table : List Val) (i g : Int) (es : List Int) : ℂ :=
  (Real.pi : ℂ) ^ i * (((10 : ℝ) ^ ((g : ℝ) / 5120) : ℝ) : ℂ) * atomsAt table es

/-- The complex number a product stands for. -/
noncomputable def Mono.toComplex (table : List Val) (x : Mono) : ℂ :=
  ((x.coef : ℝ) : ℂ) * rootAt x.turn * unitAt table x.pi x.db x.atoms

/-- The complex number a sum of products stands for. -/
noncomputable def Poly.toComplex (table : List Val) (f : Poly) : ℂ := (f.map (Mono.toComplex table)).sum

/-- Every modulus of a table is different from zero. -/
def TableOk (table : List Val) : Prop := ∀ a ∈ table, a.toReal ≠ 0

theorem atomsAt_nil (table : List Val) : atomsAt table [] = 1 := by cases table <;> rfl

theorem atomsAt_consExponent (a : Val) (table : List Val) (e : Int) (es : List Int) :
    atomsAt (a :: table) (consExponent e es) = (a.toReal : ℂ) ^ e * atomsAt table es := by
  unfold consExponent
  split_ifs with h
  · rw [h.1, h.2, atomsAt_nil, atomsAt_nil]; simp
  · rfl

theorem atomsAt_add {table : List Val} (ht : TableOk table) (xs ys : List Int) :
    atomsAt table (addExponents xs ys) = atomsAt table xs * atomsAt table ys := by
  induction table generalizing xs ys with
  | nil => simp [atomsAt]
  | cons a table ih =>
    cases xs with
    | nil => simp [addExponents, atomsAt_nil]
    | cons x xs =>
      cases ys with
      | nil => simp [addExponents, atomsAt_nil]
      | cons y ys =>
        have ha : (a.toReal : ℂ) ≠ 0 := by exact_mod_cast ht a List.mem_cons_self
        rw [addExponents, atomsAt_consExponent, ih (fun b hb => ht b (List.mem_cons_of_mem _ hb)), zpow_add₀ ha]
        simp only [atomsAt]
        ring

theorem atomsAt_neg (table : List Val) (xs : List Int) :
    atomsAt table (xs.map fun e => -e) = (atomsAt table xs)⁻¹ := by
  induction table generalizing xs with
  | nil => simp [atomsAt]
  | cons a table ih =>
    cases xs with
    | nil => simp [atomsAt_nil]
    | cons x xs => simp only [List.map_cons, atomsAt, ih, zpow_neg, mul_inv]

theorem atomsAt_ne_zero {table : List Val} (ht : TableOk table) (xs : List Int) : atomsAt table xs ≠ 0 := by
  induction table generalizing xs with
  | nil => simp [atomsAt]
  | cons a table ih =>
    cases xs with
    | nil => simp [atomsAt_nil]
    | cons x xs =>
      have ha : (a.toReal : ℂ) ≠ 0 := by exact_mod_cast ht a List.mem_cons_self
      exact mul_ne_zero (zpow_ne_zero _ ha) (ih (fun b hb => ht b (List.mem_cons_of_mem _ hb)) xs)

theorem tenRoot_add (g h : Int) :
    (10 : ℝ) ^ (((g + h : Int) : ℝ) / 5120) = (10 : ℝ) ^ ((g : ℝ) / 5120) * (10 : ℝ) ^ ((h : ℝ) / 5120) := by
  rw [← Real.rpow_add (by norm_num)]
  congr 1
  push_cast
  ring

theorem unitAt_add {table : List Val} (ht : TableOk table) (i j g h : Int) (xs ys : List Int) :
    unitAt table (i + j) (g + h) (addExponents xs ys) = unitAt table i g xs * unitAt table j h ys := by
  have hp : (Real.pi : ℂ) ≠ 0 := by exact_mod_cast Real.pi_ne_zero
  unfold unitAt
  rw [atomsAt_add ht, zpow_add₀ hp, tenRoot_add]
  push_cast
  ring

theorem unitAt_neg (table : List Val) (i g : Int) (xs : List Int) :
    unitAt table (-i) (-g) (xs.map fun e => -e) = (unitAt table i g xs)⁻¹ := by
  unfold unitAt
  have : (10 : ℝ) ^ (((-g : Int) : ℝ) / 5120) = ((10 : ℝ) ^ ((g : ℝ) / 5120))⁻¹ := by
    rw [← Real.rpow_neg (by norm_num)]
    congr 1
    push_cast
    ring
  rw [atomsAt_neg, zpow_neg, this, mul_inv, mul_inv]
  push_cast
  ring

theorem unitAt_ne_zero {table : List Val} (ht : TableOk table) (i g : Int) (xs : List Int) :
    unitAt table i g xs ≠ 0 := by
  have hp : (Real.pi : ℂ) ≠ 0 := by exact_mod_cast Real.pi_ne_zero
  have h10 : (((10 : ℝ) ^ ((g : ℝ) / 5120) : ℝ) : ℂ) ≠ 0 := by
    exact_mod_cast (Real.rpow_pos_of_pos (by norm_num : (0 : ℝ) < 10) _).ne'
  exact mul_ne_zero (mul_ne_zero (zpow_ne_zero _ hp) h10) (atomsAt_ne_zero ht xs)

theorem rootAt_ne_zero (r : Rat) : rootAt r ≠ 0 := Complex.exp_ne_zero _

theorem rootAt_neg (r : Rat) : rootAt (-r) = (rootAt r)⁻¹ := by
  refine eq_inv_of_mul_eq_one_left ?_
  rw [← rootAt_add, neg_add_cancel, rootAt_zero]

theorem Mono.toComplex_mul {table : List Val} (ht : TableOk table) (x y : Mono) :
    (x.mul y).toComplex table = x.toComplex table * y.toComplex table := by
  simp only [Mono.toComplex, Mono.mul]
  rw [rootAt_fracRat, rootAt_add, unitAt_add ht]
  push_cast
  ring

theorem Mono.toComplex_inv (table : List Val) (x : Mono) : x.inv.toComplex table = (x.toComplex table)⁻¹ := by
  simp only [Mono.toComplex, Mono.inv]
  rw [rootAt_neg, unitAt_neg, mul_inv, mul_inv]
  push_cast
  ring

theorem Mono.toComplex_ne_zero {table : List Val} (ht : TableOk table) {x : Mono} (h : x.coef ≠ 0) :
    x.toComplex table ≠ 0 := by
  have : ((x.coef : ℝ) : ℂ) ≠ 0 := by exact_mod_cast h
  exact mul_ne_zero (mul_ne_zero this (rootAt_ne_zero _)) (unitAt_ne_zero ht _ _ _)

@[simp] theorem Poly.toComplex_nil (table : List Val) : Poly.toComplex table [] = 0 := rfl

@[simp] theorem Poly.toComplex_cons (table : List Val) (x : Mono) (f : Poly) :
    Poly.toComplex table (x :: f) = x.toComplex table + Poly.toComplex table f := rfl

theorem toComplex_insertMono (table : List Val) (x : Mono) (f : Poly) :
    Poly.toComplex table (insertMono x f) = x.toComplex table + Poly.toComplex table f := by
  induction f with
  | nil => simp [insertMono]
  | cons y f ih =>
    unfold insertMono
    split_ifs with h hz
    · have e : x.toComplex table + y.toComplex table = 0 := by
        have : ((y.coef : ℝ) : ℂ) = -((x.coef : ℝ) : ℂ) := by
          rw [eq_neg_iff_add_eq_zero]
          exact_mod_cast hz
        simp only [Mono.toComplex, h.1, h.2.1, h.2.2.1, h.2.2.2, this]
        ring
      rw [Poly.toComplex_cons, ← add_assoc, e, zero_add]
    · simp only [Poly.toComplex_cons, Mono.toComplex, h.1, h.2.1, h.2.2.1, h.2.2.2]
      push_cast
      ring
    · rw [Poly.toComplex_cons, Poly.toComplex_cons, ih]
      ring

theorem Poly.toComplex_add (table : List Val) (f g : Poly) :
    Poly.toComplex table (f.add g) = Poly.toComplex table f + Poly.toComplex table g := by
  unfold Poly.add
  induction g generalizing f with
  | nil => simp
  | cons x g ih =>
    rw [List.foldl_cons, ih, toComplex_insertMono, Poly.toComplex_cons]
    ring

theorem Poly.toComplex_neg (table : List Val) (f : Poly) : Poly.toComplex table f.neg = -Poly.toComplex table f := by
  unfold Poly.neg
  induction f with
  | nil => simp
  | cons x f ih =>
    rw [List.map_cons, Poly.toComplex_cons, Poly.toComplex_cons, ih, neg_add]
    congr 1
    simp only [Mono.toComplex]
    push_cast
    ring

theorem Poly.toComplex_map_mul {table : List Val} (ht : TableOk table) (x : Mono) (g : Poly) :
    Poly.toComplex table (g.map x.mul) = x.toComplex table * Poly.toComplex table g := by
  induction g with
  | nil => simp
  | cons y g ih =>
    rw [List.map_cons, Poly.toComplex_cons, ih, Mono.toComplex_mul ht, Poly.toComplex_cons]
    ring

theorem Poly.toComplex_mul {table : List Val} (ht : TableOk table) (f g : Poly) :
    Poly.toComplex table (f.mul g) = Poly.toComplex table f * Poly.toComplex table g := by
  have key : ∀ (l h : Poly), Poly.toComplex table (l.foldl (fun h x => Poly.add h (g.map x.mul)) h) =
      Poly.toComplex table h + Poly.toComplex table l * Poly.toComplex table g := by
    intro l
    induction l with
    | nil => simp
    | cons x l ih =>
      intro h
      rw [List.foldl_cons, ih, Poly.toComplex_add, Poly.toComplex_map_mul ht, Poly.toComplex_cons]
      ring
  rw [Poly.mul, key, Poly.toComplex_nil, zero_add]

theorem unitAt_zero (table : List Val) : unitAt table 0 0 [] = 1 := by simp [unitAt, atomsAt_nil]

theorem Poly.toComplex_const (table : List Val) (q : Rat) : Poly.toComplex table (Poly.const q) = ((q : ℝ) : ℂ) := by
  simp [Poly.const, Poly.toComplex_cons, Mono.toComplex, rootAt_zero, unitAt_zero]

theorem sqrtTen_toComplex : sqrtTen.toComplex = ((√10 : ℝ) : ℂ) := by
  have c8 := rootAt_add_neg (mkRat 1 8)
  have c5 := rootAt_add_neg (mkRat 1 5)
  have n8 : mkRat (-1) 8 = -mkRat 1 8 := by decide +kernel
  have n5 : mkRat (-1) 5 = -mkRat 1 5 := by decide +kernel
  have e8 : 2 * Real.cos (2 * Real.pi * (mkRat 1 8 : Rat)) = √2 := by
    rw [cast_mkRat, show 2 * Real.pi * (((1 : Int) : ℝ) / ((8 : Nat) : ℝ)) = Real.pi / 4 by push_cast; ring,
      Real.cos_pi_div_four]
    ring
  have e5 : 1 + 4 * Real.cos (2 * Real.pi * (mkRat 1 5 : Rat)) = √5 := by
    rw [cast_mkRat, show 2 * Real.pi * (((1 : Int) : ℝ) / ((5 : Nat) : ℝ)) = 2 * (Real.pi / 5) by push_cast; ring,
      Real.cos_two_mul, Real.cos_pi_div_five]
    have := Real.sq_sqrt (show (0 : ℝ) ≤ 5 by norm_num)
    ring_nf
    rw [this]
    ring
  have e10 : √10 = √2 * √5 := by rw [← Real.sqrt_mul (by norm_num)]; norm_num
  rw [sqrtTen, RootForm.toComplex_mul, e10, ← e8, ← e5, n8, n5]
  simp only [RootForm.toComplex_cons, RootForm.toComplex_nil, rootAt_zero]
  have h8 : rootAt (mkRat 1 8) + rootAt (-mkRat 1 8) = ((2 * Real.cos (2 * Real.pi * (mkRat 1 8 : Rat)) : ℝ) : ℂ) := by
    rw [c8]; push_cast; rfl
  have h5 : 1 + 2 * (rootAt (mkRat 1 5) + rootAt (-mkRat 1 5)) =
      ((1 + 4 * Real.cos (2 * Real.pi * (mkRat 1 5 : Rat)) : ℝ) : ℂ) := by
    rw [c5]; push_cast; ring
  rw [Complex.ofReal_mul, ← h8, ← h5]
  push_cast
  ring

theorem tenRoot_split (g : Int) :
    (10 : ℝ) ^ ((g : ℝ) / 5120) =
      (10 : ℝ) ^ (g / 2560 / 2 : Int) * (if g / 2560 % 2 = 0 then 1 else √10) * (10 : ℝ) ^ (((g % 2560 : Int) : ℝ) / 5120) := by
  have hs : (if g / 2560 % 2 = 0 then (1 : ℝ) else √10) = (10 : ℝ) ^ (((g / 2560 % 2 : Int) : ℝ) / 2) := by
    split_ifs with h
    · rw [h]; simp
    · have : g / 2560 % 2 = 1 := by omega
      rw [this, Real.sqrt_eq_rpow]
      norm_num
  rw [hs, ← Real.rpow_intCast, ← Real.rpow_add (by norm_num), ← Real.rpow_add (by norm_num)]
  congr 1
  have h1 : g = 2560 * (2 * (g / 2560 / 2) + g / 2560 % 2) + g % 2560 := by omega
  have h2 : (g : ℝ) = 2560 * (2 * ((g / 2560 / 2 : Int) : ℝ) + ((g / 2560 % 2 : Int) : ℝ)) + ((g % 2560 : Int) : ℝ) := by
    exact_mod_cast h1
  rw [h2]
  ring

/-- A product is its combination of roots of unity times the rest. -/
theorem Mono.rootForm_toComplex (table : List Val) (x : Mono) :
    x.toComplex table = x.rootForm.toComplex * unitAt table x.pi (x.db % 2560) x.atoms := by
  have ten : ∀ k : Int, (((if k < 0 then mkRat 1 (10 ^ (-k).toNat) else (10 ^ k.toNat : Nat) : Rat)) : ℝ) =
      (10 : ℝ) ^ k := by
    intro k
    split_ifs with h
    · have : k = -(((-k).toNat : Nat) : Int) := by rw [Int.toNat_of_nonneg (by omega)]; ring
      conv_rhs => rw [this]
      rw [cast_mkRat, zpow_neg, zpow_natCast]
      push_cast
      rw [one_div]
    · have : k = ((k.toNat : Nat) : Int) := by rw [Int.toNat_of_nonneg (by omega)]
      conv_rhs => rw [this]
      rw [zpow_natCast]
      push_cast
      rfl
  have hsign : (x.db / 2560 < 0) ↔ (x.db / 2560 / 2 < 0) := by omega
  have root : RootForm.toComplex (if x.db / 2560 % 2 = 0 then ([(0, 1)] : RootForm) else sqrtTen) =
      (((if x.db / 2560 % 2 = 0 then (1 : ℝ) else √10) : ℝ) : ℂ) := by
    split_ifs with h
    · simp [rootAt_zero]
    · exact sqrtTen_toComplex
  have coef := ten (x.db / 2560 / 2)
  rw [Mono.rootForm, RootForm.toComplex_mul, root, if_congr hsign rfl rfl]
  simp only [RootForm.toComplex_cons, RootForm.toComplex_nil, Mono.toComplex, unitAt, tenRoot_split x.db]
  rw [Rat.cast_mul, coef]
  push_cast
  ring

theorem sum_alike (table : List Val) (x : Mono) (f : Poly) :
    Poly.toComplex table (f.filter x.alike) =
      RootForm.toComplex ((f.filter x.alike).flatMap Mono.rootForm) * unitAt table x.pi (x.db % 2560) x.atoms := by
  induction f with
  | nil => simp
  | cons y f ih =>
    by_cases h : x.alike y = true
    · rw [List.filter_cons_of_pos h, Poly.toComplex_cons, ih, List.flatMap_cons, RootForm.toComplex_append,
        Mono.rootForm_toComplex]
      obtain ⟨h1, h2, h3⟩ := of_decide_eq_true h
      rw [← h1, ← h2, ← h3]
      ring
    · rw [List.filter_cons_of_neg h, ih]

theorem toComplex_filter_split (table : List Val) (p : Mono → Bool) (f : Poly) :
    Poly.toComplex table f =
      Poly.toComplex table (f.filter p) + Poly.toComplex table (f.filter fun y => !p y) := by
  induction f with
  | nil => simp
  | cons y f ih =>
    by_cases h : p y = true
    · rw [List.filter_cons_of_pos h, List.filter_cons_of_neg (by simp [h]), Poly.toComplex_cons, Poly.toComplex_cons, ih]
      ring
    · rw [List.filter_cons_of_neg h, List.filter_cons_of_pos (by simpa using h), Poly.toComplex_cons,
        Poly.toComplex_cons, ih]
      ring

theorem toComplex_eq_zero_of_isZeroFrom (table : List Val) (fuel : Nat) (f : Poly)
    (h : Poly.isZeroFrom fuel f = true) : Poly.toComplex table f = 0 := by
  induction fuel generalizing f with
  | zero =>
    cases f with
    | nil => rfl
    | cons x f => cases h
  | succ fuel ih =>
    cases f with
    | nil => rfl
    | cons x f =>
      simp only [Poly.isZeroFrom, Bool.and_eq_true] at h
      rw [toComplex_filter_split table x.alike, sum_alike, toComplex_eq_zero_of_isZero h.1, ih _ h.2]
      ring

theorem Poly.toComplex_eq_zero (table : List Val) {f : Poly} (h : f.isZero = true) : Poly.toComplex table f = 0 :=
  toComplex_eq_zero_of_isZeroFrom table _ f h

/-! ### Values as quotients -/

theorem ne_zero_of_shownNonzero {v : Val} (h : shownNonzero v = true) : v.toReal ≠ 0 := by
  unfold shownNonzero at h
  split at h
  · next x hx => exact ne_zero_of_apart (enclose_holds hx) (of_decide_eq_true h)
  · cases h

theorem le_of_shownBelow {a b : Val} (h : shownBelow a b = true) : a.toReal ≤ b.toReal := by
  unfold shownBelow at h
  split at h
  · next x y hx hy => exact le_of_enclosures (enclose_holds hx) (enclose_holds hy) (of_decide_eq_true h)
  · cases h

theorem squaredModulus_toComplex {re im : Val} {f : RootForm} (h : squaredModulus re im = some f) :
    f.toComplex = ((re.toReal ^ 2 + im.toReal ^ 2 : ℝ) : ℂ) := by
  unfold squaredModulus at h
  split at h
  · next x y hx hy =>
    cases h
    rw [RootForm.toComplex_append, RootForm.toComplex_mul, RootForm.toComplex_mul,
      Sys2Proof.Machine.rootForm_toComplex hx, Sys2Proof.Machine.rootForm_toComplex hy]
    push_cast
    ring
  · cases h

theorem toReal_of_sameModulus {re im a : Val} (h : sameModulus re im a = true) :
    (Val.abs re im).toReal = a.toReal := by
  unfold sameModulus at h
  split at h
  · next re' im' =>
    rw [Bool.or_eq_true] at h
    rcases h with h | h
    · obtain ⟨h1, h2⟩ := of_decide_eq_true h
      rw [h1, h2]
    · split at h
      · next f g hf hg =>
        rw [Bool.and_eq_true] at h
        have e := toComplex_eq_zero_of_isZero h.2
        rw [RootForm.toComplex_append, RootForm.toComplex_neg, squaredModulus_toComplex hf, squaredModulus_toComplex hg,
          ← sub_eq_add_neg, sub_eq_zero] at e
        have : re.toReal ^ 2 + im.toReal ^ 2 = re'.toReal ^ 2 + im'.toReal ^ 2 := by exact_mod_cast e
        simp only [Val.toReal, this]
      · cases h
  · cases h

theorem modulusTable_ok (v : Val) (table : List Val) (ht : TableOk table) : TableOk (modulusTable v table) := by
  induction v generalizing table with
  | rat q => exact ht
  | pi => exact ht
  | cos q => exact ht
  | db g => exact ht
  | pow b i n => exact ht
  | add a b iha ihb => exact ihb _ (iha _ ht)
  | sub a b iha ihb => exact ihb _ (iha _ ht)
  | mul a b iha ihb => exact ihb _ (iha _ ht)
  | div a b iha ihb => exact ihb _ (iha _ ht)
  | max a b iha ihb => exact ihb _ (iha _ ht)
  | abs a b iha ihb =>
    unfold modulusTable
    split_ifs with h
    · exact ht
    · simp only [Bool.or_eq_true, Bool.not_eq_true', not_or, Bool.not_eq_false] at h
      intro c hc
      rcases List.mem_append.mp hc with hc | hc
      · exact ht c hc
      · rw [List.mem_singleton.mp hc]
        exact ne_zero_of_shownNonzero h.2

/-- A quotient of sums of products stands for a real. -/
def QuotientOf (table : List Val) (x : Poly × Poly) (r : ℝ) : Prop :=
  Poly.toComplex table x.2 ≠ 0 ∧ (r : ℂ) * Poly.toComplex table x.2 = Poly.toComplex table x.1

theorem quotientOf_one {table : List Val} {f : Poly} {r : ℝ} (h : Poly.toComplex table f = (r : ℂ)) :
    QuotientOf table (f, Poly.const 1) r := by
  constructor
  · rw [Poly.toComplex_const]; simp
  · rw [Poly.toComplex_const, h]; simp

theorem atomsAt_unit (table : List Val) (j : Nat) (h : j < table.length) :
    atomsAt table (List.replicate j 0 ++ [1]) = ((table[j].toReal : ℝ) : ℂ) := by
  induction table generalizing j with
  | nil => cases h
  | cons a table ih =>
    cases j with
    | zero => simp [atomsAt, atomsAt_nil]
    | succ j =>
      rw [List.replicate_succ, List.cons_append, atomsAt, zpow_zero, one_mul, ih j (by simpa using h)]
      rfl

theorem modulusQuotient_of {table : List Val} {re im : Val} {x : Poly × Poly}
    (h : modulusQuotient table re im = some x) : QuotientOf table x (Val.abs re im).toReal := by
  unfold modulusQuotient at h
  split at h
  · next j hj =>
    cases h
    obtain ⟨hlt, hs, -⟩ := List.findIdx?_eq_some_iff_getElem.mp hj
    refine quotientOf_one ?_
    rw [toReal_of_sameModulus hs, Poly.toComplex_cons, Poly.toComplex_nil, Mono.toComplex]
    simp only [unitAt, atomsAt_unit table j hlt, rootAt_zero]
    simp
  · split at h
    · next f hf =>
      split_ifs at h with hz
      cases h
      refine quotientOf_one ?_
      have e := toComplex_eq_zero_of_isZero hz
      rw [squaredModulus_toComplex hf] at e
      have : re.toReal ^ 2 + im.toReal ^ 2 = 0 := by exact_mod_cast e
      simp [Val.toReal, this]
    · cases h

theorem addQuotients_of {table : List Val} (ht : TableOk table) {x y : Poly × Poly} {a b : ℝ}
    (hx : QuotientOf table x a) (hy : QuotientOf table y b) : QuotientOf table (addQuotients x y) (a + b) := by
  obtain ⟨hx0, hx⟩ := hx
  obtain ⟨hy0, hy⟩ := hy
  unfold addQuotients
  split_ifs with h
  · refine ⟨hx0, ?_⟩
    rw [Poly.toComplex_add, ← hx, ← hy, ← h]
    push_cast
    ring
  · refine ⟨by rw [Poly.toComplex_mul ht]; exact mul_ne_zero hx0 hy0, ?_⟩
    rw [Poly.toComplex_mul ht, Poly.toComplex_add, Poly.toComplex_mul ht, Poly.toComplex_mul ht, ← hx, ← hy]
    push_cast
    ring

theorem divQuotients_of {table : List Val} (ht : TableOk table) {v : Val} {x y z : Poly × Poly} {a : ℝ}
    (hx : QuotientOf table x a) (hy : QuotientOf table y v.toReal) (h : divQuotients v x y = some z) :
    QuotientOf table z (a / v.toReal) := by
  obtain ⟨hx0, hx⟩ := hx
  obtain ⟨hy0, hy⟩ := hy
  unfold divQuotients at h
  split at h
  · next m hm =>
    split_ifs at h with hc
    cases h
    have hm0 := Mono.toComplex_ne_zero ht hc
    have e : (v.toReal : ℂ) * Poly.toComplex table y.2 = m.toComplex table := by
      rw [hy, hm, Poly.toComplex_cons, Poly.toComplex_nil, add_zero]
    have hv0 : (v.toReal : ℂ) ≠ 0 := by
      intro hv
      rw [hv, zero_mul] at e
      exact hm0 e.symm
    refine ⟨hx0, ?_⟩
    rw [Poly.toComplex_mul ht, Poly.toComplex_mul ht, ← hx, Poly.toComplex_cons, Poly.toComplex_nil, add_zero,
      Mono.toComplex_inv, ← e]
    push_cast
    field_simp
  · split_ifs at h with hs
    cases h
    have hv0 : (v.toReal : ℂ) ≠ 0 := by exact_mod_cast ne_zero_of_shownNonzero hs
    refine ⟨by rw [Poly.toComplex_mul ht, ← hy]; exact mul_ne_zero hx0 (mul_ne_zero hv0 hy0), ?_⟩
    rw [Poly.toComplex_mul ht, Poly.toComplex_mul ht, ← hx, ← hy]
    push_cast
    field_simp

theorem maxQuotients_of {table : List Val} (ht : TableOk table) {v w : Val} {x y z : Poly × Poly}
    (hx : QuotientOf table x v.toReal) (hy : QuotientOf table y w.toReal) (h : maxQuotients v w x y = some z) :
    QuotientOf table z (max v.toReal w.toReal) := by
  unfold maxQuotients at h
  split_ifs at h with hz hl hr
  · cases h
    have e := Poly.toComplex_eq_zero table hz
    rw [Poly.toComplex_add, Poly.toComplex_neg, Poly.toComplex_mul ht, Poly.toComplex_mul ht, ← hx.2, ← hy.2] at e
    have : ((v.toReal : ℂ) - w.toReal) * (Poly.toComplex table x.2 * Poly.toComplex table y.2) = 0 := by
      linear_combination e
    have := (mul_eq_zero.mp this).resolve_right (mul_ne_zero hx.1 hy.1)
    have : v.toReal = w.toReal := by exact_mod_cast sub_eq_zero.mp this
    rw [← this, max_self]
    exact hx
  · cases h
    rw [max_eq_right (le_of_shownBelow hl)]
    exact hy
  · cases h
    rw [max_eq_left (le_of_shownBelow hr)]
    exact hx

theorem quotient2_some {f : Poly × Poly → Poly × Poly → Option (Poly × Poly)} {a b : Option (Poly × Poly)}
    {z : Poly × Poly} (h : quotient2 f a b = some z) : ∃ x y, a = some x ∧ b = some y ∧ f x y = some z := by
  cases a <;> cases b <;> simp_all [quotient2]

/-- A value written as a quotient is that quotient. -/
theorem quotientForm_of {table : List Val} (ht : TableOk table) {v : Val} {x : Poly × Poly}
    (h : quotientForm table v = some x) : QuotientOf table x v.toReal := by
  induction v generalizing x with
  | rat q => cases h; exact quotientOf_one (Poly.toComplex_const table q)
  | pi =>
    cases h
    refine quotientOf_one ?_
    simp [Mono.toComplex, unitAt, atomsAt_nil, rootAt_zero, Val.toReal]
  | cos q =>
    cases h
    refine quotientOf_one ?_
    have := rootAt_add_neg q
    simp only [Poly.toComplex_cons, Poly.toComplex_nil, Mono.toComplex, unitAt_zero, rootAt_fracRat, cast_mkRat,
      Val.toReal]
    push_cast at *
    linear_combination this / 2
  | db g =>
    cases h
    refine quotientOf_one ?_
    simp [Mono.toComplex, unitAt, atomsAt_nil, rootAt_zero, Val.toReal]
  | pow b i n => cases h
  | add a b iha ihb =>
    obtain ⟨y, z, hy, hz, hf⟩ := quotient2_some h
    cases hf; exact addQuotients_of ht (iha hy) (ihb hz)
  | sub a b iha ihb =>
    obtain ⟨y, z, hy, hz, hf⟩ := quotient2_some h
    cases hf
    rw [Val.toReal, sub_eq_add_neg]
    refine addQuotients_of ht (iha hy) ⟨(ihb hz).1, ?_⟩
    rw [Poly.toComplex_neg, ← (ihb hz).2]
    push_cast
    ring
  | mul a b iha ihb =>
    obtain ⟨y, z, hy, hz, hf⟩ := quotient2_some h
    cases hf
    refine ⟨by rw [Poly.toComplex_mul ht]; exact mul_ne_zero (iha hy).1 (ihb hz).1, ?_⟩
    rw [Poly.toComplex_mul ht, Poly.toComplex_mul ht, ← (iha hy).2, ← (ihb hz).2, Val.toReal]
    push_cast
    ring
  | div a b iha ihb =>
    obtain ⟨y, z, hy, hz, hf⟩ := quotient2_some h
    exact divQuotients_of ht (iha hy) (ihb hz) hf
  | max a b iha ihb =>
    obtain ⟨y, z, hy, hz, hf⟩ := quotient2_some h
    exact maxQuotients_of ht (iha hy) (ihb hz) hf
  | abs a b _ _ => exact modulusQuotient_of h

/-- A value shown to be a rational is that rational. -/
theorem toReal_of_equalsRat {v : Val} {q : Rat} (h : equalsRat v q = true) : v.toReal = q := by
  have ht : TableOk (modulusTable v []) := modulusTable_ok v [] fun a ha => by cases ha
  unfold equalsRat at h
  split at h
  · next x hx =>
    obtain ⟨h0, hv⟩ := quotientForm_of ht hx
    have e := Poly.toComplex_eq_zero (modulusTable v []) h
    rw [Poly.toComplex_add, Poly.toComplex_neg, Poly.toComplex_mul ht, Poly.toComplex_const, ← hv] at e
    have : ((v.toReal : ℂ) - ((q : ℝ) : ℂ)) * Poly.toComplex (modulusTable v []) x.2 = 0 := by
      linear_combination e
    have := (mul_eq_zero.mp this).resolve_right h0
    exact_mod_cast sub_eq_zero.mp this
  · cases h

end Sys2Proof.Machine
end

