-- ==== Sys2Proof/Laws/Compare.lean ====
section
/-! SUPPORT. The comparison of a defined value with a rational is the comparison of reals. -/

namespace Sys2Proof.Machine

open Filter Topology

/-- The order `o` is that of the real `r` and the rational `q`. -/
def OrderIs (o : Ordering) (r : ℝ) (q : Rat) : Prop :=
  match o with
  | .lt => r < q
  | .eq => r = q
  | .gt => (q : ℝ) < r

theorem orderRat_is (a b : Rat) : OrderIs (orderRat a b) a b := by
  unfold orderRat
  split_ifs with h1 h2
  · exact Rat.cast_lt.mpr h1
  · exact congrArg _ h2
  · exact Rat.cast_lt.mpr (lt_of_le_of_ne (not_lt.mp h1) (Ne.symm h2))

theorem orderPower_is {c b : Rat} {n : Nat} (hc : 0 < c) (hb : 0 < b) (hn : 0 < n) (i : Nat) (q : Rat) :
    OrderIs (orderPower c b i n q) ((c : ℝ) * (b : ℝ) ^ ((i : ℝ) / n)) q := by
  have hc' : (0 : ℝ) < c := by exact_mod_cast hc
  have hb' : (0 : ℝ) < b := by exact_mod_cast hb
  have hroot : (0 : ℝ) < (b : ℝ) ^ ((i : ℝ) / n) := Real.rpow_pos_of_pos hb' _
  have hpow : ((b : ℝ) ^ ((i : ℝ) / n)) ^ n = ((b ^ i : Rat) : ℝ) := by
    rw [← Real.rpow_natCast, ← Real.rpow_mul hb'.le, div_mul_cancel₀ _ (by exact_mod_cast hn.ne'), Real.rpow_natCast]
    push_cast
    rfl
  unfold orderPower
  split_ifs with hq
  · have : (q : ℝ) ≤ 0 := by exact_mod_cast hq
    exact this.trans_lt (mul_pos hc' hroot)
  · have hq' : (0 : ℝ) < q := by exact_mod_cast not_le.mp hq
    have hqc : (0 : ℝ) ≤ (q : ℝ) / c := (div_pos hq' hc').le
    have e : (((q / c) ^ n : Rat) : ℝ) = ((q : ℝ) / c) ^ n := by push_cast; rfl
    have key := orderRat_is (b ^ i) ((q / c) ^ n)
    rw [← hpow, ] at key
    generalize orderRat (b ^ i) ((q / c) ^ n) = o at key ⊢
    cases o <;> simp only [OrderIs] at key ⊢ <;> rw [e] at key
    · have := lt_of_pow_lt_pow_left₀ n hqc key
      rwa [lt_div_iff₀ hc', mul_comm] at this
    · have := (pow_left_inj₀ hroot.le hqc hn.ne').mp key
      rw [this]
      field_simp
    · have := lt_of_pow_lt_pow_left₀ n hroot.le key
      rwa [div_lt_iff₀ hc', mul_comm] at this

theorem orderByEnclosure_is {v : Val} {q : Rat} {ps : List Nat} {o : Ordering}
    (h : orderByEnclosure v q ps = some o) : OrderIs o v.toReal q := by
  induction ps with
  | nil => cases h
  | cons p ps ih =>
    have hp : (0 : ℝ) < 2 ^ p := by positivity
    unfold orderByEnclosure at h
    split at h
    · next x hx =>
      obtain ⟨hl, hh⟩ := enclose_holds hx
      split_ifs at h with h1 h2
      · cases h
        have : ((mkRat x.hi (2 ^ p) : Rat) : ℝ) < q := Rat.cast_lt.mpr h1
        rw [cast_mkRat] at this
        push_cast at this
        exact ((le_div_iff₀ hp).mpr hh).trans_lt this
      · cases h
        have : (q : ℝ) < ((mkRat x.lo (2 ^ p) : Rat) : ℝ) := Rat.cast_lt.mpr h2
        rw [cast_mkRat] at this
        push_cast at this
        exact this.trans_le ((div_le_iff₀ hp).mpr hl)
      · exact ih h
    · exact ih h

theorem orderByBounds_is (v : Val) (q : Rat) (k : Nat) (o : Ordering) (h : orderByBounds v q k = some o) :
    OrderIs o v.toReal q := by
  refine orderByBounds.partial_correctness v q (fun _ o => OrderIs o v.toReal q) ?_ k o h
  intro f hf k o h
  split at h
  · next x hx =>
    obtain ⟨hl, hh⟩ := approx_holds hx
    split_ifs at h with h1 h2
    · cases h
      exact hh.trans_lt (Rat.cast_lt.mpr h1)
    · cases h
      exact (Rat.cast_lt.mpr h2).trans_le hl
    · exact hf _ _ h
  · exact hf _ _ h

theorem orderByBounds_none {v : Val} {q : Rat} {k : Nat} (h : orderByBounds v q k = none) (j : Nat) :
    ∀ x, approx (k + 64 * j) v = some x → x.lo ≤ q ∧ q ≤ x.hi := by
  induction j generalizing k with
  | zero =>
    intro x hx
    rw [orderByBounds, Nat.mul_zero, Nat.add_zero] at *
    rw [hx] at h
    dsimp only at h
    split_ifs at h with h1 h2
    exact ⟨not_lt.mp h2, not_lt.mp h1⟩
  | succ j ih =>
    have h' : orderByBounds v q (k + 64) = none := by
      rw [orderByBounds] at h
      split at h
      · split_ifs at h
        exact h
      · exact h
    rw [show k + 64 * (j + 1) = k + 64 + 64 * j by ring]
    exact ih h'

/-- Where no bounds separate a defined value from a rational they are equal. -/
theorem eq_of_orderByBounds_none {v : Val} {q : Rat} {k : Nat} (hv : v.Defined) (h : orderByBounds v q k = none) :
    v.toReal = q := by
  obtain ⟨g, hg, hl, hh⟩ := approx_closesIn hv
  have key : ∀ᶠ j : Nat in atTop, ((g (k + 64 * j)).lo : ℝ) ≤ q ∧ (q : ℝ) ≤ ((g (k + 64 * j)).hi : ℝ) := by
    have t : Tendsto (fun j : Nat => k + 64 * j) atTop atTop :=
      tendsto_atTop_mono (fun j => by dsimp only [id]; omega) tendsto_id
    filter_upwards [t.eventually hg] with j hj
    obtain ⟨h1, h2⟩ := orderByBounds_none h j _ hj
    exact ⟨by exact_mod_cast h1, by exact_mod_cast h2⟩
  have t : Tendsto (fun j : Nat => k + 64 * j) atTop atTop :=
    tendsto_atTop_mono (fun j => by dsimp only [id]; omega) tendsto_id
  exact le_antisymm (le_of_tendsto (hl.comp t) (key.mono fun _ h => h.1))
    (ge_of_tendsto (hh.comp t) (key.mono fun _ h => h.2))

theorem compareGeneral_is {v : Val} (hv : v.Defined) (q : Rat) : OrderIs (compareGeneral v q) v.toReal q := by
  unfold compareGeneral
  split
  · next o ho => exact orderByEnclosure_is ho
  · split_ifs with h
    · exact toReal_of_equalsRat h
    · cases ho : orderByBounds v q 320 with
      | none => exact eq_of_orderByBounds_none hv ho
      | some o => exact orderByBounds_is v q 320 o ho

/-- The comparison of a defined value with a rational says how the reals compare. -/
theorem compareRat_is {v : Val} (hv : v.Defined) (q : Rat) : OrderIs (compareRat v q) v.toReal q := by
  unfold compareRat
  split
  · exact orderRat_is _ _
  · split_ifs with h
    · exact orderPower_is h.1 h.2.1 h.2.2 _ _
    · exact compareGeneral_is hv q
  · exact compareGeneral_is hv q

theorem compareRat_eq_lt {v : Val} (hv : v.Defined) (q : Rat) : compareRat v q = .lt ↔ v.toReal < q := by
  have h := compareRat_is hv q
  cases ho : compareRat v q <;> rw [ho] at h <;> simp only [OrderIs] at h <;> simp [h, le_of_lt]

theorem compareRat_eq_eq {v : Val} (hv : v.Defined) (q : Rat) : compareRat v q = .eq ↔ v.toReal = q := by
  have h := compareRat_is hv q
  cases ho : compareRat v q <;> rw [ho] at h <;> simp only [OrderIs] at h <;> simp [h, ne_of_lt, ne_of_gt]

theorem compareRat_eq_gt {v : Val} (hv : v.Defined) (q : Rat) : compareRat v q = .gt ↔ (q : ℝ) < v.toReal := by
  have h := compareRat_is hv q
  cases ho : compareRat v q <;> rw [ho] at h <;> simp only [OrderIs] at h <;> simp [h, le_of_lt]

end Sys2Proof.Machine
end

