-- ==== Sys2Proof/Laws/Arith.lean ====
section
/-! SUPPORT. What each operation of the reference arithmetic stands for: the real operation of R15. -/

namespace Sys2Proof.Machine

open Real

@[simp] theorem toReal_rat (q : Rat) : (Val.rat q).toReal = q := rfl

theorem toReal_zero : Val.zero.toReal = 0 := by simp [Val.zero]

theorem toReal_one : Val.one.toReal = 1 := by simp [Val.one]

theorem toReal_add (a b : Val) : (Exact.add a b).toReal = a.toReal + b.toReal := by
  unfold Exact.add
  split
  · simp
  · split_ifs with h1 h2
    · simp [h1]
    · simp [h2]
    · rfl

theorem toReal_sub (a b : Val) : (Exact.sub a b).toReal = a.toReal - b.toReal := by
  unfold Exact.sub
  split
  · simp
  · split_ifs with h
    · simp [h]
    · rfl

theorem toReal_mul (a b : Val) : (Exact.mul a b).toReal = a.toReal * b.toReal := by
  unfold Exact.mul
  split
  · simp
  · split_ifs with h1 h2 h3
    · rcases h1 with h | h <;> simp [h]
    · simp [h2]
    · simp [h3]
    · rfl

theorem ne_zero_of_apartFromZero {v : Val} (h : Exact.apartFromZero v = true) : v.toReal ≠ 0 := by
  unfold Exact.apartFromZero at h
  split at h
  · next x hx => exact ne_zero_of_apart (enclose_holds hx) (of_decide_eq_true h)
  · cases h

theorem toReal_div (a b : Val) : (Exact.div a b).toReal = a.toReal / b.toReal := by
  unfold Exact.div
  split
  · simp
  · split_ifs with h1 h2 h3
    · simp [h1]
    · simp [h2]
    · rw [h3.1, div_self (ne_zero_of_apartFromZero h3.2), toReal_one]
    · rfl

theorem le_of_belowByEnclosure {a b : Val} (h : Exact.belowByEnclosure a b = true) : a.toReal ≤ b.toReal := by
  unfold Exact.belowByEnclosure at h
  split at h
  · next x y hx hy => exact le_of_enclosures (enclose_holds hx) (enclose_holds hy) (of_decide_eq_true h)
  · cases h

theorem toReal_max (a b : Val) : (Exact.max a b).toReal = max a.toReal b.toReal := by
  unfold Exact.max
  split
  · next p q =>
    simp only [toReal_rat]
    split_ifs with h
    · exact (max_eq_right (by exact_mod_cast h)).symm
    · exact (max_eq_left (by exact_mod_cast (not_le.mp h).le)).symm
  · split_ifs with h1 h2 h3
    · rw [h1, max_self]
    · exact (max_eq_right (le_of_belowByEnclosure h2)).symm
    · exact (max_eq_left (le_of_belowByEnclosure h3)).symm
    · rfl

theorem sqrtRat_eq {q r : Rat} (h : Exact.sqrtRat q = some r) : Real.sqrt q = r := by
  unfold Exact.sqrtRat at h
  dsimp only at h
  split_ifs at h with hc
  cases h
  obtain ⟨h0, hn, hd⟩ := hc
  have hq : (q : ℝ) = ((isqrt q.num.toNat : ℝ) / (isqrt q.den : ℝ)) ^ 2 := by
    rw [Rat.cast_def, div_pow, pow_two, pow_two, ← Nat.cast_mul, ← Nat.cast_mul, hn, hd]
    congr 1
    rw [← Int.cast_natCast, Int.toNat_of_nonneg h0]
  rw [hq, Real.sqrt_sq (by positivity), cast_mkRat]
  simp

theorem toReal_abs (a b : Val) : (Exact.abs a b).toReal = Real.sqrt (a.toReal ^ 2 + b.toReal ^ 2) := by
  unfold Exact.abs
  split
  · next p q =>
    split
    · next r hr =>
      have := sqrtRat_eq hr
      push_cast at this
      simp only [toReal_rat]
      rw [← this, pow_two, pow_two]
    · rfl
  · rfl

theorem toReal_cos (q : Rat) : (Exact.cos q).toReal = Real.cos (2 * π * q) := by
  rw [← foldTurn_cos]
  unfold Exact.cos
  dsimp only
  have e : ∀ (a : Int) (b : Nat), ((mkRat a b : Rat) : ℝ) = (a : ℝ) / b := cast_mkRat
  split_ifs with h1 h2 h3 h4 h5
  · rw [h1]; simp
  · rw [h2, e, toReal_rat, e, show 2 * π * (((1 : Int) : ℝ) / ((6 : Nat) : ℝ)) = π / 3 by push_cast; ring, Real.cos_pi_div_three]
    norm_num
  · rw [h3, e, toReal_rat, show 2 * π * (((1 : Int) : ℝ) / ((4 : Nat) : ℝ)) = π / 2 by push_cast; ring, Real.cos_pi_div_two]
    norm_num
  · rw [h4, e, toReal_rat, e, show 2 * π * (((1 : Int) : ℝ) / ((3 : Nat) : ℝ)) = π - π / 3 by push_cast; ring,
      Real.cos_pi_sub, Real.cos_pi_div_three]
    norm_num
  · rw [h5, e, toReal_rat, show 2 * π * (((1 : Int) : ℝ) / ((2 : Nat) : ℝ)) = π by push_cast; ring, Real.cos_pi]
    norm_num
  · rfl

theorem toReal_sin (q : Rat) : (Exact.sin q).toReal = Real.sin (2 * π * q) := by
  unfold Exact.sin
  rw [toReal_cos, ← Real.cos_sub_pi_div_two]
  congr 1
  push_cast [cast_mkRat]
  ring

theorem toReal_db2lin (g : Int) : (Exact.db2lin g).toReal = (10 : ℝ) ^ ((g : ℝ) / 5120) := by
  unfold Exact.db2lin
  split
  · next h =>
    have hg : (g : ℝ) / 5120 = ((g / 5120 : Int) : ℝ) := by
      have : g = 5120 * (g / 5120) := by omega
      have : (g : ℝ) = 5120 * ((g / 5120 : Int) : ℝ) := by exact_mod_cast this
      rw [this]; field_simp
    rw [hg, Real.rpow_intCast, toReal_rat]
    split_ifs with hn
    · have : g / 5120 = -(((-(g / 5120)).toNat : Nat) : Int) := by
        rw [Int.toNat_of_nonneg (by omega)]; ring
      conv_rhs => rw [this]
      rw [cast_mkRat, zpow_neg, zpow_natCast]
      push_cast
      rw [one_div]
    · have : g / 5120 = (((g / 5120).toNat : Nat) : Int) := by
        rw [Int.toNat_of_nonneg (by omega)]
      conv_rhs => rw [this]
      rw [cast_mkRat, zpow_natCast]
      simp
  · rfl

theorem toReal_pow (b : Rat) (i n : Nat) : (Exact.pow b i n).toReal = (b : ℝ) ^ ((i : ℝ) / n) := by
  unfold Exact.pow
  split_ifs with h1 h2
  · simp [h1]
  · have : (n : ℝ) ≠ 0 := by exact_mod_cast h2 ▸ h1
    rw [h2, div_self this, Real.rpow_one, toReal_rat]
  · rfl

/-! ### The operations keep values defined -/

theorem defined_add {a b : Val} (ha : a.Defined) (hb : b.Defined) : (Exact.add a b).Defined := by
  unfold Exact.add
  split
  · trivial
  · split_ifs
    · exact hb
    · exact ha
    · exact ⟨ha, hb⟩

theorem defined_sub {a b : Val} (ha : a.Defined) (hb : b.Defined) : (Exact.sub a b).Defined := by
  unfold Exact.sub
  split
  · trivial
  · split_ifs
    · exact ha
    · exact ⟨ha, hb⟩

theorem defined_mul {a b : Val} (ha : a.Defined) (hb : b.Defined) : (Exact.mul a b).Defined := by
  unfold Exact.mul
  split
  · trivial
  · split_ifs
    · trivial
    · exact hb
    · exact ha
    · exact ⟨ha, hb⟩

theorem defined_div {a b : Val} (ha : a.Defined) (hb : b.Defined) (h : b.toReal ≠ 0) : (Exact.div a b).Defined := by
  unfold Exact.div
  split
  · trivial
  · split_ifs
    · trivial
    · exact ha
    · trivial
    · exact ⟨ha, hb, h⟩

theorem defined_max {a b : Val} (ha : a.Defined) (hb : b.Defined) : (Exact.max a b).Defined := by
  unfold Exact.max
  split
  · trivial
  · split_ifs
    · exact ha
    · exact hb
    · exact ha
    · exact ⟨ha, hb⟩

theorem defined_abs {a b : Val} (ha : a.Defined) (hb : b.Defined) : (Exact.abs a b).Defined := by
  unfold Exact.abs
  split
  · split
    · trivial
    · exact ⟨trivial, trivial⟩
  · exact ⟨ha, hb⟩

theorem defined_cos (q : Rat) : (Exact.cos q).Defined := by
  unfold Exact.cos
  dsimp only
  split_ifs <;> trivial

theorem defined_sin (q : Rat) : (Exact.sin q).Defined := defined_cos _

theorem defined_db2lin (g : Int) : (Exact.db2lin g).Defined := by
  unfold Exact.db2lin
  split <;> trivial

theorem defined_pow {b : Rat} {i n : Nat} (hb : 0 < b) (hn : 0 < n) : (Exact.pow b i n).Defined := by
  unfold Exact.pow
  split_ifs
  · trivial
  · trivial
  · exact ⟨hb, hn⟩

theorem defined_sumVal {vs : List Val} (h : ∀ v ∈ vs, v.Defined) : (sumVal exactArith vs).Defined := by
  have key : ∀ (l : List Val) (a : Val), a.Defined → (∀ v ∈ l, v.Defined) → (l.foldl Exact.add a).Defined := by
    intro l
    induction l with
    | nil => intro a ha _; exact ha
    | cons v l ih =>
      intro a ha hl
      exact ih _ (defined_add ha (hl v List.mem_cons_self)) fun w hw => hl w (List.mem_cons_of_mem _ hw)
  exact key vs Val.zero trivial h

theorem defined_maxVal {vs : List Val} (h : ∀ v ∈ vs, v.Defined) : (maxVal exactArith vs).Defined := by
  have key : ∀ (l : List Val) (a : Val), a.Defined → (∀ v ∈ l, v.Defined) → (l.foldl Exact.max a).Defined := by
    intro l
    induction l with
    | nil => intro a ha _; exact ha
    | cons v l ih =>
      intro a ha hl
      exact ih _ (defined_max ha (hl v List.mem_cons_self)) fun w hw => hl w (List.mem_cons_of_mem _ hw)
  cases vs with
  | nil => trivial
  | cons v vs => exact key vs v (h v List.mem_cons_self) fun w hw => h w (List.mem_cons_of_mem _ hw)

/-! ### The rounding by comparison -/

/-- Halving finds the least rank whose upper boundary is not below the value. -/
theorem bisectRank_spec {v : Val} (hv : v.Defined) (fuel : Nat) (lo hi : Int) (h : lo ≤ hi) (hf : hi - lo < 2 ^ fuel) :
    lo ≤ bisectRank v fuel lo hi ∧ bisectRank v fuel lo hi ≤ hi ∧
      (bisectRank v fuel lo hi < hi → v.toReal ≤ (midpoint (bisectRank v fuel lo hi) : ℝ)) ∧
      (lo < bisectRank v fuel lo hi → ∃ r, lo ≤ r ∧ r + 1 = bisectRank v fuel lo hi ∧ (midpoint r : ℝ) < v.toReal) := by
  induction fuel generalizing lo hi with
  | zero =>
    have : lo = hi := by simp at hf; omega
    subst this
    exact ⟨le_rfl, le_rfl, fun h => absurd h (lt_irrefl _), fun h => absurd h (lt_irrefl _)⟩
  | succ fuel ih =>
    rw [pow_succ] at hf
    unfold bisectRank
    split_ifs with h1 h2
    · exact ⟨h, le_rfl, fun h => absurd h (lt_irrefl _), fun h => by omega⟩
    · have hm := (compareRat_eq_gt hv _).mp h2
      obtain ⟨a, b, c, d⟩ := ih ((lo + hi) / 2 + 1) hi (by omega) (by omega)
      refine ⟨by omega, b, c, fun _ => ?_⟩
      rcases lt_or_eq_of_le a with e | e
      · obtain ⟨r, hr, hr', hr''⟩ := d e
        exact ⟨r, by omega, hr', hr''⟩
      · exact ⟨(lo + hi) / 2, by omega, e, hm⟩
    · have hm : v.toReal ≤ (midpoint ((lo + hi) / 2) : ℝ) := not_lt.mp fun hlt => h2 ((compareRat_eq_gt hv _).mpr hlt)
      obtain ⟨a, b, c, d⟩ := ih lo ((lo + hi) / 2) (by omega) (by omega)
      refine ⟨a, by omega, fun _ => ?_, d⟩
      rcases lt_or_eq_of_le b with e | e
      · exact c e
      · rw [e]; exact hm

/-- A magnitude of the port format, in units of `2^-149` (R70). -/
def magnitudeUnits (m : Nat) : Nat :=
  if m / 2 ^ 23 = 0 then m % 2 ^ 23 else (2 ^ 23 + m % 2 ^ 23) * 2 ^ (m / 2 ^ 23 - 1)

theorem magnitudeUnits_succ (m : Nat) : magnitudeUnits m < magnitudeUnits (m + 1) := by
  unfold magnitudeUnits
  by_cases hf : m % 2 ^ 23 + 1 < 2 ^ 23
  · have h1 : (m + 1) / 2 ^ 23 = m / 2 ^ 23 := by omega
    have h2 : (m + 1) % 2 ^ 23 = m % 2 ^ 23 + 1 := by omega
    rw [h1, h2]
    split_ifs
    · omega
    · exact Nat.mul_lt_mul_of_pos_right (by omega) (by positivity)
  · have h1 : (m + 1) / 2 ^ 23 = m / 2 ^ 23 + 1 := by omega
    have h2 : (m + 1) % 2 ^ 23 = 0 := by omega
    have h3 : m % 2 ^ 23 = 2 ^ 23 - 1 := by omega
    rw [h1, h2, h3, if_neg (Nat.succ_ne_zero _)]
    split_ifs with h
    · rw [h]; norm_num
    · obtain ⟨e, he⟩ := Nat.exists_eq_succ_of_ne_zero h
      rw [he, Nat.add_sub_cancel, Nat.succ_sub_one, Nat.succ_eq_add_one, pow_succ 2 e]
      have : 0 < 2 ^ e := by positivity
      have e1 : (2 ^ 23 + 0) * (2 ^ e * 2) = 2 ^ 24 * 2 ^ e := by ring
      rw [e1]
      exact Nat.mul_lt_mul_of_pos_right (by norm_num) this

theorem magnitudeUnits_zero : magnitudeUnits 0 = 0 := by decide

/-- The value of a rank (R70). -/
theorem rankValue_eq {r : Int} (h0 : -largestRank ≤ r) (h1 : r ≤ largestRank) :
    rankValue r = (if r < 0 then -(magnitudeUnits r.natAbs : Rat) else (magnitudeUnits r.natAbs : Rat)) / 2 ^ 149 := by
  unfold largestRank at h0 h1
  have hm : r.natAbs ≤ 0x7F7FFFFF := by omega
  have hw : (rankWord r).toNat = if r < 0 then 2 ^ 31 + r.natAbs else r.natAbs := by
    unfold rankWord
    rw [BitVec.toNat_ofNat]
    split_ifs <;> omega
  have he : ((rankWord r).extractLsb' 23 8).toNat = r.natAbs / 2 ^ 23 := by
    rw [BitVec.extractLsb'_toNat, hw, Nat.shiftRight_eq_div_pow]
    split_ifs <;> omega
  have hf : ((rankWord r).extractLsb' 0 23).toNat = r.natAbs % 2 ^ 23 := by
    rw [BitVec.extractLsb'_toNat, hw, Nat.shiftRight_eq_div_pow]
    split_ifs <;> omega
  have hs : (rankWord r).getLsbD 31 = decide (r < 0) := by
    rw [BitVec.getLsbD, hw, Nat.testBit_eq_decide_div_mod_eq]
    split_ifs with h
    · simp only [h, decide_true, decide_eq_true_eq]; omega
    · simp only [h, decide_false, decide_eq_false_iff_not]; omega
  have hlt : r.natAbs / 2 ^ 23 < 255 := by omega
  have hq : (if r.natAbs / 2 ^ 23 = 0 then mkRat (r.natAbs % 2 ^ 23 : Nat) (2 ^ 149)
      else if 150 ≤ r.natAbs / 2 ^ 23 then ((2 ^ 23 + r.natAbs % 2 ^ 23) * 2 ^ (r.natAbs / 2 ^ 23 - 150) : Nat)
      else mkRat (2 ^ 23 + r.natAbs % 2 ^ 23 : Nat) (2 ^ (150 - r.natAbs / 2 ^ 23)) : Rat) =
      (magnitudeUnits r.natAbs : Rat) / 2 ^ 149 := by
    unfold magnitudeUnits
    generalize r.natAbs / 2 ^ 23 = e at hlt
    generalize r.natAbs % 2 ^ 23 = f
    split_ifs with h2 h3
    · rw [Rat.mkRat_eq_div]; push_cast; rfl
    · rw [eq_div_iff (by positivity)]
      obtain ⟨k, rfl⟩ := Nat.exists_eq_add_of_le h3
      rw [Nat.add_sub_cancel_left, show 150 + k - 1 = k + 149 by omega, pow_add]
      push_cast
      ring
    · rw [Rat.mkRat_eq_div, eq_div_iff (by positivity), div_mul_eq_mul_div, div_eq_iff (by positivity)]
      have : (2 : Rat) ^ 149 = 2 ^ (e - 1) * 2 ^ (150 - e) := by rw [← pow_add]; congr 1; omega
      push_cast
      rw [this]
      ring
  unfold rankValue dec32
  dsimp only
  rw [he, hf, hs, if_neg (by omega), Option.getD_some, hq]
  by_cases h : r < 0
  · simp only [h, decide_true, if_true]; ring
  · simp only [h, decide_false, if_false, Bool.false_eq_true]

/-- A rank above another has the greater value. -/
theorem rankValue_succ_lt {r : Int} (h0 : -largestRank ≤ r) (h1 : r < largestRank) :
    rankValue r < rankValue (r + 1) := by
  rw [rankValue_eq h0 h1.le, rankValue_eq (by omega) (by omega)]
  refine div_lt_div_of_pos_right ?_ (by positivity)
  split_ifs with h2 h3 h3
  · have e : r.natAbs = (r + 1).natAbs + 1 := by omega
    rw [e, neg_lt_neg_iff]
    exact_mod_cast magnitudeUnits_succ _
  · have e1 : (r + 1).natAbs = 0 := by omega
    have e2 : r.natAbs = 0 + 1 := by omega
    rw [e1, e2, magnitudeUnits_zero]
    have := magnitudeUnits_succ 0
    rw [magnitudeUnits_zero] at this
    have : (0 : Rat) < (magnitudeUnits (0 + 1) : Rat) := by exact_mod_cast this
    push_cast
    linarith
  · omega
  · have e : (r + 1).natAbs = r.natAbs + 1 := by omega
    rw [e]
    exact_mod_cast magnitudeUnits_succ _

theorem midpoint_succ_lt {r : Int} (h0 : -largestRank ≤ r) (h1 : r + 1 < largestRank) :
    midpoint r < midpoint (r + 1) := by
  have a := rankValue_succ_lt h0 (by omega)
  have b := rankValue_succ_lt (r := r + 1) (by omega) h1
  unfold midpoint
  linarith

/-- What the rank a value rounds to satisfies: it is in range, the value lies between its boundaries, and on a boundary
only where the rank is even (R72). -/
theorem roundedRank_spec {v : Val} (hv : v.Defined) :
    -largestRank ≤ roundedRank v ∧ roundedRank v ≤ largestRank ∧
      (roundedRank v < largestRank → v.toReal ≤ (midpoint (roundedRank v) : ℝ) ∧
        (v.toReal = (midpoint (roundedRank v) : ℝ) → roundedRank v % 2 = 0)) ∧
      (-largestRank < roundedRank v → (midpoint (roundedRank v - 1) : ℝ) ≤ v.toReal ∧
        (v.toReal = (midpoint (roundedRank v - 1) : ℝ) → roundedRank v % 2 = 0)) := by
  obtain ⟨ha, hb, hc, hd⟩ := bisectRank_spec hv 33 (-largestRank) largestRank (by decide) (by decide)
  unfold roundedRank
  dsimp only
  generalize bisectRank v 33 (-largestRank) largestRank = r at ha hb hc hd
  split_ifs with h
  · obtain ⟨h1, h2, h3⟩ := h
    have hm := (compareRat_eq_eq hv _).mp h3
    refine ⟨by omega, by omega, fun hlt => ?_, fun _ => ?_⟩
    · have : (midpoint r : ℝ) < (midpoint (r + 1) : ℝ) := Rat.cast_lt.mpr (midpoint_succ_lt ha hlt)
      exact ⟨by rw [hm]; exact this.le, fun _ => by omega⟩
    · rw [add_sub_cancel_right]
      exact ⟨hm.ge, fun _ => by omega⟩
  · refine ⟨ha, hb, fun hlt => ⟨hc hlt, fun hm => ?_⟩, fun hgt => ?_⟩
    · by_contra hne
      exact h ⟨hlt, by omega, (compareRat_eq_eq hv _).mpr hm⟩
    · obtain ⟨q, _, hq, hq'⟩ := hd hgt
      rw [show r - 1 = q by omega]
      exact ⟨hq'.le, fun hm => absurd hm hq'.ne'⟩

/-- A sum stands for the sum. -/
theorem toReal_sumVal (vs : List Val) : (sumVal exactArith vs).toReal = (vs.map Val.toReal).sum := by
  have key : ∀ (l : List Val) (a : Val), (l.foldl Exact.add a).toReal = a.toReal + (l.map Val.toReal).sum := by
    intro l
    induction l with
    | nil => intro a; simp
    | cons v l ih => intro a; rw [List.foldl_cons, ih, toReal_add, List.map_cons, List.sum_cons, add_assoc]
  have := key vs Val.zero
  rwa [toReal_zero, zero_add] at this

theorem foldl_max_ge (vs : List Val) (a : Val) : a.toReal ≤ (vs.foldl Exact.max a).toReal := by
  induction vs generalizing a with
  | nil => exact le_rfl
  | cons w ws ih => exact le_trans (by rw [toReal_max]; exact le_max_left _ _) (ih _)

/-- No element of a list is above its maximum. -/
theorem le_maxVal {vs : List Val} {v : Val} (h : v ∈ vs) : v.toReal ≤ (maxVal exactArith vs).toReal := by
  have key : ∀ (l : List Val) (a : Val), v ∈ l → v.toReal ≤ (l.foldl Exact.max a).toReal := by
    intro l
    induction l with
    | nil => intro a h; cases h
    | cons w ws ih =>
      intro a h
      rcases List.mem_cons.mp h with rfl | h
      · exact le_trans (by rw [toReal_max]; exact le_max_right _ _) (foldl_max_ge ws _)
      · exact ih _ h
  cases vs with
  | nil => cases h
  | cons w ws =>
    rcases List.mem_cons.mp h with rfl | h
    · exact foldl_max_ge ws _
    · exact key ws w h

end Sys2Proof.Machine
end

