-- ==== Sys2Proof/Laws/State.lean ====
section
/-! SUPPORT. What each named update of the state does to each field, so that no later proof unfolds an update. -/

namespace Sys2Proof.Machine

/-! ### `logError` -/

@[simp] theorem logError_params (e : Err) (s : State) : (logError e s).params = s.params := rfl
@[simp] theorem logError_cfgFs (e : Err) (s : State) : (logError e s).cfgFs = s.cfgFs := rfl
@[simp] theorem logError_cfgOrder (e : Err) (s : State) : (logError e s).cfgOrder = s.cfgOrder := rfl
@[simp] theorem logError_cfgBw (e : Err) (s : State) : (logError e s).cfgBw = s.cfgBw := rfl
@[simp] theorem logError_cfgGmin (e : Err) (s : State) : (logError e s).cfgGmin = s.cfgGmin := rfl
@[simp] theorem logError_cfgGmax (e : Err) (s : State) : (logError e s).cfgGmax = s.cfgGmax := rfl
@[simp] theorem logError_cfgAlpha (e : Err) (s : State) : (logError e s).cfgAlpha = s.cfgAlpha := rfl
@[simp] theorem logError_cfgDecay (e : Err) (s : State) : (logError e s).cfgDecay = s.cfgDecay := rfl
@[simp] theorem logError_run (e : Err) (s : State) : (logError e s).run = s.run := rfl
@[simp] theorem logError_built (e : Err) (s : State) : (logError e s).built = s.built := rfl
@[simp] theorem logError_lastValid (e : Err) (s : State) : (logError e s).lastValid = s.lastValid := rfl
@[simp] theorem logError_errlog (e : Err) (s : State) : (logError e s).errlog = s.errlog ||| e.logBit := rfl
@[simp] theorem logError_band (e : Err) (s : State) : (logError e s).band = s.band := rfl
@[simp] theorem logError_bankFs (e : Err) (s : State) : (logError e s).bankFs = s.bankFs := rfl
@[simp] theorem logError_bankM (e : Err) (s : State) : (logError e s).bankM = s.bankM := rfl
@[simp] theorem logError_bankN (e : Err) (s : State) : (logError e s).bankN = s.bankN := rfl
@[simp] theorem logError_bankBw (e : Err) (s : State) : (logError e s).bankBw = s.bankBw := rfl
@[simp] theorem logError_bank (e : Err) (s : State) : (logError e s).bank = s.bank := rfl
@[simp] theorem logError_tail (e : Err) (s : State) : (logError e s).tail = s.tail := rfl
@[simp] theorem logError_lastLen (e : Err) (s : State) : (logError e s).lastLen = s.lastLen := rfl
@[simp] theorem logError_last (e : Err) (s : State) : (logError e s).last = s.last := rfl
@[simp] theorem logError_level (e : Err) (s : State) : (logError e s).level = s.level := rfl
@[simp] theorem logError_peak (e : Err) (s : State) : (logError e s).peak = s.peak := rfl
@[simp] theorem logError_ports (e : Err) (s : State) : (logError e s).ports = s.ports := rfl
@[simp] theorem logError_active (e : Err) (s : State) : (logError e s).active = s.active := rfl
@[simp] theorem logError_grants (e : Err) (s : State) : (logError e s).grants = s.grants := rfl
@[simp] theorem logError_taken (e : Err) (s : State) : (logError e s).taken = s.taken := rfl
@[simp] theorem logError_rst (e : Err) (s : State) : (logError e s).rst = s.rst := rfl

/-! ### `putResponse` -/

@[simp] theorem putResponse_params (q : Nat) (ws : List Word) (s : State) :
    (putResponse q ws s).params = s.params := rfl
@[simp] theorem putResponse_cfgFs (q : Nat) (ws : List Word) (s : State) : (putResponse q ws s).cfgFs = s.cfgFs := rfl
@[simp] theorem putResponse_cfgOrder (q : Nat) (ws : List Word) (s : State) :
    (putResponse q ws s).cfgOrder = s.cfgOrder := rfl
@[simp] theorem putResponse_cfgBw (q : Nat) (ws : List Word) (s : State) : (putResponse q ws s).cfgBw = s.cfgBw := rfl
@[simp] theorem putResponse_cfgGmin (q : Nat) (ws : List Word) (s : State) :
    (putResponse q ws s).cfgGmin = s.cfgGmin := rfl
@[simp] theorem putResponse_cfgGmax (q : Nat) (ws : List Word) (s : State) :
    (putResponse q ws s).cfgGmax = s.cfgGmax := rfl
@[simp] theorem putResponse_cfgAlpha (q : Nat) (ws : List Word) (s : State) :
    (putResponse q ws s).cfgAlpha = s.cfgAlpha := rfl
@[simp] theorem putResponse_cfgDecay (q : Nat) (ws : List Word) (s : State) :
    (putResponse q ws s).cfgDecay = s.cfgDecay := rfl
@[simp] theorem putResponse_run (q : Nat) (ws : List Word) (s : State) : (putResponse q ws s).run = s.run := rfl
@[simp] theorem putResponse_built (q : Nat) (ws : List Word) (s : State) : (putResponse q ws s).built = s.built := rfl
@[simp] theorem putResponse_lastValid (q : Nat) (ws : List Word) (s : State) :
    (putResponse q ws s).lastValid = s.lastValid := rfl
@[simp] theorem putResponse_errlog (q : Nat) (ws : List Word) (s : State) :
    (putResponse q ws s).errlog = s.errlog := rfl
@[simp] theorem putResponse_band (q : Nat) (ws : List Word) (s : State) : (putResponse q ws s).band = s.band := rfl
@[simp] theorem putResponse_bankFs (q : Nat) (ws : List Word) (s : State) :
    (putResponse q ws s).bankFs = s.bankFs := rfl
@[simp] theorem putResponse_bankM (q : Nat) (ws : List Word) (s : State) : (putResponse q ws s).bankM = s.bankM := rfl
@[simp] theorem putResponse_bankN (q : Nat) (ws : List Word) (s : State) : (putResponse q ws s).bankN = s.bankN := rfl
@[simp] theorem putResponse_bankBw (q : Nat) (ws : List Word) (s : State) :
    (putResponse q ws s).bankBw = s.bankBw := rfl
@[simp] theorem putResponse_bank (q : Nat) (ws : List Word) (s : State) : (putResponse q ws s).bank = s.bank := rfl
@[simp] theorem putResponse_tail (q : Nat) (ws : List Word) (s : State) : (putResponse q ws s).tail = s.tail := rfl
@[simp] theorem putResponse_lastLen (q : Nat) (ws : List Word) (s : State) :
    (putResponse q ws s).lastLen = s.lastLen := rfl
@[simp] theorem putResponse_last (q : Nat) (ws : List Word) (s : State) : (putResponse q ws s).last = s.last := rfl
@[simp] theorem putResponse_level (q : Nat) (ws : List Word) (s : State) : (putResponse q ws s).level = s.level := rfl
@[simp] theorem putResponse_peak (q : Nat) (ws : List Word) (s : State) : (putResponse q ws s).peak = s.peak := rfl
@[simp] theorem putResponse_ports (q : Nat) (ws : List Word) (s : State) :
    (putResponse q ws s).ports = s.ports.modify q fun p => { p with tx := p.tx ++ ws } := rfl
@[simp] theorem putResponse_active (q : Nat) (ws : List Word) (s : State) :
    (putResponse q ws s).active = s.active := rfl
@[simp] theorem putResponse_grants (q : Nat) (ws : List Word) (s : State) :
    (putResponse q ws s).grants = s.grants := rfl
@[simp] theorem putResponse_taken (q : Nat) (ws : List Word) (s : State) : (putResponse q ws s).taken = s.taken := rfl
@[simp] theorem putResponse_rst (q : Nat) (ws : List Word) (s : State) : (putResponse q ws s).rst = s.rst := rfl

/-! ### `takeFrom` -/

@[simp] theorem takeFrom_params (q : Nat) (rest : List Word) (s : State) : (takeFrom q rest s).params = s.params := rfl
@[simp] theorem takeFrom_cfgFs (q : Nat) (rest : List Word) (s : State) : (takeFrom q rest s).cfgFs = s.cfgFs := rfl
@[simp] theorem takeFrom_cfgOrder (q : Nat) (rest : List Word) (s : State) :
    (takeFrom q rest s).cfgOrder = s.cfgOrder := rfl
@[simp] theorem takeFrom_cfgBw (q : Nat) (rest : List Word) (s : State) : (takeFrom q rest s).cfgBw = s.cfgBw := rfl
@[simp] theorem takeFrom_cfgGmin (q : Nat) (rest : List Word) (s : State) :
    (takeFrom q rest s).cfgGmin = s.cfgGmin := rfl
@[simp] theorem takeFrom_cfgGmax (q : Nat) (rest : List Word) (s : State) :
    (takeFrom q rest s).cfgGmax = s.cfgGmax := rfl
@[simp] theorem takeFrom_cfgAlpha (q : Nat) (rest : List Word) (s : State) :
    (takeFrom q rest s).cfgAlpha = s.cfgAlpha := rfl
@[simp] theorem takeFrom_cfgDecay (q : Nat) (rest : List Word) (s : State) :
    (takeFrom q rest s).cfgDecay = s.cfgDecay := rfl
@[simp] theorem takeFrom_run (q : Nat) (rest : List Word) (s : State) : (takeFrom q rest s).run = s.run := rfl
@[simp] theorem takeFrom_built (q : Nat) (rest : List Word) (s : State) : (takeFrom q rest s).built = s.built := rfl
@[simp] theorem takeFrom_lastValid (q : Nat) (rest : List Word) (s : State) :
    (takeFrom q rest s).lastValid = s.lastValid := rfl
@[simp] theorem takeFrom_errlog (q : Nat) (rest : List Word) (s : State) : (takeFrom q rest s).errlog = s.errlog := rfl
@[simp] theorem takeFrom_band (q : Nat) (rest : List Word) (s : State) : (takeFrom q rest s).band = s.band := rfl
@[simp] theorem takeFrom_bankFs (q : Nat) (rest : List Word) (s : State) : (takeFrom q rest s).bankFs = s.bankFs := rfl
@[simp] theorem takeFrom_bankM (q : Nat) (rest : List Word) (s : State) : (takeFrom q rest s).bankM = s.bankM := rfl
@[simp] theorem takeFrom_bankN (q : Nat) (rest : List Word) (s : State) : (takeFrom q rest s).bankN = s.bankN := rfl
@[simp] theorem takeFrom_bankBw (q : Nat) (rest : List Word) (s : State) : (takeFrom q rest s).bankBw = s.bankBw := rfl
@[simp] theorem takeFrom_bank (q : Nat) (rest : List Word) (s : State) : (takeFrom q rest s).bank = s.bank := rfl
@[simp] theorem takeFrom_tail (q : Nat) (rest : List Word) (s : State) : (takeFrom q rest s).tail = s.tail := rfl
@[simp] theorem takeFrom_lastLen (q : Nat) (rest : List Word) (s : State) :
    (takeFrom q rest s).lastLen = s.lastLen := rfl
@[simp] theorem takeFrom_last (q : Nat) (rest : List Word) (s : State) : (takeFrom q rest s).last = s.last := rfl
@[simp] theorem takeFrom_level (q : Nat) (rest : List Word) (s : State) : (takeFrom q rest s).level = s.level := rfl
@[simp] theorem takeFrom_peak (q : Nat) (rest : List Word) (s : State) : (takeFrom q rest s).peak = s.peak := rfl
@[simp] theorem takeFrom_ports (q : Nat) (rest : List Word) (s : State) :
    (takeFrom q rest s).ports = s.ports.modify q fun p => { p with rx := rest } := rfl
@[simp] theorem takeFrom_active (q : Nat) (rest : List Word) (s : State) : (takeFrom q rest s).active = q := rfl
@[simp] theorem takeFrom_grants (q : Nat) (rest : List Word) (s : State) :
    (takeFrom q rest s).grants = s.grants.tail := rfl
@[simp] theorem takeFrom_taken (q : Nat) (rest : List Word) (s : State) : (takeFrom q rest s).taken = s.taken + 1 := rfl
@[simp] theorem takeFrom_rst (q : Nat) (rest : List Word) (s : State) : (takeFrom q rest s).rst = s.rst := rfl

/-! ### `commitBank` -/

@[simp] theorem commitBank_params (A : Arith) (s : State) : (commitBank A s).params = s.params := rfl
@[simp] theorem commitBank_cfgFs (A : Arith) (s : State) : (commitBank A s).cfgFs = s.cfgFs := rfl
@[simp] theorem commitBank_cfgOrder (A : Arith) (s : State) : (commitBank A s).cfgOrder = s.cfgOrder := rfl
@[simp] theorem commitBank_cfgBw (A : Arith) (s : State) : (commitBank A s).cfgBw = s.cfgBw := rfl
@[simp] theorem commitBank_cfgGmin (A : Arith) (s : State) : (commitBank A s).cfgGmin = s.cfgGmin := rfl
@[simp] theorem commitBank_cfgGmax (A : Arith) (s : State) : (commitBank A s).cfgGmax = s.cfgGmax := rfl
@[simp] theorem commitBank_cfgAlpha (A : Arith) (s : State) : (commitBank A s).cfgAlpha = s.cfgAlpha := rfl
@[simp] theorem commitBank_cfgDecay (A : Arith) (s : State) : (commitBank A s).cfgDecay = s.cfgDecay := rfl
@[simp] theorem commitBank_run (A : Arith) (s : State) : (commitBank A s).run = s.run := rfl
@[simp] theorem commitBank_built (A : Arith) (s : State) : (commitBank A s).built = true := rfl
@[simp] theorem commitBank_lastValid (A : Arith) (s : State) : (commitBank A s).lastValid = s.lastValid := rfl
@[simp] theorem commitBank_errlog (A : Arith) (s : State) : (commitBank A s).errlog = s.errlog := rfl
@[simp] theorem commitBank_band (A : Arith) (s : State) : (commitBank A s).band = s.band := rfl
@[simp] theorem commitBank_bankFs (A : Arith) (s : State) : (commitBank A s).bankFs = s.cfgFs := rfl
@[simp] theorem commitBank_bankM (A : Arith) (s : State) :
    (commitBank A s).bankM = BitVec.ofNat 16 (buildLength s) := rfl
@[simp] theorem commitBank_bankN (A : Arith) (s : State) :
    (commitBank A s).bankN = BitVec.ofNat 32 (buildTransform s) := rfl
@[simp] theorem commitBank_bankBw (A : Arith) (s : State) : (commitBank A s).bankBw = s.cfgBw := rfl
@[simp] theorem commitBank_bank (A : Arith) (s : State) : (commitBank A s).bank = some (buildTaps A s) := rfl
@[simp] theorem commitBank_tail (A : Arith) (s : State) : (commitBank A s).tail = zeroTail s.params := rfl
@[simp] theorem commitBank_lastLen (A : Arith) (s : State) : (commitBank A s).lastLen = s.lastLen := rfl
@[simp] theorem commitBank_last (A : Arith) (s : State) : (commitBank A s).last = s.last := rfl
@[simp] theorem commitBank_level (A : Arith) (s : State) : (commitBank A s).level = s.level := rfl
@[simp] theorem commitBank_peak (A : Arith) (s : State) : (commitBank A s).peak = s.peak := rfl
@[simp] theorem commitBank_ports (A : Arith) (s : State) : (commitBank A s).ports = s.ports := rfl
@[simp] theorem commitBank_active (A : Arith) (s : State) : (commitBank A s).active = s.active := rfl
@[simp] theorem commitBank_grants (A : Arith) (s : State) : (commitBank A s).grants = s.grants := rfl
@[simp] theorem commitBank_taken (A : Arith) (s : State) : (commitBank A s).taken = s.taken := rfl
@[simp] theorem commitBank_rst (A : Arith) (s : State) : (commitBank A s).rst = s.rst := rfl

/-! ### `dropBank` -/

@[simp] theorem dropBank_params (s : State) : (dropBank s).params = s.params := rfl
@[simp] theorem dropBank_cfgFs (s : State) : (dropBank s).cfgFs = s.cfgFs := rfl
@[simp] theorem dropBank_cfgOrder (s : State) : (dropBank s).cfgOrder = s.cfgOrder := rfl
@[simp] theorem dropBank_cfgBw (s : State) : (dropBank s).cfgBw = s.cfgBw := rfl
@[simp] theorem dropBank_cfgGmin (s : State) : (dropBank s).cfgGmin = s.cfgGmin := rfl
@[simp] theorem dropBank_cfgGmax (s : State) : (dropBank s).cfgGmax = s.cfgGmax := rfl
@[simp] theorem dropBank_cfgAlpha (s : State) : (dropBank s).cfgAlpha = s.cfgAlpha := rfl
@[simp] theorem dropBank_cfgDecay (s : State) : (dropBank s).cfgDecay = s.cfgDecay := rfl
@[simp] theorem dropBank_run (s : State) : (dropBank s).run = false := rfl
@[simp] theorem dropBank_built (s : State) : (dropBank s).built = false := rfl
@[simp] theorem dropBank_lastValid (s : State) : (dropBank s).lastValid = s.lastValid := rfl
@[simp] theorem dropBank_errlog (s : State) : (dropBank s).errlog = s.errlog := rfl
@[simp] theorem dropBank_band (s : State) : (dropBank s).band = s.band := rfl
@[simp] theorem dropBank_bankFs (s : State) : (dropBank s).bankFs = s.bankFs := rfl
@[simp] theorem dropBank_bankM (s : State) : (dropBank s).bankM = s.bankM := rfl
@[simp] theorem dropBank_bankN (s : State) : (dropBank s).bankN = s.bankN := rfl
@[simp] theorem dropBank_bankBw (s : State) : (dropBank s).bankBw = s.bankBw := rfl
@[simp] theorem dropBank_bank (s : State) : (dropBank s).bank = s.bank := rfl
@[simp] theorem dropBank_tail (s : State) : (dropBank s).tail = s.tail := rfl
@[simp] theorem dropBank_lastLen (s : State) : (dropBank s).lastLen = s.lastLen := rfl
@[simp] theorem dropBank_last (s : State) : (dropBank s).last = s.last := rfl
@[simp] theorem dropBank_level (s : State) : (dropBank s).level = s.level := rfl
@[simp] theorem dropBank_peak (s : State) : (dropBank s).peak = s.peak := rfl
@[simp] theorem dropBank_ports (s : State) : (dropBank s).ports = s.ports := rfl
@[simp] theorem dropBank_active (s : State) : (dropBank s).active = s.active := rfl
@[simp] theorem dropBank_grants (s : State) : (dropBank s).grants = s.grants := rfl
@[simp] theorem dropBank_taken (s : State) : (dropBank s).taken = s.taken := rfl
@[simp] theorem dropBank_rst (s : State) : (dropBank s).rst = s.rst := rfl

/-! ### `writeGain` -/

@[simp] theorem writeGain_params (A : Arith) (b : BandIx) (g : Int) (s : State) :
    (writeGain A b g s).params = s.params := rfl
@[simp] theorem writeGain_cfgFs (A : Arith) (b : BandIx) (g : Int) (s : State) :
    (writeGain A b g s).cfgFs = s.cfgFs := rfl
@[simp] theorem writeGain_cfgOrder (A : Arith) (b : BandIx) (g : Int) (s : State) :
    (writeGain A b g s).cfgOrder = s.cfgOrder := rfl
@[simp] theorem writeGain_cfgBw (A : Arith) (b : BandIx) (g : Int) (s : State) :
    (writeGain A b g s).cfgBw = s.cfgBw := rfl
@[simp] theorem writeGain_cfgGmin (A : Arith) (b : BandIx) (g : Int) (s : State) :
    (writeGain A b g s).cfgGmin = s.cfgGmin := rfl
@[simp] theorem writeGain_cfgGmax (A : Arith) (b : BandIx) (g : Int) (s : State) :
    (writeGain A b g s).cfgGmax = s.cfgGmax := rfl
@[simp] theorem writeGain_cfgAlpha (A : Arith) (b : BandIx) (g : Int) (s : State) :
    (writeGain A b g s).cfgAlpha = s.cfgAlpha := rfl
@[simp] theorem writeGain_cfgDecay (A : Arith) (b : BandIx) (g : Int) (s : State) :
    (writeGain A b g s).cfgDecay = s.cfgDecay := rfl
@[simp] theorem writeGain_run (A : Arith) (b : BandIx) (g : Int) (s : State) : (writeGain A b g s).run = s.run := rfl
@[simp] theorem writeGain_built (A : Arith) (b : BandIx) (g : Int) (s : State) :
    (writeGain A b g s).built = s.built := rfl
@[simp] theorem writeGain_lastValid (A : Arith) (b : BandIx) (g : Int) (s : State) :
    (writeGain A b g s).lastValid = s.lastValid := rfl
@[simp] theorem writeGain_errlog (A : Arith) (b : BandIx) (g : Int) (s : State) :
    (writeGain A b g s).errlog = s.errlog := rfl
@[simp] theorem writeGain_band (A : Arith) (b : BandIx) (g : Int) (s : State) :
    (writeGain A b g s).band = s.band.set b { s.band.get b with gdb := BitVec.ofInt 16 g, lin := A.db2lin g } := rfl
@[simp] theorem writeGain_bankFs (A : Arith) (b : BandIx) (g : Int) (s : State) :
    (writeGain A b g s).bankFs = s.bankFs := rfl
@[simp] theorem writeGain_bankM (A : Arith) (b : BandIx) (g : Int) (s : State) :
    (writeGain A b g s).bankM = s.bankM := rfl
@[simp] theorem writeGain_bankN (A : Arith) (b : BandIx) (g : Int) (s : State) :
    (writeGain A b g s).bankN = s.bankN := rfl
@[simp] theorem writeGain_bankBw (A : Arith) (b : BandIx) (g : Int) (s : State) :
    (writeGain A b g s).bankBw = s.bankBw := rfl
@[simp] theorem writeGain_bank (A : Arith) (b : BandIx) (g : Int) (s : State) : (writeGain A b g s).bank = s.bank := rfl
@[simp] theorem writeGain_tail (A : Arith) (b : BandIx) (g : Int) (s : State) : (writeGain A b g s).tail = s.tail := rfl
@[simp] theorem writeGain_lastLen (A : Arith) (b : BandIx) (g : Int) (s : State) :
    (writeGain A b g s).lastLen = s.lastLen := rfl
@[simp] theorem writeGain_last (A : Arith) (b : BandIx) (g : Int) (s : State) : (writeGain A b g s).last = s.last := rfl
@[simp] theorem writeGain_level (A : Arith) (b : BandIx) (g : Int) (s : State) :
    (writeGain A b g s).level = s.level := rfl
@[simp] theorem writeGain_peak (A : Arith) (b : BandIx) (g : Int) (s : State) : (writeGain A b g s).peak = s.peak := rfl
@[simp] theorem writeGain_ports (A : Arith) (b : BandIx) (g : Int) (s : State) :
    (writeGain A b g s).ports = s.ports := rfl
@[simp] theorem writeGain_active (A : Arith) (b : BandIx) (g : Int) (s : State) :
    (writeGain A b g s).active = s.active := rfl
@[simp] theorem writeGain_grants (A : Arith) (b : BandIx) (g : Int) (s : State) :
    (writeGain A b g s).grants = s.grants := rfl
@[simp] theorem writeGain_taken (A : Arith) (b : BandIx) (g : Int) (s : State) :
    (writeGain A b g s).taken = s.taken := rfl
@[simp] theorem writeGain_rst (A : Arith) (b : BandIx) (g : Int) (s : State) : (writeGain A b g s).rst = s.rst := rfl

/-! ### Reset -/

@[simp] theorem applyReset_params (s : State) : (applyReset s).params = s.params := rfl
@[simp] theorem applyReset_grants (s : State) : (applyReset s).grants = s.grants := rfl
@[simp] theorem applyReset_taken (s : State) : (applyReset s).taken = s.taken := rfl
@[simp] theorem applyReset_rst (s : State) : (applyReset s).rst = false := rfl

end Sys2Proof.Machine
end

