-- ==== Sys2Proof/Laws/Words.lean ====
section
/-! SUPPORT. The fields of words as numbers: what each header field, each header and each response header is in terms of
`toNat`. -/

namespace Sys2Proof

theorem toNat_append_eq {m n : Nat} (x : BitVec m) (y : BitVec n) : (x ++ y).toNat = x.toNat * 2 ^ n + y.toNat := by
  rw [BitVec.toNat_append, ← Nat.shiftLeft_add_eq_or_of_lt y.isLt, Nat.shiftLeft_eq]

theorem toNat_field {w : Nat} (c : BitVec w) (start len : Nat) :
    (c.extractLsb' start len).toNat = c.toNat / 2 ^ start % 2 ^ len := by
  rw [BitVec.extractLsb'_toNat, Nat.shiftRight_eq_div_pow]

theorem field_eq_zero_iff {w : Nat} (c : BitVec w) (start len : Nat) :
    c.extractLsb' start len = 0 ↔ c.toNat / 2 ^ start % 2 ^ len = 0 := by
  rw [← BitVec.toNat_inj, toNat_field]
  simp

theorem bit_eq_decide {w : Nat} (c : BitVec w) (k : Nat) : c.getLsbD k = decide (c.toNat / 2 ^ k % 2 = 1) := by
  rw [BitVec.getLsbD, Nat.testBit_eq_decide_div_mod_eq]

theorem toNat_ofBool (b : Bool) : (BitVec.ofBool b).toNat = b.toNat := by cases b <;> rfl

theorem toNat_opField (c : Word) : (opField c).toNat = c.toNat / 2 ^ 24 := by
  have := c.isLt
  rw [opField, toNat_field]
  omega

theorem toNat_lowField (c : Word) : (lowField c).toNat = c.toNat % 2 ^ 16 := by
  rw [lowField, toNat_field]
  omega

theorem lowField_eq_zero_iff (c : Word) : lowField c = 0 ↔ c.toNat % 2 ^ 16 = 0 := by
  rw [← BitVec.toNat_inj, toNat_lowField]
  simp

theorem toNat_bandField (c : Word) : (bandField c).toNat = c.toNat / 2 ^ 16 % 8 := toNat_field ..

theorem toNat_addrField (c : Word) : (addrField c).toNat = c.toNat / 2 ^ 16 % 2 ^ 8 := toNat_field ..

theorem sourceBit_eq (c : Word) : sourceBit c = decide (c.toNat / 2 ^ 16 % 2 = 1) := bit_eq_decide ..

theorem toNat_headerZ (op : BitVec 8) : (headerZ op).toNat = op.toNat * 2 ^ 24 := by
  rw [headerZ, toNat_append_eq]
  simp

theorem toNat_headerG (op : BitVec 8) (b : BandIx) (v : BitVec 16) :
    (headerG op b v).toNat = op.toNat * 2 ^ 24 + b.val * 2 ^ 16 + v.toNat := by
  have := b.isLt
  simp only [headerG, toNat_append_eq, BitVec.toNat_ofNat]
  omega

theorem toNat_headerN (op : BitVec 8) (s : BitVec 1) (n : BitVec 16) :
    (headerN op s n).toNat = op.toNat * 2 ^ 24 + s.toNat * 2 ^ 16 + n.toNat := by
  simp only [headerN, toNat_append_eq, BitVec.toNat_ofNat]
  omega

theorem toNat_headerR (op : BitVec 8) (a : BitVec 8) :
    (headerR op a).toNat = op.toNat * 2 ^ 24 + a.toNat * 2 ^ 16 := by
  simp only [headerR, toNat_append_eq, BitVec.toNat_ofNat]
  omega

namespace Machine

theorem toNat_responseHeader (op : BitVec 8) (code aux : BitVec 4) (cnt : BitVec 16) :
    (responseHeader op code aux cnt).toNat =
      op.toNat * 2 ^ 24 + code.toNat * 2 ^ 20 + aux.toNat * 2 ^ 16 + cnt.toNat := by
  simp only [responseHeader, toNat_append_eq]
  omega

/-- The fields of a response header are those it was made of. -/
theorem responseHeader_inj {op op' : BitVec 8} {code code' aux aux' : BitVec 4} {cnt cnt' : BitVec 16}
    (h : responseHeader op code aux cnt = responseHeader op' code' aux' cnt') :
    op = op' ∧ code = code' ∧ aux = aux' ∧ cnt = cnt' := by
  have h' := congrArg BitVec.toNat h
  rw [toNat_responseHeader, toNat_responseHeader] at h'
  have := code.isLt; have := code'.isLt; have := aux.isLt; have := aux'.isLt; have := cnt.isLt; have := cnt'.isLt
  refine ⟨BitVec.eq_of_toNat_eq ?_, BitVec.eq_of_toNat_eq ?_, BitVec.eq_of_toNat_eq ?_, BitVec.eq_of_toNat_eq ?_⟩ <;> omega

/-- A sample word is not finite exactly when its exponent field is 255. -/
theorem nonFinite_iff (w : Word) : nonFinite w = true ↔ w.toNat / 2 ^ 23 % 2 ^ 8 = 255 := by
  rw [nonFinite, beq_iff_eq, ← BitVec.toNat_inj, toNat_field]
  simp

theorem payloadNonFinite_iff (ws : List Word) :
    payloadNonFinite ws = true ↔ ∃ w ∈ ws, w.toNat / 2 ^ 23 % 2 ^ 8 = 255 := by
  simp only [payloadNonFinite, List.any_eq_true, nonFinite_iff]

theorem payloadNonFinite_eq_false_iff (ws : List Word) :
    payloadNonFinite ws = false ↔ ∀ w ∈ ws, w.toNat / 2 ^ 23 % 2 ^ 8 ≠ 255 := by
  rw [← Bool.not_eq_true, payloadNonFinite_iff]
  push Not
  rfl

end Machine

end Sys2Proof
end

