-- ==== Sys2Proof/Laws/Ops.lean ====
section
/-! SUPPORT. What each shared operation can do, said once: the five-fold record, responses and errors, the register
space, the arbiter, and the step itself. -/

namespace Sys2Proof

namespace PerBand

variable {α β : Type}

@[simp] theorem get_set_same (x : PerBand α) (b : BandIx) (v : α) : (x.set b v).get b = v := by
  fin_cases b <;> rfl

theorem get_set_other (x : PerBand α) {b b' : BandIx} (v : α) (h : b' ≠ b) : (x.set b v).get b' = x.get b' := by
  fin_cases b <;> fin_cases b' <;> first | rfl | exact absurd rfl h

@[simp] theorem get_build (f : BandIx → α) (b : BandIx) : (build f).get b = f b := by
  fin_cases b <;> rfl

theorem ext_get {x y : PerBand α} (h : ∀ b, x.get b = y.get b) : x = y := by
  have h0 := h 0; have h1 := h 1; have h2 := h 2; have h3 := h 3; have h4 := h 4
  cases x; cases y
  simp only [get] at h0 h1 h2 h3 h4
  simp_all

end PerBand

namespace Machine

/-! ### Responses and errors -/

/-- A successful end: the state given, with one response packet on the port served. -/
theorem respond_next {op : BitVec 8} {aux : BitVec 4} {cnt : BitVec 16} {ws : List Word} {s t : State}
    (h : respond op aux cnt ws s = .next t) : t = putResponse s.active (responseHeader op 0 aux cnt :: ws) s := by
  cases h; rfl

/-- An error: the state given with the log bit set, and one response word. -/
theorem raise_next {op : BitVec 8} {e : Err} {aux : BitVec 4} {s t : State} (h : raise op e aux s = .next t) :
    t = putResponse s.active [responseHeader op e.code aux 0] (logError e s) := by
  cases h; rfl

/-! ### Lists of channels and words -/

@[simp] theorem length_channelsOf (nch n : Nat) (ws : List Word) : (channelsOf nch n ws).length = nch := by
  simp [channelsOf]

theorem channelsOf_getD {nch n c : Nat} (ws : List Word) (hc : c < nch) :
    (channelsOf nch n ws).getD c [] = (List.range n).map fun t => decVal (ws.getD (t * nch + c) 0) := by
  simp [channelsOf, List.getD_eq_getElem?_getD, List.getElem?_map, List.getElem?_range hc]

theorem length_payloadOf (nch n : Nat) (word : Nat → Nat → Word) : (payloadOf nch n word).length = n * nch := by
  simp [payloadOf, List.length_flatMap]

/-- Only the words in range matter. -/
theorem payloadOf_congr {nch n : Nat} {f g : Nat → Nat → Word} (h : ∀ c t, c < nch → t < n → f c t = g c t) :
    payloadOf nch n f = payloadOf nch n g := by
  unfold payloadOf
  rw [List.flatMap_def, List.flatMap_def]
  congr 1
  refine List.map_congr_left fun t ht => List.map_congr_left fun c hc => h c t ?_ ?_
  · simpa using hc
  · simpa using ht

/-! ### The arbiter and the step -/

theorem mem_readyPorts {s : State} {q : Nat} :
    q ∈ readyPorts s ↔ q < s.ports.length ∧ arrivalAt s q ≠ .waiting := by
  simp [readyPorts]

/-- The port served is one that is ready. -/
theorem nextPort_mem {s : State} {q : Nat} (h : nextPort s = some q) : q ∈ readyPorts s := by
  unfold nextPort at h
  split at h
  · cases h
  · next h' => cases h; rw [h']; exact List.mem_cons_self
  · next h' => rw [h']; exact List.mem_of_getElem? h

theorem nextPort_eq_none_iff {s : State} : nextPort s = none ↔ readyPorts s = [] := by
  constructor
  · intro h
    unfold nextPort at h
    split at h
    · next h' => exact h'
    · cases h
    · next q q' qs _ =>
      rw [List.getElem?_eq_none_iff] at h
      exact absurd h (Nat.not_le.mpr (Nat.mod_lt _ (by simp)))
  · intro h
    unfold nextPort
    rw [h]

/-- Everything a step that goes on can be: the reset, a wait, a command, an illegal header. -/
theorem step_cases {s t : State} (h : step s = .next t) :
    (s.rst = true ∧ t = applyReset s) ∨
    (s.rst = false ∧ t = s) ∨
    (s.rst = false ∧ ∃ q i rest, nextPort s = some q ∧ q < s.ports.length ∧ decode s.params (rxOf s q) = .ok (i, rest) ∧
      exec i (takeFrom q rest s) = .next t) ∨
    (s.rst = false ∧ ∃ q op rest, nextPort s = some q ∧ q < s.ports.length ∧ arrivalAt s q = .illegal op rest ∧
      t = putResponse q [responseHeader op 6 0 0] (logError .illegalCommand (takeFrom q rest s))) := by
  unfold step at h
  split at h
  · next hr => cases h; exact .inl ⟨hr, rfl⟩
  · next hr =>
    have hr : s.rst = false := by simpa using hr
    split at h
    · cases h; exact .inr (.inl ⟨hr, rfl⟩)
    · next q hq =>
      have hlt := (mem_readyPorts.mp (nextPort_mem hq)).1
      split at h
      · cases h; exact .inr (.inl ⟨hr, rfl⟩)
      · next i rest ha =>
        refine .inr (.inr (.inl ⟨hr, q, i, rest, hq, hlt, ?_, h⟩))
        unfold arrivalAt arrivalOf at ha
        split at ha <;> first | (cases ha; assumption) | cases ha
      · next op rest ha =>
        refine .inr (.inr (.inr ⟨hr, q, op, rest, hq, hlt, ha, ?_⟩))
        exact raise_next h

/-! ### What each command can do -/

theorem execBuild_cases {s t : State} (h : execBuild s = .next t) :
    (firstBandFault s = none ∧ t = putResponse s.active [0x01000000] (commitBank exactArith s)) ∨
    (∃ b e, firstBandFault s = some (b, e) ∧
      t = putResponse s.active [responseHeader 0x01 e.code (BitVec.ofNat 4 b.val) 0] (logError e (dropBank s))) := by
  unfold execBuild buildWith at h
  split at h
  · next b e he => exact .inr ⟨b, e, he, raise_next h⟩
  · next he => exact .inl ⟨he, respond_next h⟩

theorem execStart_cases {s t : State} (h : execStart s = .next t) :
    (s.built = true ∧ t = putResponse s.active [0x02000000] { s with run := true }) ∨
    (s.built = false ∧ t = putResponse s.active [0x02200000] (logError .filterBankConfig s)) := by
  unfold execStart at h
  split at h
  · next hb => exact .inl ⟨hb, respond_next h⟩
  · next hb => exact .inr ⟨by simpa using hb, raise_next h⟩

theorem execStop_next {s t : State} (h : execStop s = .next t) :
    t = putResponse s.active [0x03000000] { s with run := false } := respond_next h

theorem execSetgain_cases {b : BandIx} {v : BitVec 16} {s t : State} (h : execSetgain b v s = .next t) :
    (clampGain s (gainCode v) = gainCode v ∧
      t = putResponse s.active [0x04000000] (writeGain exactArith b (clampGain s (gainCode v)) s)) ∨
    (clampGain s (gainCode v) ≠ gainCode v ∧
      t = putResponse s.active [0x04080000]
        (logError .invalidGain (writeGain exactArith b (clampGain s (gainCode v)) s))) := by
  unfold execSetgain setgainWith at h
  dsimp only at h
  split at h
  · next hg => exact .inl ⟨hg, respond_next h⟩
  · next hg => exact .inr ⟨hg, respond_next h⟩

theorem execSetmute_next {b : BandIx} {m : Bool} {s t : State} (h : execSetmute b m s = .next t) :
    t = putResponse s.active [0x05000000] { s with band := s.band.set b { s.band.get b with mute := m } } :=
  respond_next h

/-- `PROC` over any arithmetic: an error, or the chunk is processed. -/
theorem procWith_cases {A : Arith} {n : BitVec 16} {ws : List Word} {s t : State} (h : procWith A n ws s = .next t) :
    (payloadNonFinite ws = true ∧ t = putResponse s.active [0x06600000] (logError .illegalCommand s)) ∨
    (payloadNonFinite ws = false ∧ s.run = false ∧
      t = putResponse s.active [0x06400000] (logError .notProcessing s)) ∨
    (payloadNonFinite ws = false ∧ s.run = true ∧ n = 0 ∧
      t = putResponse s.active [0x06500000] (logError .emptyChunk s)) ∨
    (payloadNonFinite ws = false ∧ s.run = true ∧ n ≠ 0 ∧ ∃ bank, s.bank = some bank ∧
      commitChunk A bank n ws s = .next t) := by
  unfold procWith at h
  split at h
  · next h1 => exact .inl ⟨h1, raise_next h⟩
  · next h1 =>
    have h1 : payloadNonFinite ws = false := by simpa using h1
    split at h
    · next h2 => exact .inr (.inl ⟨h1, by simpa using h2, raise_next h⟩)
    · next h2 =>
      have h2 : s.run = true := by simpa using h2
      split at h
      · next h3 => exact .inr (.inr (.inl ⟨h1, h2, h3, raise_next h⟩))
      · next h3 =>
        split at h
        · cases h
        · next bank hb => exact .inr (.inr (.inr ⟨h1, h2, h3, bank, hb, h⟩))

theorem execGetlast_cases {s t : State} (h : execGetlast s = .next t) :
    (s.lastValid = false ∧ t = putResponse s.active [0x08040000] s) ∨
    (s.lastValid = true ∧ ∃ chunk, s.last = some chunk ∧
      t = putResponse s.active (responseHeader 0x08 0 0 s.lastLen ::
        payloadOf s.params.nch s.lastLen.toNat fun c t => enc32 (sampleAt chunk c t)) s) := by
  unfold execGetlast getlastWith at h
  split at h
  · next h1 =>
    split at h
    · cases h
    · next chunk hc => exact .inr ⟨h1, chunk, hc, respond_next h⟩
  · next h1 => exact .inl ⟨by simpa using h1, respond_next h⟩

/-- `ANLZ` over any arithmetic: an error, or the chunk is analysed. -/
theorem anlzWith_cases {A : Arith} {n : BitVec 16} {ws : List Word} {s t : State} (h : anlzWith A n ws s = .next t) :
    (payloadNonFinite ws = true ∧ t = putResponse s.active [0x07600000] (logError .illegalCommand s)) ∨
    (payloadNonFinite ws = false ∧ n = 0 ∧ t = putResponse s.active [0x07500000] (logError .emptyChunk s)) ∨
    (payloadNonFinite ws = false ∧ n ≠ 0 ∧
      analyseChunk A n.toNat (channelsOf s.params.nch n.toNat ws) s = .next t) := by
  unfold anlzWith at h
  split at h
  · next h1 => exact .inl ⟨h1, raise_next h⟩
  · next h1 =>
    have h1 : payloadNonFinite ws = false := by simpa using h1
    split at h
    · next h2 => exact .inr (.inl ⟨h1, h2, raise_next h⟩)
    · next h2 => exact .inr (.inr ⟨h1, h2, h⟩)

theorem execAnlzl_cases {s t : State} (h : execAnlzl s = .next t) :
    (s.lastValid = false ∧ t = putResponse s.active [0x07500000] (logError .emptyChunk s)) ∨
    (s.lastValid = true ∧ ∃ chunk, s.last = some chunk ∧ analyseChunk exactArith s.lastLen.toNat chunk s = .next t) := by
  unfold execAnlzl anlzlWith at h
  split at h
  · next h1 =>
    split at h
    · cases h
    · next chunk hc => exact .inr ⟨h1, chunk, hc, h⟩
  · next h1 => exact .inl ⟨by simpa using h1, raise_next h⟩

/-- An analysis changes the levels and the peaks only. -/
theorem analyseChunk_next {A : Arith} {n : Nat} {u : List (List Val)} {s t : State}
    (h : analyseChunk A n u s = .next t) :
    ∃ level peak, level = nextLevel A (chunkNorm A s.params s.cfgFs.toNat n u) s ∧ peak = nextPeak A level s ∧
      t = putResponse s.active (responseHeader 0x07 0 0 (BitVec.ofNat 16 s.params.na) :: frameWords A level peak)
        { s with level := level, peak := peak } :=
  ⟨_, _, rfl, rfl, respond_next h⟩

theorem execGetframe_next {s t : State} (h : execGetframe s = .next t) :
    t = putResponse s.active
      (responseHeader 0x09 0 0 (BitVec.ofNat 16 s.params.na) :: frameWords exactArith s.level s.peak) s :=
  respond_next h

theorem execWrcfg_cases {a : BitVec 8} {v : Word} {s t : State} (h : execWrcfg a v s = .next t) :
    (∃ r, regAt a = some r ∧ r.writable = true ∧ legalValue s v r = true ∧
      t = putResponse s.active [0x0A000000] (regWrite v s r)) ∨
    t = putResponse s.active [0x0A600000] (logError .illegalCommand s) := by
  unfold execWrcfg at h
  split at h
  · exact .inr (raise_next h)
  · next r hr =>
    unfold writableAt at hr
    obtain ⟨hr1, hr2⟩ := Option.filter_eq_some_iff.mp hr
    split at h
    · next hl =>
      refine .inl ⟨r, hr1, hr2, hl, ?_⟩
      have := respond_next h
      rw [this]
      cases r <;> rfl
    · exact .inr (raise_next h)

theorem execRdreg_cases {a : BitVec 8} {s t : State} (h : execRdreg a s = .next t) :
    (∃ r, regAt a = some r ∧ t = putResponse s.active [0x0B000001, regRead s r] s) ∨
    (regAt a = none ∧ t = putResponse s.active [0x0B600000] (logError .illegalCommand s)) := by
  unfold execRdreg at h
  split at h
  · next hr => exact .inr ⟨hr, raise_next h⟩
  · next r hr => exact .inl ⟨r, hr, respond_next h⟩

end Machine

end Sys2Proof
end

