-- ==== Sys2Proof/Laws/PerInstr.lean ====
section
/-! SUPPORT. Statements for all commands, made command by command: the header of a command's packet carries its
opcode (R91, R94). -/

namespace Sys2Proof.Laws.HeaderOpcode

/-- The packet of `i` begins with a header whose opcode field is the opcode of `i`. -/
def Statement (i : Instr) : Prop := opField ((encode i).headD 0) = i.opcode

theorem opField_of_toNat {c : Word} {op : BitVec 8} (h : c.toNat / 2 ^ 24 = op.toNat) : opField c = op :=
  BitVec.eq_of_toNat_eq (by rw [toNat_opField, h])

theorem build : Statement .build := rfl

theorem start : Statement .start := rfl

theorem stop : Statement .stop := rfl

theorem setgain (b : BandIx) (v : BitVec 16) : Statement (.setgain b v) := by
  refine opField_of_toNat ?_
  have := b.isLt
  have := v.isLt
  simp only [encode, List.headD_cons, toNat_headerG, Instr.opcode]
  omega

theorem setmute (b : BandIx) (m : Bool) : Statement (.setmute b m) := by
  refine opField_of_toNat ?_
  have := b.isLt
  have := (0#15 ++ BitVec.ofBool m).isLt
  simp only [encode, List.headD_cons, toNat_headerG, Instr.opcode]
  omega

theorem proc (n : BitVec 16) (payload : List Word) : Statement (.proc n payload) := by
  refine opField_of_toNat ?_
  have := n.isLt
  have : (0 : BitVec 1).toNat = 0 := rfl
  simp only [encode, List.headD_cons, toNat_headerN, Instr.opcode]
  omega

theorem anlz (n : BitVec 16) (payload : List Word) : Statement (.anlz n payload) := by
  refine opField_of_toNat ?_
  have := n.isLt
  have : (0 : BitVec 1).toNat = 0 := rfl
  simp only [encode, List.headD_cons, toNat_headerN, Instr.opcode]
  omega

theorem anlzl : Statement .anlzl := rfl

theorem getlast : Statement .getlast := rfl

theorem getframe : Statement .getframe := rfl

theorem wrcfg (a : BitVec 8) (v : Word) : Statement (.wrcfg a v) := by
  refine opField_of_toNat ?_
  have := a.isLt
  simp only [encode, List.headD_cons, toNat_headerR, Instr.opcode]
  omega

theorem rdreg (a : BitVec 8) : Statement (.rdreg a) := by
  refine opField_of_toNat ?_
  have := a.isLt
  simp only [encode, List.headD_cons, toNat_headerR, Instr.opcode]
  omega

end Sys2Proof.Laws.HeaderOpcode
end

