-- ==== Sys2Proof/Laws/Stream.lean ====
section
/-! SUPPORT. The band signal, the overlapped output and the tail of the reference arithmetic, in real numbers. -/

namespace Sys2Proof.Machine

theorem toReal_getD_of_length_le {v : List Val} {k : Nat} (h : v.length ≤ k) : (v.getD k Val.zero).toReal = 0 := by
  rw [List.getD_eq_getElem?_getD, List.getElem?_eq_none h]
  simp

/-- The sum a band signal takes is over every tap whose sample exists, so it is the causal convolution. -/
theorem toReal_bandSignal (h x : List Val) (t : Nat) : (bandSignal exactArith h x t).toReal = streamConv h x t := by
  have range_sum : ∀ (f : ℕ → ℝ) (a n : ℕ), ((List.range' a n).map f).sum = ∑ j ∈ Finset.Ico a (a + n), f j := by
    intro f a n
    induction n generalizing a with
    | zero => simp
    | succ n ih =>
      rw [List.range'_succ, List.map_cons, List.sum_cons, ih,
        Finset.sum_eq_sum_Ico_succ_bot (show a < a + (n + 1) by omega)]
      congr 3
      omega
  unfold bandSignal streamConv
  dsimp only
  rw [toReal_sumVal, List.map_map]
  have e : (Val.toReal ∘ fun j => exactArith.mul (h.getD j Val.zero) (x.getD (t - j) Val.zero)) =
      fun j => (h.getD j Val.zero).toReal * (x.getD (t - j) Val.zero).toReal := by
    funext j
    exact toReal_mul _ _
  rw [e, range_sum, ← Finset.sum_filter]
  by_cases hle : t + 1 - x.length ≤ min (t + 1) h.length
  · rw [Nat.add_sub_cancel' hle]
    refine Finset.sum_subset (fun j hj => ?_) (fun j hj hj' => ?_)
    · simp at hj ⊢
      omega
    · simp at hj hj'
      rw [toReal_getD_of_length_le (v := x) (by omega), mul_zero]
  · rw [show min (t + 1) h.length - (t + 1 - x.length) = 0 by omega]
    simp only [Nat.add_zero, Finset.Ico_self, Finset.sum_empty]
    refine (Finset.sum_eq_zero fun j hj => ?_).symm
    simp at hj
    rw [toReal_getD_of_length_le (v := x) (by omega), mul_zero]

theorem toReal_overlapOut (h x row : List Val) (t : Nat) :
    (overlapOut exactArith h x row t).toReal =
      streamConv h x t + if t < h.length - 1 then (row.getD t Val.zero).toReal else 0 := by
  have : (overlapOut exactArith h x row t).toReal =
      (Exact.add (bandSignal exactArith h x t) (if t < h.length - 1 then row.getD t Val.zero else Val.zero)).toReal := rfl
  rw [this, toReal_add, toReal_bandSignal]
  split <;> simp

@[simp] theorem length_overlapTail (A : Arith) (mmax : Nat) (h x row : List Val) :
    (overlapTail A mmax h x row).length = mmax - 1 := by
  simp [overlapTail]

/-- The convolution of a stream is that of its beginning, and past its beginning that of its rest besides. -/
theorem streamConv_append (h x y : List Val) (T : Nat) :
    streamConv h (x ++ y) T =
      if T < x.length then streamConv h x T else streamConv h x T + streamConv h y (T - x.length) := by
  unfold streamConv
  split
  · next hT =>
    refine Finset.sum_congr rfl fun j _ => ?_
    split
    · rw [List.getD_append _ _ _ _ (by omega)]
    · rfl
  · next hT =>
    rw [← Finset.sum_add_distrib]
    refine Finset.sum_congr rfl fun j _ => ?_
    by_cases hj : j ≤ T
    · by_cases hj2 : T - j < x.length
      · simp only [if_pos hj, if_neg (show ¬ j ≤ T - x.length by omega), List.getD_append _ _ _ _ hj2, add_zero]
      · simp only [if_pos hj, if_pos (show j ≤ T - x.length by omega), List.getD_append_right _ _ _ _ (by omega : x.length ≤ T - j),
          toReal_getD_of_length_le (v := x) (by omega : x.length ≤ T - j), mul_zero, zero_add,
          show T - j - x.length = T - x.length - j by omega]
    · simp only [if_neg hj, if_neg (show ¬ j ≤ T - x.length by omega), add_zero]

end Sys2Proof.Machine
end

