-- ==== Sys2Proof/Machine/Script.lean ====
section
/-! DEFINITION. Command scripts, the textual form of command packets (R107), and the pseudo-commands (R108). The host
turns a script into packets; the block sees only their words. -/

namespace Sys2Proof.Machine

/-! ### Pseudo-commands -/

/-- A pseudo-command (R108). -/
inductive Pseudo where
  /-- `GAINDB b, x`: `x` in dB, a multiple of 1/256. -/
  | gaindb (b : BandIx) (x : Rat)
  /-- `MUTE b`. -/
  | mute (b : BandIx)
  /-- `UNMUTE b`. -/
  | unmute (b : BandIx)
  /-- `SETFS v`. -/
  | setfs (v : Word)
  /-- `REBUILD fs, bw0, bw1, bw2, bw3, bw4`. -/
  | rebuild (fs : Word) (bw : PerBand Word)
  deriving DecidableEq, Repr

/-- `code = (256·x) mod 65536`, for `x` a multiple of 1/256 in -128..127.99609375 (R108). -/
def gainOfDb (x : Rat) : Option (BitVec 16) :=
  let y := 256 * x
  if y.den = 1 ∧ -32768 ≤ y.num ∧ y.num ≤ 32767 then some (BitVec.ofInt 16 y.num) else none

/-- The commands a pseudo-command stands for (R108). -/
def Pseudo.expand : Pseudo → Option (List Instr)
  | .gaindb b x => (gainOfDb x).map fun v => [.setgain b v]
  | .mute b => some [.setmute b true]
  | .unmute b => some [.setmute b false]
  | .setfs v => some [.wrcfg 0x02 v]
  | .rebuild fs bw => some [.wrcfg 0x02 fs, .wrcfg 0x04 bw.b0, .wrcfg 0x05 bw.b1, .wrcfg 0x06 bw.b2,
      .wrcfg 0x07 bw.b3, .wrcfg 0x08 bw.b4, .build]

/-! ### Numbers and names -/

/-- The digit a character is, in a base up to 16. -/
def digitOf (base : Nat) (c : Char) : Option Nat :=
  let n := c.toNat
  let d :=
    if 48 ≤ n ∧ n ≤ 57 then n - 48
    else if 65 ≤ n ∧ n ≤ 70 then n - 55
    else if 97 ≤ n ∧ n ≤ 102 then n - 87 else 16
  if d < base then some d else none

/-- The number a list of digits is. -/
def digitsOf (base : Nat) (cs : List Char) : Option Nat :=
  if cs = [] then none else cs.foldlM (fun acc c => (digitOf base c).map fun d => acc * base + d) 0

/-- A number: decimal, or hexadecimal with `0x` (R107). -/
def numberOf : List Char → Option Nat
  | '0' :: 'x' :: cs => digitsOf 16 cs
  | cs => digitsOf 10 cs

/-- A decimal real literal without its sign. -/
def unsignedReal (cs : List Char) : Option Rat :=
  let whole := cs.takeWhile (· != '.')
  match cs.dropWhile (· != '.') with
  | [] => (digitsOf 10 whole).map fun n => (n : Rat)
  | _ :: frac => do
    let n ← digitsOf 10 (whole ++ frac)
    let _ ← digitsOf 10 whole
    let _ ← digitsOf 10 frac
    return mkRat n (10 ^ frac.length)

/-- A decimal real literal. -/
def realOf : List Char → Option Rat
  | '-' :: cs => (unsignedReal cs).map fun q => -q
  | '+' :: cs => unsignedReal cs
  | cs => unsignedReal cs

/-- A number below a bound. -/
def numberBelow (bound : Nat) (cs : List Char) : Option Nat :=
  (numberOf cs).bind fun n => if n < bound then some n else none

/-- A word. -/
def wordOf (cs : List Char) : Option Word := (numberBelow (2 ^ 32) cs).map fun n => BitVec.ofNat 32 n

/-- A payload word: a hexadecimal word, or a decimal real literal standing for its `enc32` (R107). -/
def sampleWordOf : List Char → Option Word
  | '0' :: 'x' :: cs => wordOf ('0' :: 'x' :: cs)
  | cs => (realOf cs).map fun q => enc32 (.rat q)

/-- A band index. -/
def bandOf (cs : List Char) : Option BandIx :=
  (numberOf cs).bind fun n => if h : n < 5 then some ⟨n, h⟩ else none

/-- The name of a register in a script (R62, R107). -/
def Reg.name : Reg → String
  | .status => "STATUS"
  | .errlog => "ERRLOG"
  | .cfgFs => "CFG_FS"
  | .cfgOrder => "CFG_ORDER"
  | .cfgBw b => "CFG_BW".push (Nat.digitChar b.val)
  | .cfgGmin => "CFG_GMIN"
  | .cfgGmax => "CFG_GMAX"
  | .cfgAlpha => "CFG_ALPHA"
  | .cfgDecay => "CFG_DECAY"
  | .band b => "BAND".push (Nat.digitChar b.val)
  | .bankFs => "BANK_FS"
  | .bankM => "BANK_M"
  | .bankN => "BANK_N"
  | .bankBw b => "BANK_BW".push (Nat.digitChar b.val)
  | .lastLen => "LAST_LEN"
  | .params0 => "PARAMS0"
  | .params1 => "PARAMS1"

/-- A register by its name or its address (R107). -/
def regOf (cs : List Char) : Option (BitVec 8) :=
  match numberBelow 256 cs with
  | some n => some (BitVec.ofNat 8 n)
  | none =>
    ((List.range 256).find? fun a => ((regAt (BitVec.ofNat 8 a)).map fun r => r.name.toList) == some cs).map
      fun a => BitVec.ofNat 8 a

/-! ### Lines -/

/-- The tokens of a line: cut at blanks and commas, a colon by itself, nothing after a `#` (R107). `cur` is the token
being read. -/
def tokens : List Char → List Char → List (List Char)
  | cur, [] => if cur = [] then [] else [cur]
  | cur, c :: cs =>
    let done := if cur = [] then [] else [cur]
    if c = '#' then done
    else if c = ' ' ∨ c = ',' ∨ c = '\t' then done ++ tokens [] cs
    else if c = ':' then done ++ [':'] :: tokens [] cs
    else tokens (cur ++ [c]) cs

/-- A chunk: `n`, and after a colon its payload words. -/
def chunkOf (make : BitVec 16 → List Word → Instr) : List (List Char) → Option (List Instr)
  | [n] => (numberBelow (2 ^ 16) n).map fun n => [make (BitVec.ofNat 16 n) []]
  | n :: [':'] :: ws => do
    let n ← numberBelow (2 ^ 16) n
    let ws ← ws.mapM sampleWordOf
    return [make (BitVec.ofNat 16 n) ws]
  | _ => none

/-- The commands of a line with two operands. -/
def pairOf (name : String) (x y : List Char) : Option (List Instr) :=
  match name with
  | "SETGAIN" => do
    let b ← bandOf x
    let v ← numberBelow (2 ^ 16) y
    return [.setgain b (BitVec.ofNat 16 v)]
  | "SETMUTE" => do
    let b ← bandOf x
    let m ← numberBelow 2 y
    return [.setmute b (m == 1)]
  | "WRCFG" => do
    let a ← regOf x
    let v ← wordOf y
    return [.wrcfg a v]
  | "GAINDB" => do
    let b ← bandOf x
    let g ← realOf y
    (Pseudo.gaindb b g).expand
  | _ => none

/-- The commands of a line with one operand. -/
def singleOf (name : String) (x : List Char) : Option (List Instr) :=
  match name with
  | "RDREG" => (regOf x).map fun a => [.rdreg a]
  | "MUTE" => (bandOf x).bind fun b => (Pseudo.mute b).expand
  | "UNMUTE" => (bandOf x).bind fun b => (Pseudo.unmute b).expand
  | "SETFS" => (wordOf x).bind fun v => (Pseudo.setfs v).expand
  | _ => none

/-- The commands of a line with no operand. -/
def bareOf : String → Option (List Instr)
  | "BUILD" => some [.build]
  | "START" => some [.start]
  | "STOP" => some [.stop]
  | "ANLZL" => some [.anlzl]
  | "GETLAST" => some [.getlast]
  | "GETFRAME" => some [.getframe]
  | _ => none

/-- `REBUILD` and its six operands (R108). -/
def rebuildOf (args : List (List Char)) : Option (List Instr) := do
  match ← args.mapM wordOf with
  | [fs, w0, w1, w2, w3, w4] => (Pseudo.rebuild fs ⟨w0, w1, w2, w3, w4⟩).expand
  | _ => none

/-- The commands a line of a script stands for (R107, R108): none for a blank line and for a line that states an
expected response. -/
def lineOf (line : List Char) : Option (List Instr) :=
  match tokens [] line with
  | [] => some []
  | ['-', '>'] :: _ => some []
  | name :: args =>
    if name = "PROC".toList then chunkOf .proc args
    else if name = "ANLZ".toList then chunkOf .anlz args
    else if name = "REBUILD".toList then rebuildOf args
    else
      match args with
      | [] => bareOf (String.ofList name)
      | [x] => singleOf (String.ofList name) x
      | [x, y] => pairOf (String.ofList name) x y
      | _ => none

/-- The lines of a text. -/
def linesOf : List Char → List Char → List (List Char)
  | cur, [] => [cur]
  | cur, c :: cs => if c = '\n' then cur :: linesOf [] cs else linesOf (cur ++ [c]) cs

/-- The commands of a script, in order; none where a line is malformed (R107). -/
def scriptOf (text : String) : Option (List Instr) := ((linesOf [] text.toList).mapM lineOf).map List.flatten

/-- The words a script sends on a port (R90, R107). -/
def scriptWords (text : String) : Option (List Word) := (scriptOf text).map fun is => is.flatMap encode

end Sys2Proof.Machine
end

