-- ==== Sys2Proof/Tests/Slice0.lean ====
section
/-! SUPPORT. Tests against the spec's own examples (V<n> and P<n> of 95_test_vectors.md), and witnesses that the
hypotheses of every statement can be met. -/

namespace Sys2Proof.Tests

set_option Elab.async false

open Sys2Proof.Machine

/-! ### Small states -/

/-- After reset in `CFG_TINY`. -/
def tiny : State := State.resetOf Params.tiny

/-- After `BUILD` and `START` in `CFG_TINY`. -/
def tinyRun : State := { commitBank exactArith tiny with run := true }

/-- A row of `MMAX - 1` tail entries in `CFG_TINY`. -/
def zeroRow : List Val := List.replicate 4 Val.zero

/-- The bank of V20. -/
def handBank : PerBand (List Val) where
  b0 := [.rat (mkRat 1 4), .rat (mkRat 1 2), .rat (mkRat 1 4)]
  b1 := [.rat (mkRat (-1) 4), .rat (mkRat 1 2), .rat (mkRat (-1) 4)]
  b2 := [.rat 0, .rat 0, .rat 0]
  b3 := [.rat 0, .rat 0, .rat 0]
  b4 := [.rat 0, .rat 0, .rat 0]

/-- The hand-set state of V20. -/
def hand : State := { tiny with bank := some handBank, bankM := 3, bankN := 8, built := true, run := true }

/-- The state after V20's `PROC`: the last chunk is `0 1 2 3`. -/
def handLast : State :=
  { hand with last := some [[.rat 0, .rat 1, .rat 2, .rat 3]], lastLen := 4, lastValid := true }

/-- The registers of V40. -/
def meter : State := { tiny with params := { Params.tiny with cap := 8 }, cfgAlpha := 0x8000, cfgDecay := 0xC000 }

/-- The response words on port 0. -/
def reply : Result → List Word
  | .next t => ((t.ports[0]?).map Port.tx).getD []
  | _ => []

/-- Something of the state a command leaves. -/
def after {α : Type} (r : Result) (f : State → α) : Option α :=
  match r with
  | .next t => some (f t)
  | _ => none

/-! ### WellFormed: each check refuses an ill-formed term -/

theorem test_wf_proc_too_long : (Instr.proc 1025 (List.replicate 1025 0)).wf Params.ref = false := by decide
theorem test_wf_proc_payload_length : (Instr.proc 2 [0]).wf Params.ref = false := by decide
theorem test_wf_anlz_too_long : (Instr.anlz 5 [0, 0, 0, 0, 0]).wf Params.tiny = false := by decide
theorem test_wf_anlz_payload_length : (Instr.anlz 1 []).wf Params.ref = false := by decide
theorem test_wf_proc_accepts : (Instr.proc 2 [0, 0]).wf Params.ref = true := by decide

/-! ### Scripts (programs P2 and P3) -/

theorem test_script_words_P2 :
    scriptWords "GAINDB 2, 6\nMUTE 0\nPROC 4 : 1 0 0 0   # impulse\n-> code=0, aux=0, cnt=4\nRDREG BAND2" =
      some [0x04020600, 0x05000001, 0x06000004, 0x3F800000, 0, 0, 0, 0x0B120000] := by decide +kernel

theorem test_script_words_P3 :
    scriptWords "WRCFG CFG_BW4, 24100\nPROC 0" = some [0x0A080000, 0x00005E24, 0x06000000] := by decide +kernel

/-! ### Decoding: words written out from R92 and R94, field by field -/

theorem test_decode_build : decode Params.ref [0b00000001_000000000000000000000000#32] = .ok (.build, []) := by rfl
theorem test_decode_start : decode Params.ref [0b00000010_000000000000000000000000#32] = .ok (.start, []) := by rfl
theorem test_decode_stop : decode Params.ref [0b00000011_000000000000000000000000#32] = .ok (.stop, []) := by rfl
theorem test_decode_setgain :
    decode Params.ref [0b00000100_00000_010_0000011000000000#32] = .ok (.setgain 2 0x0600, []) := by rfl
theorem test_decode_setmute :
    decode Params.ref [0b00000101_00000_001_000000000000000_1#32] = .ok (.setmute 1 true, []) := by rfl
theorem test_decode_proc :
    decode Params.ref [0b00000110_0000000_0_0000000000000010#32, 7, 8, 9] = .ok (.proc 2 [7, 8], [9]) := by rfl
theorem test_decode_anlz :
    decode Params.ref [0b00000111_0000000_0_0000000000000001#32, 7] = .ok (.anlz 1 [7], []) := by rfl
theorem test_decode_anlzl : decode Params.ref [0b00000111_0000000_1_0000000000000000#32] = .ok (.anlzl, []) := by rfl
theorem test_decode_getlast : decode Params.ref [0b00001000_000000000000000000000000#32] = .ok (.getlast, []) := by rfl
theorem test_decode_getframe : decode Params.ref [0b00001001_000000000000000000000000#32] = .ok (.getframe, []) := by rfl
theorem test_decode_wrcfg :
    decode Params.ref [0b00001010_00000010_0000000000000000#32, 48000] = .ok (.wrcfg 0x02 48000, []) := by rfl
theorem test_decode_rdreg :
    decode Params.ref [0b00001011_00100001_0000000000000000#32] = .ok (.rdreg 0x21, []) := by rfl

/-- V2, V3, V5 to V9, V11: the illegal headers. -/
theorem test_decode_illegal :
    ([0x01000001, 0x00000000, 0xFFFFFFFF, 0x0C000000, 0x04050000, 0x04080000, 0x05010002, 0x06010000, 0x07010001,
      0x0B000100] : List Word).map (fun c => decodeHeader Params.ref c) =
    [.error .reservedBits, .error .reservedOpcode, .error .reservedOpcode, .error .reservedOpcode, .error .bandRange,
      .error .reservedBits, .error .reservedBits, .error .sourceSelect, .error .sourceSelect,
      .error .reservedBits] := by rfl

/-- V10: `n > L`. V12: a `WRCFG` without its payload word waits. -/
theorem test_decode_length_and_wait :
    decodeHeader Params.tiny 0x06000005 = .error .lengthRange ∧
    decode Params.ref [0x0A020000] = .error .incomplete := ⟨rfl, rfl⟩

/-- R66: bits 7:0 at the lowest address. -/
theorem test_bytes : bytesOfWords [0x04020600] = [0x00, 0x06, 0x02, 0x04] ∧
    wordsOfBytes [0x00, 0x06, 0x02, 0x04] = [0x04020600] := ⟨rfl, rfl⟩

/-! ### The port format (the words after V14) -/

theorem test_dec32 :
    dec32 0x3F800000 = some 1 ∧ dec32 0xC0200000 = some (mkRat (-5) 2) ∧ dec32 0x3EC00000 = some (mkRat 3 8) ∧
    dec32 0x80000000 = some 0 ∧ dec32 0x00000001 = some (mkRat 1 (2 ^ 149)) ∧ dec32 0x7F800000 = none := by
  decide +kernel

theorem test_enc32 :
    enc32 (.rat (mkRat 1 10)) = 0x3DCCCCCD ∧ enc32 (.rat 0) = 0x00000000 ∧ enc32 (.rat 1) = 0x3F800000 ∧
    enc32 (.rat (2 ^ 200)) = 0x7F7FFFFF ∧ enc32 (.rat (-(2 ^ 200))) = 0xFF7FFFFF := by decide +kernel

/-! ### `BUILD` -/

/-- V16: the reply, the bank's registers, and the centre tap 2080/44100 of band 2. -/
theorem test_build_tiny :
    reply (exec .build tiny) = [0x01000000] ∧
    after (exec .build tiny) (fun t => (t.built, t.bankFs, t.bankM, t.bankN,
      t.bank.map fun h => h.b2.getD 2 Val.zero)) =
      some (true, 44100, 5, 8, some (.rat (mkRat 2080 44100))) := by decide +kernel

/-- V18 a, b, c, f, i: the first failing band, the boundaries of the two edge checks, and their order. -/
theorem test_build_errors :
    after (exec .build { tinyRun with cfgBw := ⟨200, 300, 1040, 3560, 24100⟩ })
      (fun t => (t.built, t.run, t.errlog, t.bankM)) = some (false, false, 0x02, 5) ∧
    reply (exec .build { tiny with cfgBw := ⟨200, 300, 1040, 3560, 24100⟩ }) = [0x01100000] ∧
    reply (exec .build { tiny with cfgBw := ⟨160, 300, 1040, 3560, 24100⟩ }) = [0x01240000] ∧
    reply (exec .build { tiny with cfgBw := ⟨160, 300, 1040, 3560, 24099⟩ }) = [0x01140000] ∧
    reply (exec .build { tiny with cfgBw := ⟨160, 300, 1040, 3560, 1⟩, cfgFs := 20001 }) = [0x01240000] ∧
    reply (exec .build { tiny with cfgBw := ⟨400, 300, 1040, 3560, 1⟩, cfgFs := 500 }) = [0x01200000] := by
  decide +kernel

/-! ### `START` and `STOP` -/

theorem test_start_without_bank :
    reply (exec .start tiny) = [0x02200000] ∧ after (exec .start tiny) (fun t => (t.run, t.errlog)) = some (false, 0x04) := by
  decide +kernel

theorem test_start_with_bank :
    reply (exec .start { hand with run := false }) = [0x02000000] ∧
    after (exec .start { hand with run := false }) (fun t => regRead t .status) = some 0x00000003 := by decide +kernel

theorem test_stop :
    reply (exec .stop hand) = [0x03000000] ∧ after (exec .stop hand) (fun t => regRead t .status) = some 0x00000002 := by
  decide +kernel

/-! ### `SETGAIN` and `SETMUTE` -/

/-- V30, and V35's bound in force. -/
theorem test_setgain :
    reply (exec (.setgain 2 0x0600) tiny) = [0x04000000] ∧
    after (exec (.setgain 2 0x0600) tiny) (fun t => regRead t (.band 2)) = some 0x00000600 ∧
    after (exec (.setgain 1 0xE200) { tiny with cfgGmin := 0xF400 }) (fun t => (t.band.get 1).gdb) = some 0xF400 := by
  decide +kernel

/-- V31: clamped to +12 dB. -/
theorem test_setgain_clamped :
    reply (exec (.setgain 0 0x1400) tiny) = [0x04080000] ∧
    after (exec (.setgain 0 0x1400) tiny) (fun t => ((t.band.get 0).gdb, t.errlog)) = some (0x0C00, 0x08) := by
  decide +kernel

/-- V36. -/
theorem test_setmute :
    reply (exec (.setmute 1 true) tiny) = [0x05000000] ∧
    after (exec (.setmute 1 true) tiny) (fun t => regRead t (.band 1)) = some 0x00010000 := by decide +kernel

/-! ### `PROC` and `GETLAST` -/

/-- P1: the first chunk, through the bank of V16. -/
theorem test_proc_impulse :
    reply (exec (.proc 4 [0x3F800000, 0, 0, 0]) tinyRun) =
      [0x06000004, 0xBC3C0724, 0x3E1518CF, 0x3F2CFD19, 0x3E1518CF] := by decide +kernel

/-- V20: the reply and the tails. -/
theorem test_proc_hand :
    reply (exec (.proc 4 [0x3F800000, 0x40000000, 0x40400000, 0x40800000]) hand) =
      [0x06000004, 0x00000000, 0x3F800000, 0x40000000, 0x40400000] ∧
    after (exec (.proc 4 [0x3F800000, 0x40000000, 0x40400000, 0x40800000]) hand)
      (fun t => ((tailOf t 0).b0, (tailOf t 0).b1)) =
      some ([.rat (mkRat 11 4), .rat 1, .rat 0, .rat 0], [.rat (mkRat 5 4), .rat (-1), .rat 0, .rat 0]) := by
  decide +kernel

/-- V37 and V38. -/
theorem test_getlast :
    reply (exec .getlast tiny) = [0x08040000] ∧
    reply (exec .getlast handLast) = [0x08000004, 0x00000000, 0x3F800000, 0x40000000, 0x40400000] := by decide +kernel

/-! ### `ANLZ`, `ANLZL` and `GETFRAME` -/

/-- V40. -/
theorem test_anlz_impulse :
    reply (exec (.anlz 8 [0x3F800000, 0, 0, 0, 0, 0, 0, 0]) meter) =
      0x0700000A :: (List.replicate 8 0x00000000 ++ [0x3F000000, 0x3F000000] ++
        (List.replicate 8 0x00000000 ++ [0x3F000000, 0x3F000000])) := by decide +kernel

/-- V44: a chunk of one sample has no bin in any band, and the frame is empty although the chunk is not silent. R198 with
a maximum that is zero but is not written as zero: bin 1 of the windowed chunk 2, 2, 2. -/
theorem test_anlz_empty_frames :
    reply (exec (.anlz 1 [0x3F800000]) meter) = 0x0700000A :: List.replicate 20 0x00000000 ∧
    chunkNorm exactArith Params.tiny 44100 3 [[.rat 25, .rat 2, .rat 25]] = List.replicate 10 Val.zero := by
  decide +kernel

/-- V45. -/
theorem test_anlzl :
    reply (exec .anlzl tiny) = [0x07500000] ∧
    reply (exec .anlzl handLast) = reply (exec (.anlz 4 [0x00000000, 0x3F800000, 0x40000000, 0x40400000]) hand) := by
  decide +kernel

/-- V46. -/
theorem test_getframe :
    reply (exec .getframe tiny) = 0x0900000A :: List.replicate 20 0x00000000 ∧
    reply (exec .getframe { tiny with
      level := List.replicate 8 Val.zero ++ [.rat (mkRat 1 4), .rat (mkRat 1 4)]
      peak := List.replicate 8 Val.zero ++ [.rat (mkRat 3 8), .rat (mkRat 3 8)] }) =
      0x0900000A :: (List.replicate 8 0x00000000 ++ [0x3E800000, 0x3E800000] ++
        (List.replicate 8 0x00000000 ++ [0x3EC00000, 0x3EC00000])) := by decide +kernel

/-! ### Rounding to even (R72) -/

/-- R72's tie to even of an output sample of the built bank: at 65536 Hz and order 3, `1, 4505, -1` gives
`o[2] = 16781125/8192`, half-way between two words. -/
theorem test_rounding_tie_of_a_sample :
    (reply (exec (.proc 3 [0x3F800000, 0x458CC800, 0xBF800000])
      { commitBank exactArith { tiny with cfgFs := 65536, cfgOrder := 3 } with run := true })).getD 3 0 = 0x450007A2 := by
  decide +kernel

/-- R72's tie to even of a level that is a rational only by an identity of cosines: with `CFG_ALPHA` 128, then 40001, the
impulse twice makes `LEVEL[8]` 20506047/2^25, half-way between two words. -/
theorem test_rounding_tie_of_a_level :
    let impulse : Instr := .anlz 8 [0, 0x3F800000, 0, 0, 0, 0, 0, 0]
    (after (exec impulse { meter with cfgAlpha := 128 }) fun t =>
      (reply (exec impulse { t with cfgAlpha := 40001, ports := tiny.ports })).getD 9 0) = some 0x3F1C72E0 := by
  decide +kernel

/-! ### `WRCFG` and `RDREG` -/

/-- V15d and V15e: 48000 is taken, 40 is refused. -/
theorem test_wrcfg_sample_rate :
    after (exec (.wrcfg 0x02 48000) tiny) (fun t => (t.cfgFs, t.bankFs, t.errlog)) = some (48000, 0, 0x00) ∧
    after (exec (.wrcfg 0x02 40) tiny) (fun t => (t.cfgFs, t.errlog)) = some (44100, 0x40) := by decide +kernel

/-- V15d to V15k: the replies of refused and accepted writes. -/
theorem test_wrcfg_replies :
    reply (exec (.wrcfg 0x02 48000) tiny) = [0x0A000000] ∧ reply (exec (.wrcfg 0x03 0) tiny) = [0x0A600000] ∧
    reply (exec (.wrcfg 0x09 0x0D00) tiny) = [0x0A600000] ∧ reply (exec (.wrcfg 0x0A 0x1E00) tiny) = [0x0A000000] ∧
    reply (exec (.wrcfg 0x0B 0x10001) tiny) = [0x0A600000] ∧ reply (exec (.wrcfg 0x10 0) tiny) = [0x0A600000] ∧
    reply (exec (.wrcfg 0x0D 0) tiny) = [0x0A600000] := by decide +kernel

/-- V47: the registers after reset in `CFG_REF`. -/
theorem test_rdreg_after_reset :
    ([0x00, 0x01, 0x02, 0x03, 0x04, 0x05, 0x06, 0x07, 0x08, 0x09, 0x0A, 0x0B, 0x0C] : List (BitVec 8)).map
      (fun a => (reply (exec (.rdreg a) State.reset)).getD 1 0) =
    [0, 0, 0x0000AC44, 0x00000401, 0x000000A0, 0x0000012C, 0x00000410, 0x00000DE8, 0x00002670, 0x0000E200,
      0x00000C00, 0x00004000, 0x0000F000] := by decide +kernel

/-- V15a, V15b, V15k. -/
theorem test_rdreg_params :
    reply (exec (.rdreg 0x21) State.reset) = [0x0B000001, 0x0A010400] ∧
    reply (exec (.rdreg 0x22) State.reset) = [0x0B000001, 0x00030401] ∧
    reply (exec (.rdreg 0x0D) State.reset) = [0x0B600000] := by decide +kernel

/-! ### The step -/

/-- V3: an illegal word is consumed, logged and answered. -/
theorem test_step_illegal :
    reply (step (State.reset.withFetchWord 32 0xFF000000)) = [0xFF600000] ∧
    after (step (State.reset.withFetchWord 32 0xFF000000)) (fun t => (t.errlog, rxOf t 0)) = some (0x40, []) := by
  decide +kernel

/-- A packet placed after reset is the next thing executed. -/
theorem test_step_runs_the_packet :
    reply (step (State.reset.withFetchWord 32 0x0B020000)) = [0x0B000001, 0x0000AC44] := by decide +kernel

/-- V14: the payload check comes before the check of `RUN`. -/
theorem test_step_payload_check :
    reply (step (placePacket [0x06000001, 0x7FC00000] tiny)) = [0x06600000] := by decide +kernel

/-- V49's choice: with two packets pending, either can be served, as the arbiter says. -/
theorem test_step_arbiter :
    let s : State := { State.reset with ports := [⟨[0x03000000], []⟩, ⟨[0x08000000], []⟩, ⟨[], []⟩] }
    nextPort { s with grants := [0] } = some 0 ∧ nextPort { s with grants := [1] } = some 1 := by decide +kernel

/-- V48: reset discards the packets and the state. -/
theorem test_step_reset :
    after (step { handLast with rst := true, ports := [⟨[1, 2], [3]⟩] })
      (fun t => (t.lastValid, t.run, t.ports, t.rst)) = some (false, false, [⟨[], []⟩], false) := by decide +kernel

/-! ### Witnesses: for every statement with hypotheses, a case that meets them -/

/-- The block after reset meets the invariant. -/
theorem tiny_inv : tiny.Inv where
  params := by decide +kernel
  config := ⟨by decide +kernel, by decide +kernel, by decide +kernel, by decide +kernel, by decide +kernel, by decide +kernel, by decide +kernel⟩
  runBuilt := by decide +kernel
  bank := fun h => absurd h (by decide +kernel)
  last := fun h => absurd h (by decide +kernel)
  errlog := by decide +kernel
  lin := by decide +kernel
  tail := by
    have h : ∀ rows ∈ tiny.tail, ∀ b, ∀ v ∈ rows.get b, v = Val.zero := by decide +kernel
    exact ⟨by decide +kernel, by decide +kernel, fun rows hr b v hv => h rows hr b v hv ▸ trivial,
      fun h => absurd h (by decide +kernel)⟩
  frame := ⟨by decide +kernel, by decide +kernel, by
    have h : (∀ v ∈ tiny.level, v = Val.zero) ∧ ∀ v ∈ tiny.peak, v = Val.zero := by decide +kernel
    exact ⟨fun v hv => h.1 v hv ▸ trivial, fun v hv => h.2 v hv ▸ trivial⟩, fun i hi => by
    have h : ∀ i < 10, tiny.level.getD i Val.zero = Val.zero ∧ tiny.peak.getD i Val.zero = Val.zero := by
      decide +kernel
    rw [(h i hi).1, (h i hi).2, toReal_zero]
    exact ⟨le_rfl, le_rfl, zero_le_one⟩⟩
  ports := by decide +kernel
  active := by decide +kernel

/-- The value is written as a rational. -/
def isRat : Val → Bool
  | .rat _ => true
  | _ => false

theorem defined_of_isRat {v : Val} (h : isRat v = true) : v.Defined := by
  cases v <;> trivial

/-- A state with a bank, and with a chunk processed, meets the invariant. -/
theorem handLast_inv : handLast.Inv where
  params := tiny_inv.params
  config := ⟨tiny_inv.config.fs, tiny_inv.config.order, tiny_inv.config.gmin, tiny_inv.config.gmax,
    tiny_inv.config.bounds, tiny_inv.config.alpha, tiny_inv.config.decay⟩
  runBuilt _ := rfl
  bank _ := ⟨handBank, rfl, by decide +kernel, rfl, by decide +kernel,
    have h : ∀ b, ∀ v ∈ handBank.get b, isRat v = true := by decide +kernel
    fun b v hv => defined_of_isRat (h b v hv), by decide +kernel⟩
  last _ := ⟨_, rfl, rfl, by decide +kernel,
    have h : ∀ row ∈ handLast.last.getD [], ∀ v ∈ row, isRat v = true := by decide +kernel
    fun row hr v hv => defined_of_isRat (h row hr v hv), by decide +kernel⟩
  errlog := by decide +kernel
  lin := tiny_inv.lin
  tail := ⟨tiny_inv.tail.channels, tiny_inv.tail.length, tiny_inv.tail.defined, fun _ rows hr b k _ => by
    have h : ∀ rows ∈ tiny.tail, ∀ b, rows.get b = zeroRow := by decide +kernel
    rw [h rows hr b]
    rcases k with _ | _ | _ | _ | k <;> rfl⟩
  frame := ⟨tiny_inv.frame.levels, tiny_inv.frame.peaks, tiny_inv.frame.defined, tiny_inv.frame.range⟩
  ports := tiny_inv.ports
  active := tiny_inv.active

/-- A run: a `STOP` arrives before the first step, and nothing after it. -/
def stopRun : Run where
  state t := if t = 0 then tiny else { tiny with ports := [⟨[], [0x03000000]⟩], taken := 1 }
  acts t := if t = 0 then [.deliver 0 [0x03000000]] else []
  steps t := by rcases t with _ | t <;> rfl

theorem stopRun_fair : stopRun.Fair := fun q t h => by
  obtain ⟨-, hq, hr⟩ := h (t + 1) (by omega)
  obtain rfl : q = 0 := Nat.lt_one_iff.mp hq
  exact absurd rfl hr

/-- A finite payload, as the statements say it. -/
theorem finite_of {ws : List Word} (h : payloadNonFinite ws = false) : ∀ w ∈ ws, w.toNat / 2 ^ 23 % 2 ^ 8 ≠ 255 :=
  (payloadNonFinite_eq_false_iff ws).mp h

/-- A payload that is not finite, as the statements say it. -/
theorem not_finite_of {ws : List Word} (h : payloadNonFinite ws = true) : ∃ w ∈ ws, w.toNat / 2 ^ 23 % 2 ^ 8 = 255 :=
  (payloadNonFinite_iff ws).mp h

/-- A silent payload, as the statements say it. -/
theorem silent_zeros : ∀ w ∈ ([0x00000000, 0x80000000] : List Word), w = 0x00000000 ∨ w = 0x80000000 := by
  intro w hw
  simpa using hw

theorem witness_DecodeOfEncode : (Instr.proc 4 [1, 2, 3, 4]).wf Params.tiny = true := by decide +kernel

theorem witness_DecodedPacketIsAnEncoding :
    decode Params.tiny [0x06000001, 0x3F800000, 5] = .ok (.proc 1 [0x3F800000], [5]) := by rfl

theorem witness_StepRunsTheDecodedCommand :
    (placePacket [0x03000000] tiny).rst = false ∧ nextPort (placePacket [0x03000000] tiny) = some 0 ∧
    decode (placePacket [0x03000000] tiny).params (rxOf (placePacket [0x03000000] tiny) 0) = .ok (.stop, []) :=
  ⟨rfl, by decide +kernel, rfl⟩

theorem witness_IllegalHeaderTakesOneWord :
    (placePacket [0xFF000000, 7] tiny).rst = false ∧ nextPort (placePacket [0xFF000000, 7] tiny) = some 0 ∧
    rxOf (placePacket [0xFF000000, 7] tiny) 0 = 0xFF000000 :: [7] ∧
    decodeHeader (placePacket [0xFF000000, 7] tiny).params 0xFF000000 = .error .reservedOpcode :=
  ⟨rfl, by decide +kernel, rfl, rfl⟩

theorem witness_NoCompletePacketWaits :
    ({ tiny with ports := [⟨[0x0A020000], []⟩] } : State).rst = false ∧
    ∀ q, q < 1 → decode Params.tiny (rxOf { tiny with ports := [⟨[0x0A020000], []⟩] } q) = .error .noWord ∨
      decode Params.tiny (rxOf { tiny with ports := [⟨[0x0A020000], []⟩] } q) = .error .incomplete :=
  ⟨rfl, fun q hq => by obtain rfl : q = 0 := by omega
                       exact .inr rfl⟩

theorem witness_ArbiterMayServeAnyReadyPort :
    nextPort (placePacket [0x03000000] tiny) = some 0 ∧ 0 < (placePacket [0x03000000] tiny).ports.length ∧
    arrivalAt (placePacket [0x03000000] tiny) 0 ≠ .waiting ∧
    stopRun.Fair ∧ (∀ u, (stopRun.at u).rst = false) ∧ stopRun.Pending 0 0 :=
  ⟨by decide +kernel, by decide +kernel, by decide +kernel, stopRun_fair, fun u => by rcases u with _ | u <;> rfl,
    rfl, by decide +kernel, by decide +kernel⟩

theorem witness_ResetPutsEveryElementAtItsValue : ({ hand with rst := true } : State).rst = true := rfl

theorem witness_OneResponsePacketPerCommand :
    tiny.Inv ∧ Instr.getframe.wf tiny.params = true ∧ ∃ t, exec .getframe tiny = .next t := ⟨tiny_inv, rfl, _, rfl⟩

theorem witness_ResetMeetsTheInvariant : Params.tiny.Ok ∧ Params.ref.Ok := by decide +kernel

theorem witness_StepKeepsTheInvariant : tiny.Inv ∧ ∃ t, step tiny = .next t :=
  ⟨tiny_inv, _, rfl⟩

theorem witness_StepNeverStops : tiny.Inv := tiny_inv

theorem witness_WhatChangesRun :
    (∃ t, exec .start { hand with run := false } = .next t ∧ t.run ≠ false) ∧
    (∃ t, exec .stop hand = .next t ∧ t.run ≠ hand.run) ∧
    (∃ t, exec .build { hand with cfgBw := ⟨0, 0, 0, 0, 0⟩ } = .next t ∧ t.run ≠ hand.run) ∧
    (∃ t, step { hand with rst := true } = .next t) :=
  ⟨⟨_, rfl, by decide +kernel⟩, ⟨_, rfl, by decide +kernel⟩, ⟨_, rfl, by decide +kernel⟩, ⟨_, rfl⟩⟩

theorem witness_WhoWritesWhat : ∃ t, exec (.setmute 1 true) hand = .next t := ⟨_, rfl⟩

theorem witness_LogAndLastValidAreSticky :
    handLast.rst = false ∧ (∃ t, step { handLast with errlog := 0x40 } = .next t) ∧
    ({ handLast with errlog := 0x40 } : State).errlog.getLsbD 6 = true ∧ handLast.lastValid = true :=
  ⟨rfl, ⟨_, rfl⟩, by decide +kernel, rfl⟩

theorem witness_ReadersChangeNoState :
    (∃ t, exec .getlast tiny = .next t) ∧ (∃ t, exec .getframe tiny = .next t) ∧
    (∃ t, exec (.rdreg 0x22) tiny = .next t) ∧ ∃ t, exec (.rdreg 0x23) tiny = .next t :=
  ⟨⟨_, rfl⟩, ⟨_, rfl⟩, ⟨_, rfl⟩, ⟨_, rfl⟩⟩

theorem witness_ProcIgnoresTheConfigurationRegisters : ∃ t, exec (.proc 1 [0x3F800000]) hand = .next t := ⟨_, rfl⟩

theorem witness_WrcfgReplacesTheRegister :
    regAt 0x02 = some .cfgFs ∧ Reg.cfgFs.writable = true ∧ legalValue tiny 41 .cfgFs = true ∧
    regAt 0x08 = some (.cfgBw 4) ∧ legalValue tiny 0 (.cfgBw 4) = true ∧
    regAt 0x0C = some .cfgDecay ∧ Reg.cfgDecay.writable = true ∧ legalValue tiny 0x10000 .cfgDecay = true := by
  decide +kernel

theorem witness_WrcfgRefusals :
    (∀ r, regAt 0x0D = some r → r.writable = false ∨ legalValue tiny 0 r = false) ∧
    (∀ r, regAt 0x01 = some r → r.writable = false ∨ legalValue tiny 0 r = false) ∧
    (∀ r, regAt 0x02 = some r → r.writable = false ∨ legalValue tiny 40 r = false) :=
  ⟨fun _ h => (nomatch h), fun r h => .inl (by cases h; rfl), fun r h => .inr (by cases h; rfl)⟩

theorem witness_RdregAnswersTheRegister : regAt 0x22 = some .params1 ∧ regAt 0x23 = none := ⟨rfl, rfl⟩

theorem witness_FieldRegisterWords : tiny.params.Ok := by decide +kernel

theorem witness_BuildMakesTheBank :
    ∀ b, (tiny.cfgBw.get b).toNat ≠ 0 ∧ upperEdge b (tiny.cfgBw.get b) < (tiny.cfgFs.toNat : Rat) / 2 ∧
      0 < lowerEdge b (tiny.cfgBw.get b) := by decide +kernel

/-- V18 a (the upper edge at half the sample rate), V18 h (zero width), V18 c (the lower edge at 0). -/
theorem witness_BuildFailsAtTheFirstBadBand :
    (∀ b', b' < 4 → ((PerBand.mk 160 300 1040 3560 24100 : PerBand Word).get b').toNat ≠ 0 ∧
      upperEdge b' ((PerBand.mk 160 300 1040 3560 24100 : PerBand Word).get b') < (44100 : Rat) / 2 ∧
      0 < lowerEdge b' ((PerBand.mk 160 300 1040 3560 24100 : PerBand Word).get b')) ∧
    (44100 : Rat) / 2 ≤ upperEdge 4 24100 ∧ ((0 : Word).toNat = 0) ∧
    ((200 : Word).toNat ≠ 0 ∧ upperEdge 0 200 < (44100 : Rat) / 2 ∧ lowerEdge 0 200 ≤ 0) := by decide +kernel

theorem witness_HammingWindow : 2 ≤ 2 ∧ 1 < 2 := by decide +kernel

theorem witness_TapsAreTheWindowedIdealResponse : 0 < 44100 ∧ 5 % 2 = 1 ∧ 4 < 5 := by decide +kernel

theorem witness_TapsAreSymmetric : 0 < 44100 ∧ 1 % 2 = 1 ∧ 0 < 1 := by decide +kernel

theorem witness_StartAndStop : hand.built = true ∧ tiny.built = false := ⟨rfl, rfl⟩

/-- The bounds themselves are in range (V33). -/
theorem witness_SetgainStoresTheGain :
    (tiny.cfgGmin.setWidth 16).toInt ≤ (0xE200 : BitVec 16).toInt ∧
    (0xE200 : BitVec 16).toInt ≤ (tiny.cfgGmax.setWidth 16).toInt ∧
    (tiny.cfgGmin.setWidth 16).toInt ≤ (0x0C00 : BitVec 16).toInt ∧
    (0x0C00 : BitVec 16).toInt ≤ (tiny.cfgGmax.setWidth 16).toInt := by decide +kernel

/-- One code beyond each bound (V32). -/
theorem witness_SetgainClamps :
    (tiny.cfgGmin.setWidth 16).toInt ≤ (tiny.cfgGmax.setWidth 16).toInt ∧
    (0xE1FF : BitVec 16).toInt < (tiny.cfgGmin.setWidth 16).toInt ∧
    (tiny.cfgGmax.setWidth 16).toInt < (0x0C01 : BitVec 16).toInt := by decide +kernel

theorem witness_ProcChecksInOrder :
    (∃ w ∈ ([0x7F800000] : List Word), w.toNat / 2 ^ 23 % 2 ^ 8 = 255) ∧
    ((∀ w ∈ ([0x7F7FFFFF] : List Word), w.toNat / 2 ^ 23 % 2 ^ 8 ≠ 255) ∧ tiny.run = false) ∧
    ((∀ w ∈ ([] : List Word), w.toNat / 2 ^ 23 % 2 ^ 8 ≠ 255) ∧ hand.run = true ∧ (0 : BitVec 16) = 0) :=
  ⟨not_finite_of rfl, ⟨finite_of rfl, rfl⟩, finite_of rfl, rfl, rfl⟩

theorem witness_ProcProcessesTheChunk :
    (∀ w ∈ ([0x3F800000, 0x40000000, 0x40400000, 0x40800000] : List Word), w.toNat / 2 ^ 23 % 2 ^ 8 ≠ 255) ∧
    hand.run = true ∧ (4 : BitVec 16) ≠ 0 ∧ hand.bank = some handBank := ⟨finite_of rfl, rfl, by decide, rfl⟩

/-- At the longest chunk for the transform: `n + M - 1 = N`, at the last index and past the end of the convolution. -/
theorem witness_FrequencyAndTimeFormsAgree :
    1 ≤ handBank.b0.length ∧ 1 ≤ zeroRow.length ∧ zeroRow.length + handBank.b0.length - 1 ≤ 6 ∧ 5 < 6 ∧
    zeroRow.length + handBank.b0.length - 1 ≤ 8 ∧ 7 < 8 ∧ zeroRow.length + handBank.b0.length - 1 ≤ 7 := by decide +kernel

/-- The last tail position in use and the first beyond it. -/
theorem witness_TailUpdate :
    0 < tiny.params.nch ∧ 1 < tiny.params.mmax - 1 ∧ 1 < handBank.b0.length - 1 ∧
    2 < tiny.params.mmax - 1 ∧ handBank.b0.length - 1 ≤ 2 := by decide +kernel

theorem witness_ChunkingDoesNotChangeTheStream :
    1 ≤ handBank.b0.length ∧ handBank.b0.length ≤ 5 ∧
    5 < ([[.rat 1, .rat 2], [.rat 3], [.rat 4, .rat 5, .rat 6]] : List (List Val)).flatten.length := by decide +kernel

/-- The reference arithmetic has N1 and encodes 0 as the word 0. -/
theorem exact_N1 : exactArith.N1 where
  zeroMul a := by change Exact.mul _ _ = _; unfold Exact.mul; cases a <;> simp [Val.zero]
  mulZero a := by change Exact.mul _ _ = _; unfold Exact.mul; cases a <;> simp [Val.zero]
  addZero a := by change Exact.add _ _ = _; unfold Exact.add; cases a <;> simp [Val.zero]
  zeroAdd a := by change Exact.add _ _ = _; unfold Exact.add; cases a <;> simp [Val.zero]

theorem witness_SilenceInSilenceOut :
    exactArith.N1 ∧ exactArith.enc Val.zero = 0 ∧ hand.run = true ∧ (2 : BitVec 16) ≠ 0 ∧ hand.bank = some handBank ∧
    (∀ w ∈ ([0x00000000, 0x80000000] : List Word), w = 0x00000000 ∨ w = 0x80000000) ∧
    (∀ c < 1, ∀ b : BandIx, ∀ k < 2, ((tailOf hand c).get b).getD k Val.zero = Val.zero) :=
  ⟨exact_N1, by decide +kernel, rfl, by decide, rfl, silent_zeros, by decide +kernel⟩

theorem witness_OneBandAlone :
    let s : State := { hand with band := PerBand.build fun b => { Band.reset with mute := b ≠ 2 } }
    exactArith.N1 ∧ (∀ b', b' ≠ 2 → (s.band.get b').mute = true) ∧ (s.band.get 2).mute = false :=
  ⟨exact_N1, by decide +kernel, by decide +kernel⟩

theorem witness_GetlastAnswersTheLastChunk :
    tiny.lastValid = false ∧ handLast.lastValid = true ∧ handLast.last = some [[.rat 0, .rat 1, .rat 2, .rat 3]] :=
  ⟨rfl, rfl, rfl⟩

theorem witness_GetlastRepeatsTheDeliveredChunk :
    (∀ w ∈ ([0x3F800000, 0x40000000, 0x40400000, 0x40800000] : List Word), w.toNat / 2 ^ 23 % 2 ^ 8 ≠ 255) ∧
    hand.run = true ∧ (4 : BitVec 16) ≠ 0 ∧ hand.bank = some handBank := ⟨finite_of rfl, rfl, by decide, rfl⟩

theorem witness_AnlzRefusals :
    (∃ w ∈ ([0x7FC00000] : List Word), w.toNat / 2 ^ 23 % 2 ^ 8 = 255) ∧
    ((∀ w ∈ ([] : List Word), w.toNat / 2 ^ 23 % 2 ^ 8 ≠ 255) ∧ (0 : BitVec 16) = 0) ∧ tiny.lastValid = false :=
  ⟨not_finite_of rfl, ⟨finite_of rfl, rfl⟩, rfl⟩

theorem witness_AnlzAnswersTheFrame :
    (∀ w ∈ ([0x3F800000] : List Word), w.toNat / 2 ^ 23 % 2 ^ 8 ≠ 255) ∧ (1 : BitVec 16) ≠ 0 :=
  ⟨finite_of rfl, by decide⟩

theorem witness_AnlzlAnalysesTheLastChunk :
    handLast.lastValid = true ∧
    handLast.last =
      some (channelsOf handLast.params.nch handLast.lastLen.toNat [0x00000000, 0x3F800000, 0x40000000, 0x40400000]) ∧
    handLast.lastLen ≠ 0 ∧
    (∀ w ∈ ([0x00000000, 0x3F800000, 0x40000000, 0x40400000] : List Word), w.toNat / 2 ^ 23 % 2 ^ 8 ≠ 255) :=
  ⟨rfl, by decide +kernel, by decide, finite_of rfl⟩

theorem witness_MagnitudeIsTheModulusOfTheTransform : zeroRow ≠ [] := by decide +kernel

theorem witness_BandEdgeTestIsExact : 1 ≤ 10 ∧ 41 ≤ 41 ∧ 10 ≤ 10 := by decide +kernel

/-- The lowest sample rate, at the Nyquist bin of an even length; and a bin below 20 Hz. -/
theorem witness_BinsArePartitioned :
    (1 ≤ 10 ∧ 41 ≤ 41 ∧ 1 ≤ 8 ∧ 4 ≤ 8 / 2) ∧ 4 ∈ binsOf exactArith 10 41 8 9 ∧ 9 < 10 ∧ 20 * 8 ≤ 4 * 41 ∧ ¬ 20 * 8 ≤ 3 * 41 := by
  decide +kernel

theorem witness_DownmixWindowAndAggregate : 1 ≤ 2 ∧ 3 < 4 ∧ binsOf exactArith 10 44100 8 8 ≠ [] ∧ binsOf exactArith 10 44100 8 0 = [] := by
  decide +kernel

theorem witness_NormalisedLevels :
    ([Val.rat 0, Val.rat 3] ≠ []) ∧ (∀ r ∈ [Val.rat 0, Val.rat 3], r.Defined) ∧
    (∀ r ∈ [Val.rat 0, Val.rat 3], 0 ≤ r.toReal) := by
  refine ⟨by decide +kernel, fun r hr => ?_, fun r hr => ?_⟩ <;>
    simp only [List.mem_cons, List.not_mem_nil, or_false] at hr <;> rcases hr with rfl | rfl <;>
    simp [Val.Defined]

theorem witness_SmoothingAndPeakDecay :
    9 < tiny.params.na ∧ tiny.cfgAlpha.toNat ≤ 65536 ∧ tiny.cfgDecay.toNat ≤ 65536 ∧
    (0 : ℝ) ≤ (tiny.peak.getD 9 Val.zero).toReal ∧ (tiny.peak.getD 9 Val.zero).toReal ≤ 1 :=
  ⟨by decide +kernel, by decide +kernel, by decide +kernel, (tiny_inv.frame.range 9 (by decide)).1.trans
    (tiny_inv.frame.range 9 (by decide)).2.1, (tiny_inv.frame.range 9 (by decide)).2.2⟩

theorem witness_SilentChunkDecays :
    tiny.Inv ∧ (2 : BitVec 16) ≠ 0 ∧
    (∀ w ∈ ([0x00000000, 0x80000000] : List Word), w = 0x00000000 ∨ w = 0x80000000) ∧ 9 < tiny.params.na :=
  ⟨tiny_inv, by decide, silent_zeros, by decide⟩

theorem witness_PeakIsNotBelowItsLevel :
    exactArith.N2 ∧ (∀ w ∈ ([0x3F800000] : List Word), w.toNat / 2 ^ 23 % 2 ^ 8 ≠ 255) ∧ (1 : BitVec 16) ≠ 0 ∧
    9 < tiny.params.na := by
  refine ⟨⟨fun a b => ?_, fun a b => ?_⟩, finite_of rfl, by decide, by decide⟩
  · have h : (exactArith.max a b).toReal = max a.toReal b.toReal := toReal_max a b
    rw [h]
    exact max_choice _ _
  · have h : (exactArith.max a b).toReal = max a.toReal b.toReal := toReal_max a b
    rw [h]
    exact ⟨le_max_left _ _, le_max_right _ _⟩

/-- The largest subnormal, the smallest normal, the largest finite word, and an infinity. -/
theorem witness_SampleWordsDenote :
    (0x7F800000 : Word).toNat / 2 ^ 23 % 2 ^ 8 = 255 ∧ (0x007FFFFF : Word).toNat / 2 ^ 23 % 2 ^ 8 = 0 ∧
    (0x00800000 : Word).toNat / 2 ^ 23 % 2 ^ 8 = 1 ∧ (0xFF7FFFFF : Word).toNat / 2 ^ 23 % 2 ^ 8 = 254 := by decide +kernel

/-- A rational and an irrational tap of the reference bank; a state with a bank and a chunk processed. -/
theorem witness_DeliveredWordsAreRounded :
    (Val.rat (mkRat 1 10)).Defined ∧ (Val.mul (.rat (mkRat 1 3)) (.cos (mkRat 1 5))).Defined ∧
    handLast.Inv ∧ handLast.bank = some handBank ∧ handLast.built = true ∧
    handLast.last = some [[.rat 0, .rat 1, .rat 2, .rat 3]] ∧ handLast.lastValid = true ∧ tiny.level ≠ [] :=
  ⟨trivial, ⟨trivial, trivial⟩, handLast_inv, rfl, rfl, rfl, rfl, by decide +kernel⟩

end Sys2Proof.Tests
end

section
/-! PROOFS. The real a sample word denotes (R70): `dec32` as a sign times a magnitude made of the exponent and fraction
fields, and the real number that magnitude is. -/

namespace Sys2Proof.Machine

/-- The magnitude of a finite sample word with exponent field `e` and fraction field `f` (R70), as `dec32` computes it. -/
def sampleMagnitude (e f : Nat) : Rat :=
  if e = 0 then mkRat f (2 ^ 149)
  else if 150 ≤ e then ((2 ^ 23 + f) * 2 ^ (e - 150) : Nat) else mkRat (2 ^ 23 + f : Nat) (2 ^ (150 - e))

/-- The sign of a sample word as a number (R70). -/
def sampleSign (w : Word) : Rat := if w.toNat / 2 ^ 31 = 1 then -1 else 1

theorem signBit_eq (w : Word) : w.getLsbD 31 = decide (w.toNat / 2 ^ 31 = 1) := by
  have : w.toNat / 2 ^ 31 % 2 = w.toNat / 2 ^ 31 := by have := w.isLt; omega
  rw [bit_eq_decide, this]

theorem dec32_eq (w : Word) : dec32 w =
    if w.toNat / 2 ^ 23 % 2 ^ 8 = 255 then none
    else some (sampleSign w * sampleMagnitude (w.toNat / 2 ^ 23 % 2 ^ 8) (w.toNat % 2 ^ 23)) := by
  have hsign (m : Rat) : (if w.getLsbD 31 then -m else m) = sampleSign w * m := by
    simp only [signBit_eq, decide_eq_true_eq, sampleSign, ite_mul, neg_one_mul, one_mul]
  simp only [dec32, hsign, toNat_field, pow_zero, Nat.div_one, sampleMagnitude]

theorem dec32_of_finite {w : Word} (h : w.toNat / 2 ^ 23 % 2 ^ 8 ≠ 255) :
    dec32 w = some (sampleSign w * sampleMagnitude (w.toNat / 2 ^ 23 % 2 ^ 8) (w.toNat % 2 ^ 23)) := by
  rw [dec32_eq, if_neg h]

theorem sampleSign_real (w : Word) : (sampleSign w : ℝ) = if w.toNat / 2 ^ 31 = 1 then -1 else 1 := by
  rw [sampleSign, apply_ite (Rat.cast : Rat → ℝ), Rat.cast_neg, Rat.cast_one]

/-- Zero and the subnormals. -/
theorem sampleMagnitude_zero_real (f : Nat) : (sampleMagnitude 0 f : ℝ) = f * (2 : ℝ) ^ (-149 : Int) := by
  rw [sampleMagnitude, if_pos rfl, Rat.mkRat_eq_div, zpow_neg, ← div_eq_mul_inv]
  norm_num

/-- The normal numbers. Below exponent 150 the model divides by a power of 2, from there on it multiplies by one. -/
theorem sampleMagnitude_normal_real {e : Nat} (he : 1 ≤ e) (f : Nat) :
    (sampleMagnitude e f : ℝ) = (2 ^ 23 + f) * (2 : ℝ) ^ ((e : Int) - 150) := by
  rw [sampleMagnitude, if_neg (by omega)]
  split_ifs with h
  · have hexp : (e : Int) - 150 = (e - 150 : Nat) := by omega
    rw [hexp, zpow_natCast]
    norm_cast
  · have hexp : (e : Int) - 150 = -(150 - e : Nat) := by omega
    rw [hexp, zpow_neg, zpow_natCast, Rat.mkRat_eq_div, ← div_eq_mul_inv]
    norm_num

/-- Settles O58, by the three cases of the exponent field. -/
theorem sampleWordsDenote : Obligations.SampleWordsDenote := by
  unfold Obligations.SampleWordsDenote
  intro w
  dsimp only
  refine ⟨fun h => ?infinityOrNaN, fun h => ?subnormal, fun h1 h254 => ?normal⟩
  case infinityOrNaN => rw [dec32_eq, if_pos h]
  case subnormal =>
    refine ⟨_, dec32_of_finite (by omega), ?_⟩
    rw [h, Rat.cast_mul, sampleSign_real, sampleMagnitude_zero_real, mul_assoc]
  case normal =>
    refine ⟨_, dec32_of_finite (by omega), ?_⟩
    rw [Rat.cast_mul, sampleSign_real, sampleMagnitude_normal_real h1, mul_assoc]

end Sys2Proof.Machine
end

section
/-! PROOFS. Which headers the decoder refuses (R98, R99, R100): the condition of each format's decoder on the fields of the
word, and from these the condition of the whole header, opcode by opcode. -/

namespace Sys2Proof

section Refusals

variable {α β : Type}

theorem not_ok_refuses (a : α) : ¬ ∃ e, (.ok a : Except Reject α) = .error e := by simp

theorem map_refuses_iff (f : α → β) (x : Except Reject α) : (∃ e, x.map f = .error e) ↔ ∃ e, x = .error e := by
  cases x <;> simp [Except.map]

/-- A decoder that checks `P` first refuses where `P` fails or what follows refuses. -/
theorem check_refuses_iff (P : Prop) [Decidable P] (x : Except Reject α) (r : Reject) :
    (∃ e, (if P then x else .error r) = .error e) ↔ ¬ P ∨ ∃ e, x = .error e := by
  split_ifs with h <;> simp [h]

end Refusals

theorem decodeBand_refuses_iff (c : Word) : (∃ e, decodeBand c = .error e) ↔ 5 ≤ c.toNat / 2 ^ 16 % 8 := by
  rw [← toNat_bandField, decodeBand]
  split_ifs with h
  · simp [h]
  · simpa using h

theorem decodeZ_refuses_iff (c : Word) (i : Instr) : (∃ e, decodeZ c i = .error e) ↔ c.toNat % 2 ^ 24 ≠ 0 := by
  rw [decodeZ, check_refuses_iff, or_iff_left (not_ok_refuses _), field_eq_zero_iff, pow_zero, Nat.div_one]

theorem decodeR_refuses_iff (c : Word) (h : BitVec 8 → Header) :
    (∃ e, decodeR c h = .error e) ↔ c.toNat % 2 ^ 16 ≠ 0 := by
  rw [decodeR, check_refuses_iff, or_iff_left (not_ok_refuses _), lowField_eq_zero_iff]

theorem decodeSetgain_refuses_iff (c : Word) :
    (∃ e, decodeSetgain c = .error e) ↔ c.toNat / 2 ^ 19 % 2 ^ 5 ≠ 0 ∨ 5 ≤ c.toNat / 2 ^ 16 % 8 := by
  rw [decodeSetgain, check_refuses_iff, map_refuses_iff, decodeBand_refuses_iff, field_eq_zero_iff]

theorem decodeSetmute_refuses_iff (c : Word) :
    (∃ e, decodeSetmute c = .error e) ↔
      c.toNat / 2 ^ 19 % 2 ^ 5 ≠ 0 ∨ c.toNat / 2 % 2 ^ 15 ≠ 0 ∨ 5 ≤ c.toNat / 2 ^ 16 % 8 := by
  rw [decodeSetmute, check_refuses_iff, map_refuses_iff, decodeBand_refuses_iff, field_eq_zero_iff, field_eq_zero_iff,
    not_and_or, or_assoc, pow_one]

theorem decodeChunk_refuses_iff (p : Params) (c : Word) (h : BitVec 16 → Header) :
    (∃ e, decodeChunk p c h = .error e) ↔ p.cap < c.toNat % 2 ^ 16 := by
  rw [decodeChunk, check_refuses_iff, or_iff_left (not_ok_refuses _), toNat_lowField, not_le]

theorem sourceBit_iff (c : Word) : sourceBit c = true ↔ c.toNat / 2 ^ 16 % 2 = 1 := by
  rw [sourceBit, bit_eq_decide, decide_eq_true_iff]

theorem decodeProc_refuses_iff (p : Params) (c : Word) :
    (∃ e, decodeProc p c = .error e) ↔
      c.toNat / 2 ^ 17 % 2 ^ 7 ≠ 0 ∨ c.toNat / 2 ^ 16 % 2 = 1 ∨ p.cap < c.toNat % 2 ^ 16 := by
  rw [decodeProc, check_refuses_iff, field_eq_zero_iff]
  simp only [sourceBit_iff]
  refine or_congr_right ?_
  split_ifs with hs
  · exact iff_of_true ⟨_, rfl⟩ (.inl hs)
  · rw [decodeChunk_refuses_iff, or_iff_right hs]

theorem decodeAnlz_refuses_iff (p : Params) (c : Word) :
    (∃ e, decodeAnlz p c = .error e) ↔
      c.toNat / 2 ^ 17 % 2 ^ 7 ≠ 0 ∨ (c.toNat / 2 ^ 16 % 2 = 1 ∧ c.toNat % 2 ^ 16 ≠ 0) ∨
      (c.toNat / 2 ^ 16 % 2 = 0 ∧ p.cap < c.toNat % 2 ^ 16) := by
  rw [decodeAnlz, check_refuses_iff, field_eq_zero_iff]
  simp only [sourceBit_iff]
  refine or_congr_right ?_
  by_cases hs : c.toNat / 2 ^ 16 % 2 = 1
  · rw [if_pos hs, check_refuses_iff, or_iff_left (not_ok_refuses _), lowField_eq_zero_iff]
    omega
  · rw [if_neg hs, decodeChunk_refuses_iff]
    omega

/-- Settles O3: each opcode of the table has the condition of its format, and every other opcode is reserved. -/
theorem illegalHeadersExactly : Obligations.IllegalHeadersExactly := by
  unfold Obligations.IllegalHeadersExactly
  intro p c
  dsimp only
  rw [decodeHeader, toNat_opField]
  match c.toNat / 2 ^ 24 with
  | 1 | 2 | 3 | 8 | 9 => simp [decodeZ_refuses_iff]
  | 4 => simp [decodeSetgain_refuses_iff]
  | 5 => simp [decodeSetmute_refuses_iff]
  | 6 => simp [decodeProc_refuses_iff]
  | 7 => simp [decodeAnlz_refuses_iff]
  | 10 | 11 => simp [decodeR_refuses_iff]
  | 0 => simp
  | n + 12 => simp

end Sys2Proof
end

section
/-! PROOFS. The legal values of the read-write registers (R122), with the gain bounds read as signed 16-bit codes (R31). -/

namespace Sys2Proof.Machine

/-- The low half of a word (R31), cut out as a field or by narrowing. -/
theorem boundCode_eq (w : Word) : boundCode w = (w.setWidth 16).toInt := by
  rw [boundCode, gainCode, BitVec.setWidth_eq_extractLsb' (by decide)]

theorem legalValue_cfgFs_iff (s : State) (v : Word) : legalValue s v .cfgFs = true ↔ 41 ≤ v.toNat := by
  rw [legalValue, decide_eq_true_iff]

theorem legalValue_cfgOrder_iff (s : State) (v : Word) :
    legalValue s v .cfgOrder = true ↔ 1 ≤ v.toNat ∧ v.toNat ≤ s.params.mmax := by
  rw [legalValue, decide_eq_true_iff]

theorem legalValue_cfgBw (s : State) (v : Word) (b : BandIx) : legalValue s v (.cfgBw b) = true := rfl

theorem legalValue_cfgGmin_iff (s : State) (v : Word) :
    legalValue s v .cfgGmin = true ↔
      v.toNat / 2 ^ 16 = 0 ∧ (v.setWidth 16).toInt ≤ (s.cfgGmax.setWidth 16).toInt := by
  rw [legalValue, decide_eq_true_iff, boundCode_eq, boundCode_eq, Nat.div_eq_zero_iff_lt (by decide)]

theorem legalValue_cfgGmax_iff (s : State) (v : Word) :
    legalValue s v .cfgGmax = true ↔
      v.toNat / 2 ^ 16 = 0 ∧ (s.cfgGmin.setWidth 16).toInt ≤ (v.setWidth 16).toInt := by
  rw [legalValue, decide_eq_true_iff, boundCode_eq, boundCode_eq, Nat.div_eq_zero_iff_lt (by decide)]

theorem legalValue_cfgAlpha_iff (s : State) (v : Word) : legalValue s v .cfgAlpha = true ↔ v.toNat ≤ 0x10000 := by
  rw [legalValue, decide_eq_true_iff]

theorem legalValue_cfgDecay_iff (s : State) (v : Word) : legalValue s v .cfgDecay = true ↔ v.toNat ≤ 0x10000 := by
  rw [legalValue, decide_eq_true_iff]

/-- Settles O22, register by register; the upper bound of a sample rate is that of every word. -/
theorem legalValuesByRegister : Obligations.LegalValuesByRegister := by
  unfold Obligations.LegalValuesByRegister
  intro s v
  have hword : v.toNat ≤ 0xFFFFFFFF := Nat.le_of_lt_succ v.isLt
  exact ⟨by rw [legalValue_cfgFs_iff, and_iff_left hword], legalValue_cfgOrder_iff s v, legalValue_cfgBw s v,
    legalValue_cfgGmin_iff s v, legalValue_cfgGmax_iff s v, legalValue_cfgAlpha_iff s v, legalValue_cfgDecay_iff s v⟩

end Sys2Proof.Machine
end

section
/-! PROOFS. The Hamming window of the reference arithmetic in real numbers (R133). -/

namespace Sys2Proof.Machine

theorem hamming_one (A : Arith) (j : Nat) : hamming A 1 j = Val.one := if_pos rfl

theorem toReal_hamming {len : Nat} (h : 2 ≤ len) (j : Nat) :
    (hamming exactArith len j).toReal = 0.54 - 0.46 * Real.cos (2 * Real.pi * j / (len - 1)) := by
  have hform : hamming exactArith len j =
      Exact.sub (.rat (mkRat 54 100)) (Exact.mul (.rat (mkRat 46 100)) (Exact.cos (mkRat j (len - 1)))) :=
    if_neg (by omega)
  have hlen : ((len - 1 : Nat) : ℝ) = len - 1 := Nat.cast_pred (by omega)
  rw [hform, toReal_sub, toReal_mul, toReal_cos, toReal_rat, toReal_rat, cast_mkRat, cast_mkRat, cast_mkRat, hlen,
    Int.cast_natCast, mul_div_assoc]
  norm_num

/-- Settles O28: the cosine window from length 2 on, and the one point of length 1. -/
theorem hammingWindow : Obligations.HammingWindow := by
  unfold Obligations.HammingWindow
  exact ⟨fun len j hlen _ => toReal_hamming hlen j, by rw [hamming_one, toReal_one]⟩

end Sys2Proof.Machine
end

section
/-! PROOFS. The decimal logarithm of the linear gain (R153, R157). -/

namespace Sys2Proof.Machine

theorem logb_toReal_db2lin (g : Int) : Real.logb 10 (exactArith.db2lin g).toReal = (g : ℝ) / 5120 := by
  have hpow : (exactArith.db2lin g).toReal = (10 : ℝ) ^ ((g : ℝ) / 5120) := toReal_db2lin g
  rw [hpow, Real.logb_rpow (by norm_num) (by norm_num)]

/-- Settles O35: the exponent of R153 is the code over `5120 = 20 · 256`, and the logarithm takes it back. -/
theorem gainRoundTrip : Obligations.GainRoundTrip := by
  unfold Obligations.GainRoundTrip
  intro g
  rw [logb_toReal_db2lin]
  ring

end Sys2Proof.Machine
end

section
/-! PROOFS. The frequency-domain steps of `PROC` in complex numbers (R173, R174): what a transform, a product and an inverse
transform of the reference arithmetic stand for, and that together they are the causal convolution (R179). -/

namespace Sys2Proof.Machine

open Complex Finset

/-! ### The roots of unity of a transform -/

theorem rootAt_eq_cos_sin (r : Rat) :
    rootAt r = ⟨Real.cos (2 * Real.pi * r), Real.sin (2 * Real.pi * r)⟩ := by
  have hangle : 2 * Real.pi * I * ((r : ℝ) : ℂ) = (2 * Real.pi * r : ℝ) * I := by push_cast; ring
  rw [rootAt, hangle]
  exact Complex.ext (exp_ofReal_mul_I_re _) (exp_ofReal_mul_I_im _)

theorem rootAt_mkRat (m : Int) (N : Nat) : rootAt (mkRat m N) = exp (2 * Real.pi * I / N) ^ m := by
  rw [rootAt, cast_mkRat, ← exp_int_mul]
  congr 1
  push_cast
  ring

theorem rootAt_mkRat_add (a b : Int) (N : Nat) :
    rootAt (mkRat a N) * rootAt (mkRat b N) = rootAt (mkRat (a + b) N) := by
  rw [rootAt_mkRat, rootAt_mkRat, rootAt_mkRat, zpow_add₀ (exp_ne_zero _)]

/-- The orthogonality of the roots: over all `N` indices they cancel, unless all of them are 1. -/
theorem sum_rootAt {N : Nat} (hN : 0 < N) (m : Int) :
    ∑ k ∈ range N, rootAt (mkRat (m * k) N) = if (N : Int) ∣ m then (N : ℂ) else 0 := by
  have hroot := isPrimitiveRoot_exp N hN.ne'
  have hpow (k : Nat) : rootAt (mkRat (m * k) N) = (exp (2 * Real.pi * I / N) ^ m) ^ k := by
    rw [rootAt_mkRat, zpow_mul, zpow_natCast]
  simp only [hpow]
  split_ifs with hm
  · simp [(hroot.zpow_eq_one_iff_dvd m).mpr hm]
  · have hone : (exp (2 * Real.pi * I / N) ^ m) ^ N = 1 := by
      rw [← zpow_natCast, zpow_comm, zpow_natCast, hroot.pow_eq_one, one_zpow]
    rw [geom_sum_eq (mt (hroot.zpow_eq_one_iff_dvd m).mp hm), hone, sub_self, zero_div]

/-! ### Transforms in complex numbers -/

/-- The complex number a pair of real and imaginary part stands for. -/
noncomputable def complexOf (z : Val × Val) : ℂ := ⟨z.1.toReal, z.2.toReal⟩

theorem sum_map_mapIdx (v : List Val) (f : Nat → Val → Val) :
    ((v.mapIdx f).map Val.toReal).sum = ∑ i ∈ range v.length, (f i (v.getD i Val.zero)).toReal := by
  rw [List.mapIdx_eq_ofFn, List.map_ofFn, List.sum_ofFn, Finset.sum_range]
  refine Finset.sum_congr rfl fun i _ => ?_
  simp

/-- A transform is the sum of R18. -/
theorem complexOf_dftBin (N : Nat) (v : List Val) (k : Nat) :
    complexOf (dftBin exactArith N v k) =
      ∑ i ∈ range v.length, ((v.getD i Val.zero).toReal : ℂ) * rootAt (mkRat (-(i * k : Nat)) N) := by
  have hcos (i : Nat) (x : Val) : (exactArith.mul x (exactArith.cos (mkRat (-(i * k : Nat)) N))).toReal =
      ((x.toReal : ℂ) * rootAt (mkRat (-(i * k : Nat)) N)).re := by
    rw [re_ofReal_mul, rootAt_eq_cos_sin, ← toReal_cos]
    exact toReal_mul ..
  have hsin (i : Nat) (x : Val) : (exactArith.mul x (exactArith.sin (mkRat (-(i * k : Nat)) N))).toReal =
      ((x.toReal : ℂ) * rootAt (mkRat (-(i * k : Nat)) N)).im := by
    rw [im_ofReal_mul, rootAt_eq_cos_sin, ← toReal_sin]
    exact toReal_mul ..
  simp only [complexOf, dftBin, toReal_sumVal, sum_map_mapIdx, hcos, hsin]
  exact Complex.ext (by rw [re_sum]) (by rw [im_sum])

theorem getD_replicate_zero (n i : Nat) : (List.replicate n Val.zero).getD i Val.zero = Val.zero := by
  rw [List.getD_eq_getElem?_getD, List.getElem?_getD_replicate_default_eq]

theorem getD_zeroPadded (N : Nat) (v : List Val) (i : Nat) : (zeroPadded N v).getD i Val.zero = v.getD i Val.zero := by
  rcases lt_or_ge i v.length with hi | hi
  · exact List.getD_append _ _ _ _ hi
  · rw [zeroPadded, List.getD_append_right _ _ _ _ hi, List.getD_eq_default _ _ hi, getD_replicate_zero]

/-- The zeros of the padding add nothing to a transform (R135, R173). -/
theorem complexOf_dftBin_zeroPadded (N M : Nat) (v : List Val) (k : Nat) :
    complexOf (dftBin exactArith N (zeroPadded M v) k) =
      ∑ i ∈ range v.length, ((v.getD i Val.zero).toReal : ℂ) * rootAt (mkRat (-(i * k : Nat)) N) := by
  have hlength : range v.length ⊆ range (zeroPadded M v).length :=
    range_subset_range.mpr (List.length_append ▸ Nat.le_add_right ..)
  simp only [complexOf_dftBin, getD_zeroPadded]
  refine (sum_subset hlength fun i _ hi => ?_).symm
  rw [toReal_getD_of_length_le (not_lt.mp (mt mem_range.mpr hi)), ofReal_zero, zero_mul]

theorem complexOf_mulComplex (a b : Val × Val) :
    complexOf (mulComplex exactArith a b) = complexOf a * complexOf b := by
  refine Complex.ext ?re ?im
  case re =>
    change (Exact.sub (Exact.mul a.1 b.1) (Exact.mul a.2 b.2)).toReal = _
    rw [toReal_sub, toReal_mul, toReal_mul, mul_re, complexOf, complexOf]
  case im =>
    change (Exact.add (Exact.mul a.1 b.2) (Exact.mul a.2 b.1)).toReal = _
    rw [toReal_add, toReal_mul, toReal_mul, mul_im, complexOf, complexOf]

/-- An inverse transform is the sum of R18, its real part taken (R174). -/
theorem toReal_inverseReal (N : Nat) (P : Nat → Val × Val) (t : Nat) :
    (inverseReal exactArith N P t).toReal =
      (∑ k ∈ range N, complexOf (P k) * rootAt (mkRat (t * k : Nat) N)).re / N := by
  have hterm (k : Nat) : (Exact.sub (Exact.mul (P k).1 (Exact.cos (mkRat (t * k : Nat) N)))
      (Exact.mul (P k).2 (Exact.sin (mkRat (t * k : Nat) N)))).toReal =
      (complexOf (P k) * rootAt (mkRat (t * k : Nat) N)).re := by
    rw [toReal_sub, toReal_mul, toReal_mul, toReal_cos, toReal_sin, mul_re, rootAt_eq_cos_sin, complexOf]
  change (Exact.div _ (.rat N)).toReal = _
  rw [toReal_div, toReal_rat, Rat.cast_natCast, toReal_sumVal, List.map_map, re_sum]
  congr 1
  exact congrArg List.sum (List.map_congr_left fun k _ => hterm k)

/-! ### The convolution -/

/-- The sample that tap `j` meets at time `t`, as a sum over all samples of the chunk. -/
theorem sum_sample_meeting (x : List Val) (j t : Nat) :
    ∑ i ∈ range x.length, (if i + j = t then (x.getD i Val.zero).toReal else 0) =
      if j ≤ t then (x.getD (t - j) Val.zero).toReal else 0 := by
  split_ifs with hj
  · have hmeet (i : Nat) : i + j = t ↔ i = t - j := by omega
    simp only [hmeet, sum_ite_eq', mem_range]
    split_ifs with hlt
    · rfl
    · exact (toReal_getD_of_length_le (not_lt.mp hlt)).symm
  · exact sum_eq_zero fun i _ => if_neg (by omega)

/-- One sample against one tap, carried through the frequency domain: `N` at the time they meet and else 0. That their
time is known modulo `N` alone does no harm, because every time up to `n + M - 2` is below `N` (R179). -/
theorem sum_rootAt_meeting {N i j t : Nat} (hij : i + j < N) (ht : t < N) :
    ∑ k ∈ range N, rootAt (mkRat (-(i * k : Nat)) N) * rootAt (mkRat (-(j * k : Nat)) N) * rootAt (mkRat (t * k : Nat) N) =
      ((if i + j = t then (N : ℝ) else 0 : ℝ) : ℂ) := by
  have hturn (k : Nat) : -((i * k : Nat) : Int) + -(j * k : Nat) + (t * k : Nat) = (t - i - j : Int) * k := by
    push_cast; ring
  have hmeet : (N : Int) ∣ t - i - j ↔ i + j = t := by
    refine ⟨fun hdvd => ?_, fun h => ⟨0, by omega⟩⟩
    have := Int.eq_zero_of_abs_lt_dvd hdvd (abs_lt.mpr (by omega))
    omega
  simp only [rootAt_mkRat_add, hturn, sum_rootAt (by omega : 0 < N), hmeet, apply_ite ofReal, ofReal_natCast, ofReal_zero]

/-- The product of the two transforms, transformed back, is every sample against every tap. -/
theorem sum_product_of_transforms {N : Nat} {h x : List Val} {t : Nat} (hN : x.length + h.length - 1 ≤ N) (ht : t < N) :
    ∑ k ∈ range N, complexOf (mulComplex exactArith (dftBin exactArith N (zeroPadded N x) k)
        (filterTransform exactArith N h k)) * rootAt (mkRat (t * k : Nat) N) =
      (∑ j ∈ range h.length, ∑ i ∈ range x.length, (h.getD j Val.zero).toReal * (x.getD i Val.zero).toReal *
        if i + j = t then (N : ℝ) else 0 : ℝ) := by
  calc
    _ = ∑ k ∈ range N, ∑ j ∈ range h.length, ∑ i ∈ range x.length,
          ((h.getD j Val.zero).toReal : ℂ) * (x.getD i Val.zero).toReal *
            (rootAt (mkRat (-(i * k : Nat)) N) * rootAt (mkRat (-(j * k : Nat)) N) * rootAt (mkRat (t * k : Nat) N)) := by
      simp only [complexOf_mulComplex, filterTransform, complexOf_dftBin_zeroPadded, sum_mul, mul_sum]
      exact sum_congr rfl fun k _ => sum_congr rfl fun j _ => sum_congr rfl fun i _ => by ring
    _ = ∑ j ∈ range h.length, ∑ i ∈ range x.length, ∑ k ∈ range N,
          ((h.getD j Val.zero).toReal : ℂ) * (x.getD i Val.zero).toReal *
            (rootAt (mkRat (-(i * k : Nat)) N) * rootAt (mkRat (-(j * k : Nat)) N) * rootAt (mkRat (t * k : Nat) N)) := by
      rw [sum_comm, sum_congr rfl fun j _ => sum_comm]
    _ = _ := by
      rw [ofReal_sum]
      refine sum_congr rfl fun j hj => ?_
      rw [ofReal_sum]
      refine sum_congr rfl fun i hi => ?_
      have hi := mem_range.mp hi
      have hj := mem_range.mp hj
      rw [← mul_sum, sum_rootAt_meeting (by omega) ht, ofReal_mul, ofReal_mul]

theorem sum_meetings_eq_streamConv (N : Nat) (h x : List Val) (t : Nat) :
    ∑ j ∈ range h.length, ∑ i ∈ range x.length, (h.getD j Val.zero).toReal * (x.getD i Val.zero).toReal *
      (if i + j = t then (N : ℝ) else 0) = N * streamConv h x t := by
  rw [streamConv, mul_sum]
  refine sum_congr rfl fun j _ => ?_
  rw [← mul_ite_zero, ← sum_sample_meeting, mul_sum, mul_sum]
  refine sum_congr rfl fun i _ => ?_
  split_ifs <;> ring

/-- The frequency-domain steps are the causal convolution (R173, R174, R179). -/
theorem toReal_bandSignalFrequency {N : Nat} (h x : List Val) {t : Nat} (hN : x.length + h.length - 1 ≤ N) (ht : t < N) :
    (bandSignalFrequency exactArith N h x t).toReal = streamConv h x t := by
  have hN0 : (N : ℝ) ≠ 0 := Nat.cast_ne_zero.mpr (by omega)
  rw [bandSignalFrequency, toReal_inverseReal, sum_product_of_transforms hN ht, ofReal_re, sum_meetings_eq_streamConv,
    mul_div_cancel_left₀ _ hN0]

/-- The convolution of a chunk ends where its last sample meets the last tap (R179). -/
theorem streamConv_eq_zero_of_le {h x : List Val} {t : Nat} (hM : 1 ≤ h.length) (ht : x.length + h.length - 1 ≤ t) :
    streamConv h x t = 0 := by
  refine sum_eq_zero fun j hj => ?_
  have hj := mem_range.mp hj
  rw [toReal_getD_of_length_le (v := x) (by omega), mul_zero, ite_self]

/-- Settles O38: each of the two forms is the convolution in real numbers, and that ends at `n + M - 1`. -/
theorem frequencyAndTimeFormsAgree : Obligations.FrequencyAndTimeFormsAgree := by
  unfold Obligations.FrequencyAndTimeFormsAgree
  intro N h x t hM _ hN ht
  exact ⟨toReal_bandSignalFrequency h x hN ht, toReal_bandSignal h x t, streamConv_eq_zero_of_le hM⟩

end Sys2Proof.Machine
end

section
/-! PROOFS. The output sample in real numbers (R172, R175, R177) and the tail update, position by position (R176). -/

namespace Sys2Proof.Machine

theorem toReal_effectiveGain (b : Band) : (effectiveGain b).toReal = if b.mute then 0 else b.lin.toReal := by
  rw [effectiveGain, apply_ite Val.toReal, toReal_zero]

@[simp] theorem gainSnapshot_get (s : State) (b : BandIx) :
    (gainSnapshot s).get b = effectiveGain (s.band.get b) := PerBand.get_build ..

/-- The mix of the reference arithmetic is the sum over the bands, in whatever order it adds. -/
theorem toReal_mixBands (g out : PerBand Val) :
    (mixBands exactArith g out).toReal = ∑ b : BandIx, (g.get b).toReal * (out.get b).toReal := by
  rw [Fin.sum_univ_five]
  simp only [mixBands, exactArith, toReal_add, toReal_mul]
  rfl

/-- Settles O39: the mix of the bands, with each band's overlapped output and effective gain in real numbers. -/
theorem compositeIsTheGainedSum : Obligations.CompositeIsTheGainedSum := by
  unfold Obligations.CompositeIsTheGainedSum
  intro h x s c t
  simp only [compositeAt, toReal_mixBands, gainSnapshot_get, PerBand.get_build, toReal_effectiveGain, toReal_overlapOut]

/-- The rows of a channel after the tail update (R176). -/
theorem tailOf_nextTail (A : Arith) (h : PerBand (List Val)) (x : List (List Val)) (s : State) {c : Nat}
    (hc : c < s.params.nch) (b : BandIx) :
    (tailOf { s with tail := nextTail A h x s } c).get b =
      overlapTail A s.params.mmax (h.get b) (x.getD c []) ((tailOf s c).get b) := by
  simp [tailOf, nextTail, hc]

/-- A position of a new tail row (R176). -/
theorem overlapTail_getElem? (A : Arith) {mmax k : Nat} (h x row : List Val) (hk : k < mmax - 1) :
    (overlapTail A mmax h x row)[k]? = some (if k < h.length - 1 then
      A.add (if k + x.length < h.length - 1 then row.getD (k + x.length) Val.zero else Val.zero)
        (bandSignal A h x (x.length + k)) else Val.zero) := by
  rw [overlapTail, List.getElem?_map, List.getElem?_range hk, Option.map_some]

/-- Settles O40: the position of the new row, its sum in real numbers where the filter reaches it. -/
theorem tailUpdate : Obligations.TailUpdate := by
  unfold Obligations.TailUpdate
  intro h x s c b k hc hk
  refine ⟨_, by rw [tailOf_nextTail _ _ _ _ hc, overlapTail_getElem? _ _ _ _ hk], fun hin => ?inUse, fun hout => ?beyond⟩
  case inUse =>
    rw [if_pos hin]
    change (Exact.add _ _).toReal = _
    rw [toReal_add, toReal_bandSignal, apply_ite Val.toReal, toReal_zero]
  case beyond => rw [if_neg (not_lt.mpr hout)]

end Sys2Proof.Machine
end

section
/-! PROOFS. A silent chunk (R181): its samples are zero, so with N1 every band signal is, and a zero tail that is due adds
nothing to it. -/

namespace Sys2Proof.Machine

/-- The two words of zero denote 0 (R70). -/
theorem decVal_of_zeroWord {w : Word} (hw : w = 0x00000000 ∨ w = 0x80000000) : decVal w = Val.zero := by
  rcases hw with rfl | rfl <;> decide +kernel

theorem payloadNonFinite_of_zeroWords {ws : List Word} (hws : ∀ w ∈ ws, w = 0x00000000 ∨ w = 0x80000000) :
    payloadNonFinite ws = false := by
  rw [payloadNonFinite_eq_false_iff]
  intro w hw
  rcases hws w hw with rfl | rfl <;> decide

theorem getD_of_zeroWords {ws : List Word} (hws : ∀ w ∈ ws, w = 0x00000000 ∨ w = 0x80000000) (i : Nat) :
    ws.getD i 0 = 0x00000000 ∨ ws.getD i 0 = 0x80000000 := by
  rcases lt_or_ge i ws.length with hi | hi
  · exact List.getD_eq_getElem ws 0 hi ▸ hws _ (List.getElem_mem hi)
  · exact .inl (List.getD_eq_default ws 0 hi)

/-- Every channel of a silent payload holds zeros. -/
theorem channelsOf_of_zeroWords {ws : List Word} (hws : ∀ w ∈ ws, w = 0x00000000 ∨ w = 0x80000000)
    {nch n c : Nat} (hc : c < nch) : (channelsOf nch n ws).getD c [] = List.replicate n Val.zero := by
  simp only [channelsOf_getD ws hc, decVal_of_zeroWord (getD_of_zeroWords hws _), List.map_const', List.length_range]

theorem payloadOf_const (nch n : Nat) (w : Word) : payloadOf nch n (fun _ _ => w) = List.replicate (n * nch) w := by
  rw [List.eq_replicate_iff]
  refine ⟨length_payloadOf .., fun v hv => ?_⟩
  simp only [payloadOf, List.mem_flatMap, List.mem_map] at hv
  obtain ⟨_, _, _, _, rfl⟩ := hv
  rfl

section N1

variable {A : Arith} (hA : A.N1)
include hA

/-- A sum of zeros, under N1. -/
theorem sumVal_replicate_zero (k : Nat) : sumVal A (List.replicate k Val.zero) = Val.zero := by
  induction k with
  | zero => rfl
  | succ k ih => rwa [List.replicate_succ, sumVal, List.foldl_cons, hA.addZero]

theorem bandSignal_replicate_zero (h : List Val) (n t : Nat) :
    bandSignal A h (List.replicate n Val.zero) t = Val.zero := by
  have hterm (j : Nat) :
      A.mul (h.getD j Val.zero) ((List.replicate n Val.zero).getD (t - j) Val.zero) = Val.zero := by
    rw [getD_replicate_zero, hA.mulZero]
  simp only [bandSignal, hterm, List.map_const', sumVal_replicate_zero hA]

theorem overlapOut_replicate_zero (h row : List Val) (n : Nat) {t : Nat}
    (hrow : t < h.length - 1 → row.getD t Val.zero = Val.zero) :
    overlapOut A h (List.replicate n Val.zero) row t = Val.zero := by
  have hdue : (if t < h.length - 1 then row.getD t Val.zero else Val.zero) = Val.zero := by
    split_ifs with ht
    · exact hrow ht
    · rfl
  rw [overlapOut, bandSignal_replicate_zero hA, hdue, hA.addZero]

/-- Whatever the gains, a mix of zeros is zero under N1. -/
theorem mixBands_build_zero (g : PerBand Val) : mixBands A g (PerBand.build fun _ => Val.zero) = Val.zero := by
  simp only [mixBands, PerBand.build, hA.mulZero, hA.addZero]

end N1

/-- The output sample of a silent chunk (R181). -/
theorem compositeAt_silent {A : Arith} (hA : A.N1) {h : PerBand (List Val)} {ws : List Word} {s : State} {n c t : Nat}
    (hws : ∀ w ∈ ws, w = 0x00000000 ∨ w = 0x80000000) (hc : c < s.params.nch)
    (htail : ∀ b, t < (h.get b).length - 1 → ((tailOf s c).get b).getD t Val.zero = Val.zero) :
    compositeAt A h (channelsOf s.params.nch n ws) s c t = Val.zero := by
  simp only [compositeAt, channelsOf_of_zeroWords hws hc, overlapOut_replicate_zero hA _ _ _ (htail _),
    mixBands_build_zero hA]

theorem outputWords_getD {A : Arith} {h : PerBand (List Val)} {x : List (List Val)} {s : State} {n c t : Nat}
    (hc : c < s.params.nch) (ht : t < n) :
    ((outputWords A h x n s).getD c []).getD t 0 = A.enc (compositeAt A h x s c t) := by
  simp [outputWords, hc, ht]

/-- `PROC` reaches its commit when the payload and its own checks let it (R171, R230). -/
theorem procWith_commits {A : Arith} {n : BitVec 16} {ws : List Word} {s : State} {h : PerBand (List Val)}
    (hws : payloadNonFinite ws = false) (hrun : s.run = true) (hn : n ≠ 0) (hbank : s.bank = some h) :
    procWith A n ws s = commitChunk A h n ws s := by
  rw [procWith, hws, hrun, hbank, if_neg Bool.false_ne_true, if_neg (by decide), if_neg hn]

/-- Settles O42: every output sample is zero, so each response word is the word of zero. -/
theorem silenceInSilenceOut : Obligations.SilenceInSilenceOut := by
  unfold Obligations.SilenceInSilenceOut
  intro A n ws s h hA henc hrun hn hbank hws htail
  have hzero (c t : Nat) (hc : c < s.params.nch) (ht : t < n.toNat) :
      compositeAt A h (channelsOf s.params.nch n.toNat ws) s c t = Val.zero :=
    compositeAt_silent hA hws hc fun b htb => htail c b t hc (lt_min ht htb)
  have hpayload : payloadOf s.params.nch n.toNat (fun c t =>
      ((outputWords A h (channelsOf s.params.nch n.toNat ws) n.toNat s).getD c []).getD t 0) =
      List.replicate (n.toNat * s.params.nch) 0x00000000 := by
    rw [← payloadOf_const]
    exact payloadOf_congr fun c t hc ht => by rw [outputWords_getD hc ht, hzero c t hc ht, henc]
  rw [procWith_commits (payloadNonFinite_of_zeroWords hws) hrun hn hbank, commitChunk, hpayload]
  exact ⟨hzero, _, rfl, rfl⟩

end Sys2Proof.Machine
end

section
/-! PROOFS. The analyzer in real numbers (R192 to R200): the windowed mean of the channels, the raw level of a band, the
normalisation by the frame maximum, the blend of the levels and the decay of the peaks. -/

namespace Sys2Proof.Machine

/-! ### The operations of the reference arithmetic and the codes of the fractions -/

@[simp] theorem exactArith_add : exactArith.add = Exact.add := rfl
@[simp] theorem exactArith_sub : exactArith.sub = Exact.sub := rfl
@[simp] theorem exactArith_mul : exactArith.mul = Exact.mul := rfl
@[simp] theorem exactArith_div : exactArith.div = Exact.div := rfl
@[simp] theorem exactArith_max : exactArith.max = Exact.max := rfl

/-- A legal code of 17 bits is a fraction over `0x10000` (R32, R33). -/
theorem toReal_fraction {w : Word} (hw : w.toNat ≤ 65536) : (fraction w).toReal = (w.toNat : ℝ) / 65536 := by
  have hlow : (w.extractLsb' 0 17).toNat = w.toNat := by
    rw [BitVec.extractLsb'_toNat, Nat.shiftRight_zero, Nat.mod_eq_of_lt (by omega)]
  rw [fraction, toReal_rat, cast_mkRat, hlow, Int.cast_natCast, Nat.cast_ofNat]

theorem fraction_mem_unitInterval {w : Word} (hw : w.toNat ≤ 65536) : (w.toNat : ℝ) / 65536 ∈ Set.Icc (0 : ℝ) 1 :=
  ⟨by positivity, div_le_one_of_le₀ (by exact_mod_cast hw) (by norm_num)⟩

/-! ### Downmix, window and aggregate -/

/-- A sample of the downmix is the mean of the channels; with one channel it is the channel's sample (R192). -/
theorem toReal_downmix_getD {nch n t : Nat} (u : List (List Val)) (ht : t < n) :
    ((downmix exactArith nch n u).getD t Val.zero).toReal =
      (∑ c ∈ Finset.range nch, (sampleAt u c t).toReal) / nch := by
  rw [downmix, List.getD_eq_getElem?_getD, List.getElem?_map, List.getElem?_range ht, Option.map_some, Option.getD_some]
  split_ifs with hone
  · simp [hone]
  · rw [exactArith_div, toReal_div, toReal_sumVal, List.map_map, toReal_rat, Rat.cast_natCast]
    rfl

/-- A sample of the windowed chunk (R193). -/
theorem windowed_getElem? (A : Arith) {n t : Nat} (sig : List Val) (ht : t < n) :
    (windowed A n sig)[t]? = some (A.mul (sig.getD t Val.zero) (hamming A n t)) := by
  rw [windowed, List.getElem?_map, List.getElem?_range ht, Option.map_some]

/-- The raw level of a band: nothing where no bin falls in it, else the mean of its magnitudes (R197). -/
theorem toReal_rawLevel (na fs n i : Nat) (v : List Val) :
    (rawLevel exactArith na fs n v i).toReal =
      if binsOf exactArith na fs n i = [] then 0
      else ((binsOf exactArith na fs n i).map fun k => (magnitudeAt exactArith n v k).toReal).sum /
        (binsOf exactArith na fs n i).length := by
  rw [rawLevel]
  simp only [List.length_eq_zero_iff]
  split_ifs with hempty
  · exact toReal_zero
  · rw [exactArith_div, toReal_div, toReal_sumVal, List.map_map, toReal_rat, Rat.cast_natCast]
    rfl

/-- Settles O52: the windowed mean sample by sample, the mean of the magnitudes bin by bin, and `chunkNorm` as the
normalisation of those raw levels. -/
theorem downmixWindowAndAggregate : Obligations.DownmixWindowAndAggregate := by
  unfold Obligations.DownmixWindowAndAggregate
  refine ⟨fun nch n u t _ ht => ⟨_, windowed_getElem? _ _ ht, ?_⟩, toReal_rawLevel, fun _ _ _ _ => rfl⟩
  rw [exactArith_mul, toReal_mul, toReal_downmix_getD u ht]

/-! ### Normalisation -/

/-- A running maximum stands for the value it started from or for one of the values it met. -/
theorem exists_toReal_eq_foldl_max (vs : List Val) (a : Val) :
    ∃ v ∈ a :: vs, v.toReal = (vs.foldl Exact.max a).toReal := by
  induction vs generalizing a with
  | nil => exact ⟨a, List.mem_cons_self, rfl⟩
  | cons w ws ih =>
    obtain ⟨v, hv, heq⟩ := ih (Exact.max a w)
    rw [List.foldl_cons, ← heq]
    rcases List.mem_cons.mp hv with rfl | hv
    · rw [toReal_max]
      rcases max_choice a.toReal w.toReal with h | h
      · exact ⟨a, by simp, h.symm⟩
      · exact ⟨w, by simp, h.symm⟩
    · exact ⟨v, by simp [hv], rfl⟩

/-- The maximum of a list is attained in the reals. -/
theorem exists_toReal_eq_maxVal {vs : List Val} (hvs : vs ≠ []) :
    ∃ v ∈ vs, v.toReal = (maxVal exactArith vs).toReal := by
  cases vs with
  | nil => exact absurd rfl hvs
  | cons w ws => exact exists_toReal_eq_foldl_max ws w

/-- The normalised levels: the quotients by the frame maximum where it is positive, else zeros (R198). The test of the
maximum is right because a defined value is compared exactly. -/
theorem map_toReal_normalise {raw : List Val} (hraw : ∀ r ∈ raw, r.Defined) :
    (normalise exactArith raw).map Val.toReal = raw.map fun r =>
      if 0 < (maxVal exactArith raw).toReal then r.toReal / (maxVal exactArith raw).toReal else 0 := by
  have htest : compareRat (maxVal exactArith raw) 0 = .gt ↔ 0 < (maxVal exactArith raw).toReal := by
    rw [compareRat_eq_gt (defined_maxVal hraw), Rat.cast_zero]
  simp only [normalise, htest]
  split_ifs
  · rw [List.map_map]
    exact List.map_congr_left fun r _ => toReal_div ..
  · rw [List.map_map]
    exact List.map_congr_left fun r _ => toReal_zero

/-- Settles O53: the maximum is attained and bounds every raw level, so the quotients by it lie in `[0, 1]` and the one of
the level that attains it is 1. -/
theorem normalisedLevels : Obligations.NormalisedLevels := by
  unfold Obligations.NormalisedLevels
  intro raw hne hdef hnonneg
  obtain ⟨top, htop, heq⟩ := exists_toReal_eq_maxVal hne
  have hnorm := map_toReal_normalise hdef
  refine ⟨_, ⟨top, htop, heq⟩, fun r hr => le_maxVal hr, hnorm, fun v hv => ?range, fun hpos => ?one⟩
  case range =>
    have hmem := List.mem_map_of_mem (f := Val.toReal) hv
    rw [hnorm, List.mem_map] at hmem
    obtain ⟨r, hr, hval⟩ := hmem
    rw [← hval]
    split_ifs with hpos
    · exact ⟨div_nonneg (hnonneg r hr) hpos.le, div_le_one_of_le₀ (le_maxVal hr) hpos.le⟩
    · exact ⟨le_rfl, zero_le_one⟩
  case one =>
    rw [← List.mem_map, hnorm, List.mem_map]
    exact ⟨top, htop, by rw [if_pos hpos, heq, div_self hpos.ne']⟩

/-! ### Smoothing and peak decay -/

theorem nextLevel_getElem? (A : Arith) (norm : List Val) (s : State) {i : Nat} (hi : i < s.params.na) :
    (nextLevel A norm s)[i]? =
      some (smoothLevel A (fraction s.cfgAlpha) (norm.getD i Val.zero) (s.level.getD i Val.zero)) := by
  rw [nextLevel, List.getElem?_map, List.getElem?_range hi, Option.map_some]

theorem nextPeak_getElem? (A : Arith) (level' : List Val) (s : State) {i : Nat} (hi : i < s.params.na) :
    (nextPeak A level' s)[i]? =
      some (decayPeak A (fraction s.cfgDecay) (s.peak.getD i Val.zero) (level'.getD i Val.zero)) := by
  rw [nextPeak, List.getElem?_map, List.getElem?_range hi, Option.map_some]

theorem toReal_smoothLevel (alpha norm level : Val) : (smoothLevel exactArith alpha norm level).toReal =
    alpha.toReal * norm.toReal + (1 - alpha.toReal) * level.toReal := by
  rw [smoothLevel, exactArith_add, exactArith_sub, exactArith_mul, toReal_add, toReal_mul, toReal_mul, toReal_sub,
    toReal_one]

theorem toReal_decayPeak (decay peak level' : Val) : (decayPeak exactArith decay peak level').toReal =
    max (peak.toReal * decay.toReal) level'.toReal := by
  rw [decayPeak, exactArith_max, exactArith_mul, toReal_max, toReal_mul]

/-- A blend whose weight is a fraction lies between what it blends (property N6). -/
theorem blend_mem_Icc {a : ℝ} (ha : a ∈ Set.Icc (0 : ℝ) 1) (x y : ℝ) :
    a * x + (1 - a) * y ∈ Set.Icc (min x y) (max x y) :=
  ⟨Convex.min_le_combo x y ha.1 (sub_nonneg.mpr ha.2) (add_sub_cancel a 1),
    Convex.combo_le_max x y ha.1 (sub_nonneg.mpr ha.2) (add_sub_cancel a 1)⟩

/-- A peak scaled by a fraction, or the level above it, stays in the unit interval with both of them. -/
theorem max_mul_mem_unitInterval {d p l : ℝ} (hd : d ∈ Set.Icc (0 : ℝ) 1) (hp : p ∈ Set.Icc (0 : ℝ) 1)
    (hl : l ∈ Set.Icc (0 : ℝ) 1) : max (p * d) l ∈ Set.Icc (0 : ℝ) 1 :=
  ⟨le_max_of_le_right hl.1, max_le (mul_le_one₀ hp.2 hd.1 hd.2) hl.2⟩

/-- Settles O54: the new level is a blend whose weight is the fraction alpha, the new peak the greater of the old one
scaled by the fraction decay and the level. -/
theorem smoothingAndPeakDecay : Obligations.SmoothingAndPeakDecay := by
  unfold Obligations.SmoothingAndPeakDecay
  intro norm level' s i hi halpha hdecay
  constructor
  case left =>
    refine ⟨_, nextLevel_getElem? _ _ _ hi, ?_⟩
    rw [toReal_smoothLevel, toReal_fraction halpha]
    exact ⟨rfl, blend_mem_Icc (fraction_mem_unitInterval halpha) _ _⟩
  case right =>
    refine ⟨_, nextPeak_getElem? _ _ _ hi, ?_⟩
    rw [toReal_decayPeak, toReal_fraction hdecay]
    exact ⟨rfl, fun hp hp' hl hl' =>
      max_mul_mem_unitInterval (fraction_mem_unitInterval hdecay) ⟨hp, hp'⟩ ⟨hl, hl'⟩⟩

end Sys2Proof.Machine
end

section
/-! PROOFS. The round trip of packets (R92 to R94, R98 to R101): the fields of each header format, what each format's
decoder makes of a header the encoder built, and that a header a decoder accepts is the one the encoder builds. -/

namespace Sys2Proof

/-! ### The fields of the headers the encoder builds -/

theorem opField_headerZ (op : BitVec 8) : opField (headerZ op) = op :=
  BitVec.eq_of_toNat_eq (by rw [toNat_opField, toNat_headerZ]; omega)

theorem opField_headerG (op : BitVec 8) (b : BandIx) (v : BitVec 16) : opField (headerG op b v) = op := by
  have := b.isLt
  exact BitVec.eq_of_toNat_eq (by rw [toNat_opField, toNat_headerG]; omega)

theorem opField_headerN (op : BitVec 8) (s : BitVec 1) (n : BitVec 16) : opField (headerN op s n) = op :=
  BitVec.eq_of_toNat_eq (by rw [toNat_opField, toNat_headerN]; omega)

theorem opField_headerR (op a : BitVec 8) : opField (headerR op a) = op :=
  BitVec.eq_of_toNat_eq (by rw [toNat_opField, toNat_headerR]; omega)

theorem lowField_headerG (op : BitVec 8) (b : BandIx) (v : BitVec 16) : lowField (headerG op b v) = v :=
  BitVec.eq_of_toNat_eq (by rw [toNat_lowField, toNat_headerG]; omega)

theorem lowField_headerN (op : BitVec 8) (s : BitVec 1) (n : BitVec 16) : lowField (headerN op s n) = n :=
  BitVec.eq_of_toNat_eq (by rw [toNat_lowField, toNat_headerN]; omega)

theorem addrField_headerR (op a : BitVec 8) : addrField (headerR op a) = a :=
  BitVec.eq_of_toNat_eq (by rw [toNat_addrField, toNat_headerR]; omega)

theorem bandField_headerG (op : BitVec 8) (b : BandIx) (v : BitVec 16) : (bandField (headerG op b v)).toNat = b.val := by
  have := b.isLt
  rw [toNat_bandField, toNat_headerG]
  omega

theorem sourceBit_headerN (op : BitVec 8) (s : Bool) (n : BitVec 16) :
    sourceBit (headerN op (BitVec.ofBool s) n) = s := by
  have hs : (op.toNat * 2 ^ 24 + s.toNat * 2 ^ 16 + n.toNat) / 2 ^ 16 % 2 = s.toNat := by
    have := s.toNat_le
    omega
  rw [sourceBit_eq, toNat_headerN, toNat_ofBool, hs]
  cases s <;> rfl

theorem sourceBit_headerN_zero (op : BitVec 8) (n : BitVec 16) : sourceBit (headerN op 0 n) = false :=
  sourceBit_headerN op false n

theorem sourceBit_headerN_one (op : BitVec 8) (n : BitVec 16) : sourceBit (headerN op 1 n) = true :=
  sourceBit_headerN op true n

/-! ### Decoding what the encoder built -/

theorem decodeBand_headerG (op : BitVec 8) (b : BandIx) (v : BitVec 16) : decodeBand (headerG op b v) = .ok b := by
  have hb := bandField_headerG op b v
  rw [decodeBand, dif_pos (hb ▸ b.isLt)]
  exact congrArg Except.ok (Fin.ext hb)

theorem decodeZ_headerZ (op : BitVec 8) (i : Instr) : decodeZ (headerZ op) i = .ok (.done i) :=
  if_pos ((field_eq_zero_iff ..).mpr (by rw [toNat_headerZ]; omega))

theorem decodeR_headerR (op a : BitVec 8) (h : BitVec 8 → Header) : decodeR (headerR op a) h = .ok (h a) := by
  rw [decodeR, if_pos ((lowField_eq_zero_iff _).mpr (by rw [toNat_headerR]; omega)), addrField_headerR]

theorem reserved_headerG (op : BitVec 8) (b : BandIx) (v : BitVec 16) : (headerG op b v).extractLsb' 19 5 = 0 := by
  have := b.isLt
  rw [field_eq_zero_iff, toNat_headerG]
  omega

theorem decodeSetgain_headerG (op : BitVec 8) (b : BandIx) (v : BitVec 16) :
    decodeSetgain (headerG op b v) = .ok (.done (.setgain b v)) := by
  rw [decodeSetgain, if_pos (reserved_headerG op b v), decodeBand_headerG, lowField_headerG]
  rfl

theorem decodeSetmute_headerG (op : BitVec 8) (b : BandIx) (m : Bool) :
    decodeSetmute (headerG op b (0#15 ++ BitVec.ofBool m)) = .ok (.done (.setmute b m)) := by
  have hlow : (headerG op b (0#15 ++ BitVec.ofBool m)).toNat = op.toNat * 2 ^ 24 + b.val * 2 ^ 16 + m.toNat := by
    rw [toNat_headerG, toNat_append_eq, toNat_ofBool]
    simp
  have hm := m.toNat_le
  have hreserved : (headerG op b (0#15 ++ BitVec.ofBool m)).extractLsb' 1 15 = 0 := by
    rw [field_eq_zero_iff, hlow]
    omega
  have hbit : (headerG op b (0#15 ++ BitVec.ofBool m)).getLsbD 0 = m := by
    rw [bit_eq_decide, hlow, show (op.toNat * 2 ^ 24 + b.val * 2 ^ 16 + m.toNat) / 2 ^ 0 % 2 = m.toNat by omega]
    cases m <;> rfl
  rw [decodeSetmute, if_pos ⟨reserved_headerG .., hreserved⟩, decodeBand_headerG, hbit]
  rfl

theorem reserved_headerN (op : BitVec 8) (s : BitVec 1) (n : BitVec 16) : (headerN op s n).extractLsb' 17 7 = 0 := by
  rw [field_eq_zero_iff, toNat_headerN]
  omega

theorem decodeChunk_headerN {p : Params} (op : BitVec 8) (s : BitVec 1) {n : BitVec 16} (hn : n.toNat ≤ p.cap)
    (h : BitVec 16 → Header) : decodeChunk p (headerN op s n) h = .ok (h n) := by
  rw [decodeChunk, lowField_headerN, if_pos hn]

theorem decodeProc_headerN {p : Params} (op : BitVec 8) {n : BitVec 16} (hn : n.toNat ≤ p.cap) :
    decodeProc p (headerN op 0 n) = .ok (.proc n) := by
  rw [decodeProc, if_pos (reserved_headerN ..), sourceBit_headerN_zero, if_neg Bool.false_ne_true,
    decodeChunk_headerN _ _ hn]

theorem decodeAnlz_headerN {p : Params} (op : BitVec 8) {n : BitVec 16} (hn : n.toNat ≤ p.cap) :
    decodeAnlz p (headerN op 0 n) = .ok (.anlz n) := by
  rw [decodeAnlz, if_pos (reserved_headerN ..), sourceBit_headerN_zero, if_neg Bool.false_ne_true,
    decodeChunk_headerN _ _ hn]

theorem decodeAnlz_headerN_source (p : Params) (op : BitVec 8) :
    decodeAnlz p (headerN op 1 0) = .ok (.done .anlzl) := by
  rw [decodeAnlz, if_pos (reserved_headerN ..), sourceBit_headerN_one, if_pos rfl, lowField_headerN, if_pos rfl]

/-! ### The header and the payload of a command -/

/-- The header of a command, before its payload. -/
def headOf : Instr → Header
  | .proc n _ => .proc n
  | .anlz n _ => .anlz n
  | .wrcfg a _ => .wrcfg a
  | i => .done i

/-- The header word of a command (R92, R94). -/
def headWord (i : Instr) : Word := (encode i).headD 0

/-- The payload words of a command (R93). -/
def payloadWords (i : Instr) : List Word := (encode i).tail

theorem encode_eq_cons (i : Instr) : encode i = headWord i :: payloadWords i := by cases i <;> rfl

theorem headOf_withPayload (i : Instr) : (headOf i).withPayload (payloadWords i) = i := by cases i <;> rfl

theorem length_payloadWords {p : Params} {i : Instr} (hi : i.wf p = true) :
    (payloadWords i).length = (headOf i).payloadLen p := by
  cases i with
  | proc n ws | anlz n ws => exact (of_decide_eq_true hi).2
  | _ => rfl

/-- The header of a well-formed command decodes to that command's header (R92, R94, R100). -/
theorem decodeHeader_headWord {p : Params} {i : Instr} (hi : i.wf p = true) :
    decodeHeader p (headWord i) = .ok (headOf i) := by
  cases i with
  | build | start | stop | getlast | getframe =>
    simp only [headWord, encode, List.headD_cons, decodeHeader, opField_headerZ]
    exact decodeZ_headerZ ..
  | setgain b v =>
    simp only [headWord, encode, List.headD_cons, decodeHeader, opField_headerG]
    exact decodeSetgain_headerG ..
  | setmute b m =>
    simp only [headWord, encode, List.headD_cons, decodeHeader, opField_headerG]
    exact decodeSetmute_headerG ..
  | proc n ws =>
    simp only [headWord, encode, List.headD_cons, decodeHeader, opField_headerN]
    exact decodeProc_headerN _ (of_decide_eq_true hi).1
  | anlz n ws =>
    simp only [headWord, encode, List.headD_cons, decodeHeader, opField_headerN]
    exact decodeAnlz_headerN _ (of_decide_eq_true hi).1
  | anlzl =>
    simp only [headWord, encode, List.headD_cons, decodeHeader, opField_headerN]
    exact decodeAnlz_headerN_source ..
  | wrcfg a v | rdreg a =>
    simp only [headWord, encode, List.headD_cons, decodeHeader, opField_headerR]
    exact decodeR_headerR ..

/-- A legal header with its whole payload behind it decodes to the command they make (R93, R102). -/
theorem decode_of_header {p : Params} {c : Word} {h : Header} (hc : decodeHeader p c = .ok h) {ws : List Word}
    (hws : ws.length = h.payloadLen p) (rest : List Word) : decode p (c :: (ws ++ rest)) = .ok (h.withPayload ws, rest) := by
  rw [decode, hc]
  dsimp only
  rw [← hws, if_neg (by simp), List.take_left, List.drop_left]

/-- Settles O1: the header word gives the command's header back, which announces the payload that follows it. -/
theorem decodeOfEncode : Obligations.DecodeOfEncode := by
  unfold Obligations.DecodeOfEncode
  intro p i rest hi
  rw [encode_eq_cons, List.cons_append, decode_of_header (decodeHeader_headWord hi) (length_payloadWords hi),
    headOf_withPayload]

/-! ### A header that a decoder accepts is the encoder's -/

section Accepted

theorem opField_eq_ofNat {c : Word} {k : Nat} (h : (opField c).toNat = k) : opField c = BitVec.ofNat 8 k := by
  rw [← h, BitVec.ofNat_toNat, BitVec.setWidth_eq]

theorem toNat_decide_odd (k : Nat) : (decide (k % 2 = 1)).toNat = k % 2 := by
  rcases Nat.mod_two_eq_zero_or_one k with h | h <;> rw [h] <;> rfl

variable {c : Word} {op : BitVec 8} (hop : opField c = op)
include hop

theorem toNat_of_opField : c.toNat / 2 ^ 24 = op.toNat := by rw [← hop, toNat_opField]

theorem eq_headerZ (hz : c.extractLsb' 0 24 = 0) : c = headerZ op := by
  have hop := toNat_of_opField hop
  rw [field_eq_zero_iff] at hz
  exact BitVec.eq_of_toNat_eq (by rw [toNat_headerZ]; omega)

theorem eq_headerR (hz : lowField c = 0) : c = headerR op (addrField c) := by
  have hop := toNat_of_opField hop
  rw [lowField_eq_zero_iff] at hz
  exact BitVec.eq_of_toNat_eq (by rw [toNat_headerR, toNat_addrField]; omega)

theorem eq_headerG (hz : c.extractLsb' 19 5 = 0) {b : BandIx} (hb : decodeBand c = .ok b) {v : BitVec 16}
    (hv : v.toNat = c.toNat % 2 ^ 16) : c = headerG op b v := by
  have hop := toNat_of_opField hop
  rw [field_eq_zero_iff] at hz
  have hband : b.val = c.toNat / 2 ^ 16 % 8 := by
    unfold decodeBand at hb
    split_ifs at hb
    cases hb
    exact toNat_bandField c
  exact BitVec.eq_of_toNat_eq (by rw [toNat_headerG, hband, hv]; omega)

theorem eq_headerN (hz : c.extractLsb' 17 7 = 0) : c = headerN op (BitVec.ofBool (sourceBit c)) (lowField c) := by
  have hop := toNat_of_opField hop
  rw [field_eq_zero_iff] at hz
  have hs : (sourceBit c).toNat = c.toNat / 2 ^ 16 % 2 := by rw [sourceBit_eq, toNat_decide_odd]
  exact BitVec.eq_of_toNat_eq (by rw [toNat_headerN, toNat_ofBool, hs, toNat_lowField]; omega)

theorem decodeZ_ok {i : Instr} {h : Header} (hd : decodeZ c i = .ok h) : h = .done i ∧ c = headerZ op := by
  unfold decodeZ at hd
  split_ifs at hd with hz
  cases hd
  exact ⟨rfl, eq_headerZ hop hz⟩

theorem decodeR_ok {g : BitVec 8 → Header} {h : Header} (hd : decodeR c g = .ok h) :
    ∃ a, h = g a ∧ c = headerR op a := by
  unfold decodeR at hd
  split_ifs at hd with hz
  cases hd
  exact ⟨_, rfl, eq_headerR hop hz⟩

theorem decodeSetgain_ok {h : Header} (hd : decodeSetgain c = .ok h) :
    ∃ b v, h = .done (.setgain b v) ∧ c = headerG op b v := by
  unfold decodeSetgain at hd
  split_ifs at hd with hz
  cases hb : decodeBand c with
  | error e => rw [hb] at hd; cases hd
  | ok b =>
    rw [hb] at hd
    cases hd
    exact ⟨b, _, rfl, eq_headerG hop hz hb (toNat_lowField c)⟩

theorem decodeSetmute_ok {h : Header} (hd : decodeSetmute c = .ok h) :
    ∃ b m, h = .done (.setmute b m) ∧ c = headerG op b (0#15 ++ BitVec.ofBool m) := by
  unfold decodeSetmute at hd
  split_ifs at hd with hz
  obtain ⟨hz, hv⟩ := hz
  cases hb : decodeBand c with
  | error e => rw [hb] at hd; cases hd
  | ok b =>
    rw [hb] at hd
    cases hd
    refine ⟨b, _, rfl, eq_headerG hop hz hb ?_⟩
    rw [field_eq_zero_iff] at hv
    have hbit : (c.getLsbD 0).toNat = c.toNat % 2 := by
      rw [bit_eq_decide, toNat_decide_odd, pow_zero, Nat.div_one]
    rw [toNat_append_eq, toNat_ofBool, hbit, BitVec.toNat_ofNat]
    omega

theorem decodeProc_ok {p : Params} {h : Header} (hd : decodeProc p c = .ok h) :
    ∃ n : BitVec 16, n.toNat ≤ p.cap ∧ h = .proc n ∧ c = headerN op 0 n := by
  unfold decodeProc decodeChunk at hd
  split_ifs at hd with hz hs hn
  cases hd
  have hc := eq_headerN hop hz
  rw [Bool.not_eq_true] at hs
  rw [hs] at hc
  exact ⟨_, hn, rfl, hc⟩

theorem decodeAnlz_ok {p : Params} {h : Header} (hd : decodeAnlz p c = .ok h) :
    (∃ n : BitVec 16, n.toNat ≤ p.cap ∧ h = .anlz n ∧ c = headerN op 0 n) ∨
      (h = .done .anlzl ∧ c = headerN op 1 0) := by
  unfold decodeAnlz decodeChunk at hd
  split_ifs at hd with hz hs hlow hn <;> have hc := eq_headerN hop hz
  · cases hd
    rw [hs, hlow] at hc
    exact .inr ⟨rfl, hc⟩
  · cases hd
    rw [Bool.not_eq_true] at hs
    rw [hs] at hc
    exact .inl ⟨_, hn, rfl, hc⟩

end Accepted

/-- A legal header with a payload of the announced length is a well-formed command, whose encoding they are. -/
theorem encode_of_decodeHeader {p : Params} {c : Word} {h : Header} (hc : decodeHeader p c = .ok h) {ws : List Word}
    (hws : ws.length = h.payloadLen p) : encode (h.withPayload ws) = c :: ws ∧ (h.withPayload ws).wf p = true := by
  unfold decodeHeader at hc
  split at hc
  case h_1 hop | h_2 hop | h_3 hop | h_8 hop | h_9 hop =>
    obtain ⟨rfl, rfl⟩ := decodeZ_ok (opField_eq_ofNat hop) hc
    obtain rfl := List.length_eq_zero_iff.mp hws
    exact ⟨rfl, rfl⟩
  case h_4 hop =>
    obtain ⟨b, v, rfl, rfl⟩ := decodeSetgain_ok (opField_eq_ofNat hop) hc
    obtain rfl := List.length_eq_zero_iff.mp hws
    exact ⟨rfl, rfl⟩
  case h_5 hop =>
    obtain ⟨b, m, rfl, rfl⟩ := decodeSetmute_ok (opField_eq_ofNat hop) hc
    obtain rfl := List.length_eq_zero_iff.mp hws
    exact ⟨rfl, rfl⟩
  case h_6 hop =>
    obtain ⟨n, hn, rfl, rfl⟩ := decodeProc_ok (opField_eq_ofNat hop) hc
    exact ⟨rfl, decide_eq_true ⟨hn, hws⟩⟩
  case h_7 hop =>
    obtain ⟨n, hn, rfl, rfl⟩ | ⟨rfl, rfl⟩ := decodeAnlz_ok (opField_eq_ofNat hop) hc
    · exact ⟨rfl, decide_eq_true ⟨hn, hws⟩⟩
    · obtain rfl := List.length_eq_zero_iff.mp hws
      exact ⟨rfl, rfl⟩
  case h_10 hop =>
    obtain ⟨a, rfl, rfl⟩ := decodeR_ok (opField_eq_ofNat hop) hc
    obtain ⟨v, rfl⟩ := List.length_eq_one_iff.mp hws
    exact ⟨rfl, rfl⟩
  case h_11 hop =>
    obtain ⟨a, rfl, rfl⟩ := decodeR_ok (opField_eq_ofNat hop) hc
    obtain rfl := List.length_eq_zero_iff.mp hws
    exact ⟨rfl, rfl⟩
  case h_12 => cases hc

/-- Settles O2: a packet is cut into its header and the payload that header announces, and these are the encoding. -/
theorem decodedPacketIsAnEncoding : Obligations.DecodedPacketIsAnEncoding := by
  unfold Obligations.DecodedPacketIsAnEncoding
  intro p ws i rest hd
  cases ws with
  | nil => cases hd
  | cons c ws =>
    simp only [decode] at hd
    split at hd
    · cases hd
    · next h hc =>
      split_ifs at hd with hlen
      cases hd
      have hws : (ws.take (h.payloadLen p)).length = h.payloadLen p := List.length_take_of_le (not_lt.mp hlen)
      obtain ⟨henc, hwf⟩ := encode_of_decodeHeader hc hws
      exact ⟨by rw [henc, List.cons_append, List.take_append_drop], hwf⟩

end Sys2Proof
end

section
/-! PROOFS. Every value the block makes is defined: it divides by nothing that is zero (R15, R131, R192 to R200). -/

namespace Sys2Proof

theorem Params.Ok.nch_pos {p : Params} (hp : p.Ok) : 1 ≤ p.nch := hp.1.1

theorem Params.Ok.na_pos {p : Params} (hp : p.Ok) : 1 ≤ p.na := by
  obtain ⟨-, -, -, hna, -⟩ := hp
  exact hna.1

theorem Params.Ok.nport_pos {p : Params} (hp : p.Ok) : 1 ≤ p.nport := by
  obtain ⟨-, -, -, -, hports, -⟩ := hp
  exact hports

end Sys2Proof

namespace Sys2Proof.Machine

@[simp] theorem exactArith_abs : exactArith.abs = Exact.abs := rfl
@[simp] theorem exactArith_sin : exactArith.sin = Exact.sin := rfl
@[simp] theorem exactArith_cos : exactArith.cos = Exact.cos := rfl
@[simp] theorem exactArith_pi : exactArith.pi = Val.pi := rfl
@[simp] theorem exactArith_db2lin : exactArith.db2lin = Exact.db2lin := rfl
@[simp] theorem exactArith_pow : exactArith.pow = Exact.pow := rfl
@[simp] theorem exactArith_enc : exactArith.enc = enc32 := rfl

/-- Every value of the list is defined. -/
def AllDefined (vs : List Val) : Prop := ∀ v ∈ vs, v.Defined

theorem AllDefined.getD {vs : List Val} (h : AllDefined vs) (i : Nat) : (vs.getD i Val.zero).Defined := by
  rcases lt_or_ge i vs.length with hi | hi
  · exact List.getD_eq_getElem vs Val.zero hi ▸ h _ (List.getElem_mem hi)
  · rw [List.getD_eq_default _ _ hi]; trivial

theorem allDefined_nil : AllDefined [] := fun _ h => nomatch h

theorem allDefined_map {α : Type} {l : List α} {f : α → Val} (h : ∀ a ∈ l, (f a).Defined) : AllDefined (l.map f) := by
  intro v hv
  obtain ⟨a, ha, rfl⟩ := List.mem_map.mp hv
  exact h a ha

theorem allDefined_replicate_zero (n : Nat) : AllDefined (List.replicate n Val.zero) :=
  fun _ hv => (List.mem_replicate.mp hv).2 ▸ trivial

/-! ### The filter design -/

theorem defined_hamming (len j : Nat) : (hamming exactArith len j).Defined := by
  unfold hamming
  split_ifs
  · trivial
  · exact defined_sub trivial (defined_mul trivial (defined_cos _))

/-- The ideal response divides by `n·π` where `n` is not 0. -/
theorem defined_idealTap (lo hi : Rat) (fs : Nat) (n : Int) : (idealTap exactArith lo hi fs n).Defined := by
  unfold idealTap
  split_ifs with hn
  · trivial
  · refine defined_div (defined_sub (defined_sin _) (defined_sin _)) (defined_mul (a := .rat n) (b := .pi) trivial trivial) ?_
    rw [exactArith_mul, toReal_mul, toReal_rat, Rat.cast_intCast]
    exact mul_ne_zero (Int.cast_ne_zero.mpr hn) Real.pi_ne_zero

theorem allDefined_designBandpass (lo hi : Rat) (fs M : Nat) : AllDefined (designBandpass exactArith lo hi fs M) :=
  allDefined_map fun _ _ => defined_mul (defined_idealTap ..) (defined_hamming ..)

@[simp] theorem length_designBandpass (A : Arith) (lo hi : Rat) (fs M : Nat) :
    (designBandpass A lo hi fs M).length = M := by
  rw [designBandpass, List.length_map, List.length_range]

/-! ### The chunk -/

theorem allDefined_channelsOf (nch n : Nat) (ws : List Word) (c : Nat) :
    AllDefined ((channelsOf nch n ws).getD c []) := by
  rcases lt_or_ge c nch with hc | hc
  · rw [channelsOf_getD ws hc]
    exact allDefined_map fun _ _ => trivial
  · rw [List.getD_eq_default _ _ (by simpa using hc)]
    exact allDefined_nil

theorem defined_bandSignal {h x : List Val} (hh : AllDefined h) (hx : AllDefined x) (t : Nat) :
    (bandSignal exactArith h x t).Defined :=
  defined_sumVal (allDefined_map fun j _ => defined_mul (hh.getD j) (hx.getD (t - j)))

theorem defined_overlapOut {h x row : List Val} (hh : AllDefined h) (hx : AllDefined x) (hrow : AllDefined row)
    (t : Nat) : (overlapOut exactArith h x row t).Defined := by
  refine defined_add (defined_bandSignal hh hx t) ?_
  split_ifs
  · exact hrow.getD t
  · trivial

theorem allDefined_overlapTail {h x row : List Val} (hh : AllDefined h) (hx : AllDefined x) (hrow : AllDefined row)
    (mmax : Nat) : AllDefined (overlapTail exactArith mmax h x row) := by
  refine allDefined_map fun k _ => ?_
  split_ifs
  · exact defined_add (hrow.getD _) (defined_bandSignal hh hx _)
  · exact defined_add trivial (defined_bandSignal hh hx _)
  · trivial

theorem defined_mixBands {g out : PerBand Val} (hg : ∀ b, (g.get b).Defined) (hout : ∀ b, (out.get b).Defined) :
    (mixBands exactArith g out).Defined := by
  have hterm (b : BandIx) : (Exact.mul (g.get b) (out.get b)).Defined := defined_mul (hg b) (hout b)
  exact defined_add (defined_add (defined_add (defined_add (hterm 0) (hterm 1)) (hterm 2)) (hterm 3)) (hterm 4)

theorem defined_effectiveGain {b : Band} (h : b.lin.Defined) : (effectiveGain b).Defined := by
  unfold effectiveGain
  split_ifs
  · trivial
  · exact h

/-- An output sample of defined taps, samples, tail and gains. -/
theorem defined_compositeAt {h : PerBand (List Val)} {x : List (List Val)} {s : State} {c : Nat}
    (hh : ∀ b, AllDefined (h.get b)) (hx : AllDefined (x.getD c [])) (htail : ∀ b, AllDefined ((tailOf s c).get b))
    (hlin : ∀ b, ((s.band.get b).lin).Defined) (t : Nat) : (compositeAt exactArith h x s c t).Defined := by
  refine defined_mixBands (fun b => ?_) fun b => ?_
  · rw [gainSnapshot_get]
    exact defined_effectiveGain (hlin b)
  · rw [PerBand.get_build]
    exact defined_overlapOut (hh b) hx (htail b) t

/-! ### The analyzer -/

theorem defined_dftBin {v : List Val} (hv : AllDefined v) (n k : Nat) :
    (dftBin exactArith n v k).1.Defined ∧ (dftBin exactArith n v k).2.Defined := by
  constructor <;> refine defined_sumVal fun w hw => ?_ <;> obtain ⟨i, hi, rfl⟩ := List.mem_mapIdx.mp hw
  · exact defined_mul (hv _ (List.getElem_mem hi)) (defined_cos _)
  · exact defined_mul (hv _ (List.getElem_mem hi)) (defined_sin _)

theorem defined_magnitudeAt {v : List Val} (hv : AllDefined v) (n k : Nat) :
    (magnitudeAt exactArith n v k).Defined :=
  defined_abs (defined_dftBin hv n k).1 (defined_dftBin hv n k).2

theorem toReal_magnitudeAt (n : Nat) (v : List Val) (k : Nat) :
    (magnitudeAt exactArith n v k).toReal =
      Real.sqrt ((dftBin exactArith n v k).1.toReal ^ 2 + (dftBin exactArith n v k).2.toReal ^ 2) :=
  toReal_abs ..

theorem defined_rawLevel {v : List Val} (hv : AllDefined v) (na fs n i : Nat) :
    (rawLevel exactArith na fs n v i).Defined := by
  unfold rawLevel
  dsimp only
  split_ifs with hbins
  · trivial
  · exact defined_div (defined_sumVal (allDefined_map fun k _ => defined_magnitudeAt hv n k)) trivial
      (by simpa using hbins)

theorem toReal_rawLevel_nonneg (na fs n : Nat) (v : List Val) (i : Nat) :
    0 ≤ (rawLevel exactArith na fs n v i).toReal := by
  rw [toReal_rawLevel]
  split_ifs
  · exact le_rfl
  · refine div_nonneg (List.sum_nonneg fun r hr => ?_) (Nat.cast_nonneg _)
    obtain ⟨k, -, rfl⟩ := List.mem_map.mp hr
    rw [toReal_magnitudeAt]
    exact Real.sqrt_nonneg _

/-- A normalisation divides by the frame maximum only where it is positive. -/
theorem allDefined_normalise {raw : List Val} (hraw : AllDefined raw) : AllDefined (normalise exactArith raw) := by
  unfold normalise
  dsimp only
  split_ifs with hm
  · rw [compareRat_eq_gt (defined_maxVal hraw), Rat.cast_zero] at hm
    exact allDefined_map fun r hr => defined_div (hraw r hr) (defined_maxVal hraw) hm.ne'
  · exact allDefined_map fun _ _ => trivial

/-- Every sample of a chunk is defined. -/
def ChunkDefined (u : List (List Val)) : Prop := ∀ c t, (sampleAt u c t).Defined

theorem chunkDefined_channelsOf (nch n : Nat) (ws : List Word) : ChunkDefined (channelsOf nch n ws) :=
  fun c t => (allDefined_channelsOf nch n ws c).getD t

theorem allDefined_downmix {u : List (List Val)} (hu : ChunkDefined u) {nch : Nat} (hnch : 1 ≤ nch) (n : Nat) :
    AllDefined (downmix exactArith nch n u) := by
  refine allDefined_map fun t _ => ?_
  split_ifs
  · exact hu 0 t
  · exact defined_div (defined_sumVal (allDefined_map fun c _ => hu c t)) trivial (by simp; omega)

theorem allDefined_windowed {sig : List Val} (hsig : AllDefined sig) (n : Nat) :
    AllDefined (windowed exactArith n sig) :=
  allDefined_map fun t _ => defined_mul (hsig.getD t) (defined_hamming n t)

theorem allDefined_rawLevels {p : Params} (hp : p.Ok) (fs n : Nat) {u : List (List Val)} (hu : ChunkDefined u) :
    AllDefined ((List.range p.na).map
      (rawLevel exactArith p.na fs n (windowed exactArith n (downmix exactArith p.nch n u)))) :=
  allDefined_map fun i _ => defined_rawLevel (allDefined_windowed (allDefined_downmix hu hp.nch_pos n) n) p.na fs n i

theorem allDefined_chunkNorm {p : Params} (hp : p.Ok) (fs n : Nat) {u : List (List Val)} (hu : ChunkDefined u) :
    AllDefined (chunkNorm exactArith p fs n u) :=
  allDefined_normalise (allDefined_rawLevels hp fs n hu)

/-- The levels a chunk gives lie in the unit interval (R198). -/
theorem chunkNorm_getD_mem_unitInterval {p : Params} (hp : p.Ok) (fs n : Nat) {u : List (List Val)}
    (hu : ChunkDefined u) (i : Nat) :
    ((chunkNorm exactArith p fs n u).getD i Val.zero).toReal ∈ Set.Icc (0 : ℝ) 1 := by
  have hna := hp.na_pos
  have hne : (List.range p.na).map
      (rawLevel exactArith p.na fs n (windowed exactArith n (downmix exactArith p.nch n u))) ≠ [] := by
    simp; omega
  obtain ⟨-, -, -, -, hrange, -⟩ := normalisedLevels _ hne (allDefined_rawLevels hp fs n hu) fun r hr => by
    obtain ⟨k, -, rfl⟩ := List.mem_map.mp hr
    exact toReal_rawLevel_nonneg ..
  rcases lt_or_ge i (chunkNorm exactArith p fs n u).length with hi | hi
  · rw [List.getD_eq_getElem _ _ hi]
    exact hrange _ (List.getElem_mem hi)
  · rw [toReal_getD_of_length_le hi]
    exact ⟨le_rfl, zero_le_one⟩

theorem defined_smoothLevel {alpha norm level : Val} (ha : alpha.Defined) (hn : norm.Defined) (hl : level.Defined) :
    (smoothLevel exactArith alpha norm level).Defined :=
  defined_add (defined_mul ha hn) (defined_mul (defined_sub trivial ha) hl)

theorem defined_decayPeak {decay peak level' : Val} (hd : decay.Defined) (hp : peak.Defined) (hl : level'.Defined) :
    (decayPeak exactArith decay peak level').Defined :=
  defined_max (defined_mul hp hd) hl

end Sys2Proof.Machine
end

section
/-! PROOFS. The invariant of the block (R45 to R48): what each of its clauses depends on, that reset establishes it, and
that every update of the state, every command and every step keeps it. -/

namespace Sys2Proof.Machine

/-! ### What the clauses depend on -/

section Congruence

variable {s t : State}

/-- The fields `ConfigOk` reads. -/
def configFields (s : State) : Params × Word × Word × Word × Word × Word × Word :=
  (s.params, s.cfgFs, s.cfgOrder, s.cfgGmin, s.cfgGmax, s.cfgAlpha, s.cfgDecay)

theorem State.ConfigOk.congr (e : configFields t = configFields s) (h : s.ConfigOk) : t.ConfigOk := by
  cases s; cases t; cases e
  exact ⟨h.fs, h.order, h.gmin, h.gmax, h.bounds, h.alpha, h.decay⟩

/-- The bank is there and well shaped while `BUILT = 1` (R46). -/
def State.BankClause (s : State) : Prop := s.built = true → ∃ h, s.bank = some h ∧ s.BankOk h

/-- The fields `BankClause` reads. -/
def bankFields (s : State) : Params × Bool × Option (PerBand (List Val)) × BitVec 16 × Word :=
  (s.params, s.built, s.bank, s.bankM, s.bankN)

theorem State.BankClause.congr (e : bankFields t = bankFields s) (h : s.BankClause) : t.BankClause := by
  cases s; cases t; cases e
  intro hb
  obtain ⟨bank, hbank, hok⟩ := h hb
  exact ⟨bank, hbank, hok.length, hok.odd, hok.le, hok.defined, hok.transform⟩

/-- The last chunk is there and well shaped while `LAST_VALID = 1`. -/
def State.LastClause (s : State) : Prop := s.lastValid = true → ∃ x, s.last = some x ∧ s.LastOk x

/-- The fields `LastClause` reads. -/
def lastFields (s : State) : Params × Bool × Option (List (List Val)) × BitVec 16 :=
  (s.params, s.lastValid, s.last, s.lastLen)

theorem State.LastClause.congr (e : lastFields t = lastFields s) (h : s.LastClause) : t.LastClause := by
  cases s; cases t; cases e
  intro hv
  obtain ⟨x, hx, hok⟩ := h hv
  exact ⟨x, hx, hok.channels, hok.length, hok.defined, hok.range⟩

/-- The fields `TailOk` reads. -/
def tailFields (s : State) : Params × Bool × BitVec 16 × List (PerBand (List Val)) :=
  (s.params, s.built, s.bankM, s.tail)

theorem State.TailOk.congr (e : tailFields t = tailFields s) (h : s.TailOk) : t.TailOk := by
  cases s; cases t; cases e
  exact ⟨h.channels, h.length, h.defined, h.zero⟩

/-- The fields `FrameOk` reads. -/
def frameFields (s : State) : Params × List Val × List Val := (s.params, s.level, s.peak)

theorem State.FrameOk.congr (e : frameFields t = frameFields s) (h : s.FrameOk) : t.FrameOk := by
  cases s; cases t; cases e
  exact ⟨h.levels, h.peaks, h.defined, h.range⟩

/-- Every linear gain is that of its code (R45). -/
def State.LinClause (s : State) : Prop :=
  ∀ b, (s.band.get b).lin = exactArith.db2lin (gainCode (s.band.get b).gdb)

/-- The invariant after an update: a clause whose fields the update leaves alone needs no argument. -/
theorem State.Inv.update (h : s.Inv) (params : t.params = s.params := by rfl)
    (config : s.ConfigOk → t.ConfigOk := by exact State.ConfigOk.congr rfl)
    (runBuilt : (s.run = true → s.built = true) → t.run = true → t.built = true := by exact id)
    (bank : s.BankClause → t.BankClause := by exact State.BankClause.congr rfl)
    (last : s.LastClause → t.LastClause := by exact State.LastClause.congr rfl)
    (errlog : s.errlog.getLsbD 0 = false → t.errlog.getLsbD 0 = false := by exact id)
    (lin : s.LinClause → t.LinClause := by exact id)
    (tail : s.TailOk → t.TailOk := by exact State.TailOk.congr rfl)
    (frame : s.FrameOk → t.FrameOk := by exact State.FrameOk.congr rfl)
    (ports : t.ports.length = s.ports.length := by rfl)
    (active : s.active < s.params.nport → t.active < s.params.nport := by exact id) : t.Inv :=
  ⟨params ▸ h.params, config h.config, runBuilt h.runBuilt, bank h.bank, last h.last, errlog h.errlog, lin h.lin,
    tail h.tail, frame h.frame, by rw [ports, h.ports, params], by rw [params]; exact active h.active⟩

end Congruence

/-! ### The updates that every command uses -/

section Updates

variable {s : State} (h : s.Inv)
include h

theorem inv_putResponse (q : Nat) (ws : List Word) : (putResponse q ws s).Inv :=
  h.update (ports := List.length_modify ..)

theorem inv_takeFrom {q : Nat} (hq : q < s.ports.length) (rest : List Word) : (takeFrom q rest s).Inv :=
  h.update (ports := List.length_modify ..) (active := fun _ => h.ports ▸ hq)

/-- No error has the code 0 (R26). -/
theorem inv_logError (e : Err) : (logError e s).Inv := by
  refine h.update (errlog := fun hbit => ?_)
  rw [logError_errlog, BitVec.getLsbD_or, hbit, Bool.false_or]
  cases e <;> rfl

end Updates

/-! ### Reset -/

theorem mem_zeroTail {p : Params} {rows : PerBand (List Val)} (h : rows ∈ zeroTail p) (b : BandIx) :
    rows.get b = List.replicate (p.mmax - 1) Val.zero := by
  rw [(List.mem_replicate.mp h).2]
  fin_cases b <;> rfl

theorem length_zeroTail (p : Params) : (zeroTail p).length = p.nch := List.length_replicate

theorem tailOk_of_zeroTail {t : State} (h : t.tail = zeroTail t.params) : t.TailOk where
  channels := by rw [h, length_zeroTail]
  length rows hrows b := by rw [mem_zeroTail (h ▸ hrows) b, List.length_replicate]
  defined rows hrows b := mem_zeroTail (h ▸ hrows) b ▸ allDefined_replicate_zero _
  zero _ rows hrows b k _ := by rw [mem_zeroTail (h ▸ hrows) b, getD_replicate_zero]

theorem configOk_resetOf {p : Params} (hp : p.Ok) : (State.resetOf p).ConfigOk := by
  obtain ⟨-, -, ⟨-, hmmax, -⟩, -, -, horder, halpha, hdecay⟩ := hp
  refine ⟨(by decide : 41 ≤ (44100 : Word).toNat), ?_, (by decide : (0xE200 : Word).toNat < 2 ^ 16),
    (by decide : (0x0C00 : Word).toNat < 2 ^ 16), (by decide : boundCode 0xE200 ≤ boundCode 0x0C00), ?_, ?_⟩ <;>
    simp only [State.resetOf, BitVec.toNat_ofNat] <;> omega

theorem frameOk_resetOf (p : Params) : (State.resetOf p).FrameOk where
  levels := List.length_replicate
  peaks := List.length_replicate
  defined := ⟨allDefined_replicate_zero _, allDefined_replicate_zero _⟩
  range i _ := by
    simp only [State.resetOf, getD_replicate_zero, toReal_zero]
    exact ⟨le_rfl, le_rfl, zero_le_one⟩

theorem linClause_resetOf (p : Params) : (State.resetOf p).LinClause := by
  intro b
  have hb : (State.resetOf p).band.get b = Band.reset := by fin_cases b <;> rfl
  rw [hb]
  decide +kernel

/-- Settles O11, clause by clause: no bank, no last chunk, zero memories. -/
theorem resetMeetsTheInvariant : Obligations.ResetMeetsTheInvariant := by
  unfold Obligations.ResetMeetsTheInvariant
  intro p hp
  have hports := hp.nport_pos
  exact
    { params := hp
      config := configOk_resetOf hp
      runBuilt := fun h => nomatch h
      bank := fun h => nomatch h
      last := fun h => nomatch h
      errlog := BitVec.getLsbD_zero
      lin := linClause_resetOf p
      tail := tailOk_of_zeroTail rfl
      frame := frameOk_resetOf p
      ports := List.length_replicate
      active := hports }

theorem inv_applyReset {s : State} (h : s.Inv) : (applyReset s).Inv :=
  (resetMeetsTheInvariant s.params h.params).update

/-! ### The filter lengths -/

theorem le_leastPowerOfTwo (m : Nat) : m ≤ leastPowerOfTwo m := by
  unfold leastPowerOfTwo
  split_ifs with h
  · exact h
  · have := Nat.lt_log2_self (n := m - 1)
    omega

theorem leastPowerOfTwo_is_power (m : Nat) : ∃ k, leastPowerOfTwo m = 2 ^ k := by
  unfold leastPowerOfTwo
  split_ifs
  · exact ⟨0, rfl⟩
  · exact ⟨_, rfl⟩

theorem leastPowerOfTwo_le {m k : Nat} (h : m ≤ 2 ^ k) : leastPowerOfTwo m ≤ 2 ^ k := by
  unfold leastPowerOfTwo
  split_ifs with hm
  · exact Nat.one_le_two_pow
  · exact Nat.pow_le_pow_right (by decide) ((Nat.log2_lt (by omega)).mpr (by omega))

theorem oddLength_odd (ord : Nat) : oddLength ord % 2 = 1 := by
  unfold oddLength
  split_ifs <;> omega

theorem oddLength_bounds (ord : Nat) : ord ≤ oddLength ord ∧ oddLength ord ≤ ord + 1 := by
  unfold oddLength
  split_ifs <;> omega

/-- Settles O27: the order forced odd, and the least power of two by the logarithm of its argument less one. -/
theorem filterAndTransformLengths : Obligations.FilterAndTransformLengths := by
  unfold Obligations.FilterAndTransformLengths
  exact ⟨fun ord => ⟨oddLength_odd ord, oddLength_bounds ord⟩,
    fun m => ⟨le_leastPowerOfTwo m, leastPowerOfTwo_is_power m, fun _ => leastPowerOfTwo_le⟩⟩

theorem buildLength_eq (s : State) : buildLength s = oddLength (s.cfgOrder.toNat % 2 ^ 16) := by
  rw [buildLength, toNat_field, pow_zero, Nat.div_one]

/-- The largest filter length is odd, so forcing the order odd does not pass it (R11, R131). -/
theorem buildLength_le {s : State} (hp : s.params.Ok) (hs : s.ConfigOk) : buildLength s ≤ s.params.mmax := by
  obtain ⟨-, -, ⟨-, -, hodd⟩, -⟩ := hp
  have := hs.order
  have := oddLength_bounds (s.cfgOrder.toNat % 2 ^ 16)
  have := oddLength_odd (s.cfgOrder.toNat % 2 ^ 16)
  rw [buildLength_eq]
  omega

/-! ### The updates of the single commands -/

section Commands

variable {s : State} (h : s.Inv)
include h

theorem inv_dropBank : (dropBank s).Inv :=
  h.update (runBuilt := fun _ hr => nomatch hr) (bank := fun _ hb => nomatch hb)
    (tail := fun ht => ⟨ht.channels, ht.length, ht.defined, fun hb => nomatch hb⟩)

theorem inv_run (hb : s.built = true) : { s with run := true }.Inv := h.update (runBuilt := fun _ _ => hb)

theorem inv_stop : { s with run := false }.Inv := h.update (runBuilt := fun _ hr => nomatch hr)

theorem bankClause_commitBank : (commitBank exactArith s).BankClause := by
  intro _
  have hle := buildLength_le h.params h.config
  obtain ⟨-, ⟨-, hcap⟩, ⟨-, hmmax, -⟩, -⟩ := h.params
  have hM : (BitVec.ofNat 16 (buildLength s)).toNat = buildLength s := by
    rw [BitVec.toNat_ofNat]; omega
  have hN : buildTransform s ≤ 2 ^ 17 := leastPowerOfTwo_le (by omega)
  refine ⟨buildTaps exactArith s, rfl, ?length, ?odd, ?le, ?defined, ?transform⟩
  case length =>
    intro b
    rw [commitBank_bankM, hM, buildTaps, PerBand.get_build, length_designBandpass]
  case odd => rw [commitBank_bankM, hM]; exact oddLength_odd _
  case le => rwa [commitBank_bankM, hM]
  case defined =>
    intro b
    rw [buildTaps, PerBand.get_build]
    exact allDefined_designBandpass _ _ _ _
  case transform =>
    rw [commitBank_bankM, hM, commitBank_bankN, BitVec.toNat_ofNat, Nat.mod_eq_of_lt (by omega)]
    rfl

theorem inv_commitBank : (commitBank exactArith s).Inv :=
  h.update (runBuilt := fun _ _ => rfl) (bank := fun _ => bankClause_commitBank h)
    (tail := fun _ => tailOk_of_zeroTail rfl)

/-- A band register whose linear gain is that of its code keeps the clause on the gains (R45, R156). -/
theorem inv_setBand (b : BandIx) {x : Band} (hx : x.lin = exactArith.db2lin (gainCode x.gdb)) :
    { s with band := s.band.set b x }.Inv := by
  refine h.update (lin := fun hlin b' => ?_)
  by_cases hb : b' = b
  · subst hb; simpa only [PerBand.get_set_same] using hx
  · simpa only [PerBand.get_set_other _ _ hb] using hlin b'

omit h in
/-- A clamped gain is a code: the one asked for, or a bound's (R154). -/
theorem exists_gainCode_eq_clampGain (s : State) (v : BitVec 16) : ∃ w, clampGain s (gainCode v) = gainCode w := by
  unfold clampGain
  dsimp only
  split_ifs
  · exact ⟨_, rfl⟩
  · exact ⟨_, rfl⟩
  · exact ⟨v, rfl⟩

theorem inv_writeGain (b : BandIx) (v : BitVec 16) :
    (writeGain exactArith b (clampGain s (gainCode v)) s).Inv := by
  obtain ⟨w, hw⟩ := exists_gainCode_eq_clampGain s v
  refine inv_setBand h b ?_
  rw [hw, gainCode, BitVec.ofInt_toInt]
  rfl

/-- A legal value keeps the configuration legal (R122). -/
theorem inv_regWrite {v : Word} {r : Reg} (hv : legalValue s v r = true) : (regWrite v s r).Inv := by
  cases r with
  | cfgFs => exact h.update (config := fun hc => { hc with fs := (legalValue_cfgFs_iff s v).mp hv })
  | cfgOrder => exact h.update (config := fun hc => { hc with order := (legalValue_cfgOrder_iff s v).mp hv })
  | cfgBw b => exact h.update
  | cfgGmin =>
    obtain ⟨hlow, hle⟩ := of_decide_eq_true hv
    exact h.update (config := fun hc => { hc with gmin := hlow, bounds := hle })
  | cfgGmax =>
    obtain ⟨hlow, hle⟩ := of_decide_eq_true hv
    exact h.update (config := fun hc => { hc with gmax := hlow, bounds := hle })
  | cfgAlpha => exact h.update (config := fun hc => { hc with alpha := (legalValue_cfgAlpha_iff s v).mp hv })
  | cfgDecay => exact h.update (config := fun hc => { hc with decay := (legalValue_cfgDecay_iff s v).mp hv })
  | _ => exact h

/-! ### A chunk processed -/

/-- The state a processed chunk leaves (R178). -/
def chunkState (A : Arith) (bank : PerBand (List Val)) (n : BitVec 16) (ws : List Word) (s : State) : State :=
  { s with
    tail := nextTail A bank (channelsOf s.params.nch n.toNat ws) s
    last := some ((outputWords A bank (channelsOf s.params.nch n.toNat ws) n.toNat s).map fun row => row.map decVal)
    lastLen := n
    lastValid := true }

omit h in
theorem commitChunk_eq (A : Arith) (bank : PerBand (List Val)) (n : BitVec 16) (ws : List Word) (s : State) :
    commitChunk A bank n ws s = .next (putResponse s.active
      (responseHeader 0x06 0 0 n :: payloadOf s.params.nch n.toNat fun c t =>
        ((outputWords A bank (channelsOf s.params.nch n.toNat ws) n.toNat s).getD c []).getD t 0)
      (chunkState A bank n ws s)) := rfl

theorem allDefined_tailOf (c : Nat) (b : BandIx) : AllDefined ((tailOf s c).get b) := by
  unfold tailOf
  rcases lt_or_ge c s.tail.length with hc | hc
  · exact List.getD_eq_getElem s.tail _ hc ▸ h.tail.defined _ (List.getElem_mem hc) b
  · rw [List.getD_eq_default _ _ hc]
    fin_cases b <;> exact allDefined_nil

omit h in
theorem mem_nextTail {A : Arith} {bank : PerBand (List Val)} {x : List (List Val)} {rows : PerBand (List Val)}
    (hrows : rows ∈ nextTail A bank x s) (b : BandIx) :
    ∃ c, rows.get b = overlapTail A s.params.mmax (bank.get b) (x.getD c []) ((tailOf s c).get b) := by
  obtain ⟨c, -, rfl⟩ := List.mem_map.mp hrows
  exact ⟨c, PerBand.get_build ..⟩

/-- The new tail has its shape, and nothing beyond `M - 2` (R48, R176). -/
theorem tailOk_chunkState {bank : PerBand (List Val)} (hbank : s.BankOk bank) (n : BitVec 16) (ws : List Word) :
    (chunkState exactArith bank n ws s).TailOk where
  channels := by simp [chunkState, nextTail]
  length rows hrows b := by
    obtain ⟨c, hc⟩ := mem_nextTail hrows b
    rw [hc, length_overlapTail]
    rfl
  defined rows hrows b := by
    obtain ⟨c, hc⟩ := mem_nextTail hrows b
    rw [hc]
    exact allDefined_overlapTail (hbank.defined b) (allDefined_channelsOf _ _ _ _) (allDefined_tailOf h c b) _
  zero _ rows hrows b k hk := by
    obtain ⟨c, hc⟩ := mem_nextTail hrows b
    have hk : s.bankM.toNat - 1 ≤ k := hk
    rw [hc]
    rcases lt_or_ge k (s.params.mmax - 1) with hlt | hge
    · rw [List.getD_eq_getElem?_getD, overlapTail_getElem? _ _ _ _ hlt, hbank.length b, if_neg (not_lt.mpr hk)]
      rfl
    · exact List.getD_eq_default _ _ (by rwa [length_overlapTail])

omit h in
theorem lastClause_chunkState {bank : PerBand (List Val)} {n : BitVec 16} {ws : List Word} (hn : n ≠ 0)
    (hcap : n.toNat ≤ s.params.cap) : (chunkState exactArith bank n ws s).LastClause := by
  intro _
  refine ⟨_, rfl, ?channels, fun row hrow => ?length, fun row hrow v hv => ?defined, ?range⟩
  case channels => simp [outputWords, chunkState]
  case length =>
    simp only [outputWords, List.mem_map] at hrow
    obtain ⟨_, ⟨c, -, rfl⟩, rfl⟩ := hrow
    simp [chunkState]
  case defined =>
    obtain ⟨_, -, rfl⟩ := List.mem_map.mp hrow
    obtain ⟨_, -, rfl⟩ := List.mem_map.mp hv
    trivial
  case range =>
    exact ⟨Nat.one_le_iff_ne_zero.mpr fun h0 => hn (BitVec.eq_of_toNat_eq h0), hcap⟩

theorem inv_chunkState {bank : PerBand (List Val)} {n : BitVec 16} {ws : List Word} (hbank : s.BankOk bank) (hn : n ≠ 0)
    (hcap : n.toNat ≤ s.params.cap) : (chunkState exactArith bank n ws s).Inv :=
  h.update (last := fun _ => lastClause_chunkState hn hcap) (tail := fun _ => tailOk_chunkState h hbank n ws)

/-! ### A chunk analysed -/

theorem fraction_cfgAlpha_mem_unitInterval : (fraction s.cfgAlpha).toReal ∈ Set.Icc (0 : ℝ) 1 := by
  rw [toReal_fraction h.config.alpha]
  exact fraction_mem_unitInterval h.config.alpha

theorem fraction_cfgDecay_mem_unitInterval : (fraction s.cfgDecay).toReal ∈ Set.Icc (0 : ℝ) 1 := by
  rw [toReal_fraction h.config.decay]
  exact fraction_mem_unitInterval h.config.decay

theorem level_getD_mem_unitInterval {i : Nat} (hi : i < s.params.na) :
    (s.level.getD i Val.zero).toReal ∈ Set.Icc (0 : ℝ) 1 := by
  obtain ⟨h0, hle, h1⟩ := h.frame.range i hi
  exact ⟨h0, hle.trans h1⟩

theorem peak_getD_mem_unitInterval {i : Nat} (hi : i < s.params.na) :
    (s.peak.getD i Val.zero).toReal ∈ Set.Icc (0 : ℝ) 1 := by
  obtain ⟨h0, hle, h1⟩ := h.frame.range i hi
  exact ⟨h0.trans hle, h1⟩

omit h in
theorem nextLevel_getD (A : Arith) (norm : List Val) {i : Nat} (hi : i < s.params.na) :
    (nextLevel A norm s).getD i Val.zero =
      smoothLevel A (fraction s.cfgAlpha) (norm.getD i Val.zero) (s.level.getD i Val.zero) := by
  rw [List.getD_eq_getElem?_getD, nextLevel_getElem? _ _ _ hi, Option.getD_some]

omit h in
theorem nextPeak_getD (A : Arith) (level' : List Val) {i : Nat} (hi : i < s.params.na) :
    (nextPeak A level' s).getD i Val.zero =
      decayPeak A (fraction s.cfgDecay) (s.peak.getD i Val.zero) (level'.getD i Val.zero) := by
  rw [List.getD_eq_getElem?_getD, nextPeak_getElem? _ _ _ hi, Option.getD_some]

/-- Levels in the unit interval blend to levels there (R199). -/
theorem nextLevel_getD_mem_unitInterval {norm : List Val} {i : Nat} (hi : i < s.params.na)
    (hnorm : (norm.getD i Val.zero).toReal ∈ Set.Icc (0 : ℝ) 1) :
    ((nextLevel exactArith norm s).getD i Val.zero).toReal ∈ Set.Icc (0 : ℝ) 1 := by
  have hlevel := level_getD_mem_unitInterval h hi
  rw [nextLevel_getD _ _ hi, toReal_smoothLevel]
  exact Set.Icc_subset_Icc (le_min hnorm.1 hlevel.1) (max_le hnorm.2 hlevel.2)
    (blend_mem_Icc (fraction_cfgAlpha_mem_unitInterval h) _ _)

/-- An analysis makes a frame in range with no peak below its level (R47, R199, R200). -/
theorem inv_analysed {norm : List Val} (hdef : AllDefined norm)
    (hnorm : ∀ i, (norm.getD i Val.zero).toReal ∈ Set.Icc (0 : ℝ) 1) :
    { s with
      level := nextLevel exactArith norm s
      peak := nextPeak exactArith (nextLevel exactArith norm s) s }.Inv := by
  have hlevel : AllDefined (nextLevel exactArith norm s) := allDefined_map fun i _ =>
    defined_smoothLevel trivial (hdef.getD i) (AllDefined.getD h.frame.defined.1 i)
  refine h.update (frame := fun hframe => ⟨?levels, ?peaks, ⟨hlevel, ?peakDefined⟩, fun i hi => ?range⟩)
  case levels => simp [nextLevel]
  case peaks => simp [nextPeak]
  case peakDefined =>
    exact allDefined_map fun i _ => defined_decayPeak trivial (AllDefined.getD hframe.defined.2 i) (hlevel.getD i)
  case range =>
    have hl := nextLevel_getD_mem_unitInterval h hi (hnorm i)
    have hp := max_mul_mem_unitInterval (fraction_cfgDecay_mem_unitInterval h) (peak_getD_mem_unitInterval h hi) hl
    dsimp only at hi ⊢
    rw [nextPeak_getD _ _ hi, toReal_decayPeak]
    exact ⟨hl.1, le_max_right _ _, hp.2⟩

theorem inv_analyseChunk {n : Nat} {u : List (List Val)} (hu : ChunkDefined u) {t : State}
    (ht : analyseChunk exactArith n u s = .next t) : t.Inv := by
  obtain ⟨level, peak, rfl, rfl, rfl⟩ := analyseChunk_next ht
  exact inv_putResponse (inv_analysed h (allDefined_chunkNorm h.params _ n hu)
    (chunkNorm_getD_mem_unitInterval h.params _ n hu)) _ _

omit h in
theorem chunkDefined_last {x : List (List Val)} (hx : s.LastOk x) : ChunkDefined x := by
  intro c t
  rcases lt_or_ge c x.length with hc | hc
  · rw [sampleAt, List.getD_eq_getElem x _ hc]
    exact AllDefined.getD (hx.defined _ (List.getElem_mem hc)) t
  · rw [sampleAt, List.getD_eq_default _ _ hc]
    trivial

/-- The last chunk of a state that meets the invariant. -/
theorem lastOk_of_last {x : List (List Val)} (hv : s.lastValid = true) (hx : s.last = some x) : s.LastOk x := by
  obtain ⟨y, hy, hok⟩ := h.last hv
  rwa [Option.some.inj (hx.symm.trans hy)]

/-- The bank of a state that meets the invariant. -/
theorem bankOk_of_bank {bank : PerBand (List Val)} (hb : s.built = true) (hbank : s.bank = some bank) :
    s.BankOk bank := by
  obtain ⟨y, hy, hok⟩ := h.bank hb
  rwa [Option.some.inj (hbank.symm.trans hy)]

/-! ### Commands and steps -/

/-- A well-formed command keeps the invariant. -/
theorem inv_exec {i : Instr} (hi : i.wf s.params = true) {t : State} (ht : exec i s = .next t) : t.Inv := by
  cases i with
  | build =>
    obtain ⟨-, rfl⟩ | ⟨b, e, -, rfl⟩ := execBuild_cases ht
    · exact inv_putResponse (inv_commitBank h) _ _
    · exact inv_putResponse (inv_logError (inv_dropBank h) e) _ _
  | start =>
    obtain ⟨hb, rfl⟩ | ⟨-, rfl⟩ := execStart_cases ht
    · exact inv_putResponse (inv_run h hb) _ _
    · exact inv_putResponse (inv_logError h _) _ _
  | stop =>
    obtain rfl := execStop_next ht
    exact inv_putResponse (inv_stop h) _ _
  | setgain b v =>
    obtain ⟨-, rfl⟩ | ⟨-, rfl⟩ := execSetgain_cases ht
    · exact inv_putResponse (inv_writeGain h b v) _ _
    · exact inv_putResponse (inv_logError (inv_writeGain h b v) _) _ _
  | setmute b m =>
    obtain rfl := execSetmute_next ht
    exact inv_putResponse (inv_setBand h b (x := { s.band.get b with mute := m }) (h.lin b)) _ _
  | proc n ws =>
    obtain ⟨-, rfl⟩ | ⟨-, -, rfl⟩ | ⟨-, -, -, rfl⟩ | ⟨-, hrun, hn, bank, hbank, ht⟩ := procWith_cases ht
    · exact inv_putResponse (inv_logError h _) _ _
    · exact inv_putResponse (inv_logError h _) _ _
    · exact inv_putResponse (inv_logError h _) _ _
    · obtain rfl := Host.Outcome.next.inj (ht.symm.trans (commitChunk_eq ..))
      exact inv_putResponse
        (inv_chunkState h (bankOk_of_bank h (h.runBuilt hrun) hbank) hn (of_decide_eq_true hi).1) _ _
  | anlz n ws =>
    obtain ⟨-, rfl⟩ | ⟨-, -, rfl⟩ | ⟨-, -, ht⟩ := anlzWith_cases ht
    · exact inv_putResponse (inv_logError h _) _ _
    · exact inv_putResponse (inv_logError h _) _ _
    · exact inv_analyseChunk h (chunkDefined_channelsOf _ _ _) ht
  | anlzl =>
    obtain ⟨-, rfl⟩ | ⟨hv, x, hx, ht⟩ := execAnlzl_cases ht
    · exact inv_putResponse (inv_logError h _) _ _
    · exact inv_analyseChunk h (chunkDefined_last (lastOk_of_last h hv hx)) ht
  | getlast =>
    obtain ⟨-, rfl⟩ | ⟨-, x, -, rfl⟩ := execGetlast_cases ht
    · exact inv_putResponse h _ _
    · exact inv_putResponse h _ _
  | getframe =>
    obtain rfl := execGetframe_next ht
    exact inv_putResponse h _ _
  | wrcfg a v =>
    obtain ⟨r, -, -, hv, rfl⟩ | rfl := execWrcfg_cases ht
    · exact inv_putResponse (inv_regWrite h hv) _ _
    · exact inv_putResponse (inv_logError h _) _ _
  | rdreg a =>
    obtain ⟨r, -, rfl⟩ | ⟨-, rfl⟩ := execRdreg_cases ht
    · exact inv_putResponse h _ _
    · exact inv_putResponse (inv_logError h _) _ _

end Commands

/-- Settles O12: a reset, a wait, a command that the decoder made (well-formed by O2), or an illegal header. -/
theorem stepKeepsTheInvariant : Obligations.StepKeepsTheInvariant := by
  unfold Obligations.StepKeepsTheInvariant
  intro s t h ht
  obtain ⟨-, rfl⟩ | ⟨-, rfl⟩ | ⟨-, q, i, rest, -, hq, hd, he⟩ | ⟨-, q, op, rest, -, hq, -, rfl⟩ := step_cases ht
  · exact inv_applyReset h
  · exact h
  · exact inv_exec (inv_takeFrom h hq rest) (decodedPacketIsAnEncoding _ _ _ _ hd).2 he
  · exact inv_putResponse (inv_logError (inv_takeFrom h hq rest) _) _ _

end Sys2Proof.Machine
end

section
/-! PROOFS. Rules about the whole machine: that every command completes (R84), what it answers (R95, R96), which state it
writes (R20 to R49, R150), and what is sticky (R25, R26). -/

namespace Sys2Proof

/-- A replaced band keeps, in every band, what the replacement keeps of the band it replaces. -/
theorem PerBand.get_set_congr {α β : Type} (f : α → β) (x : PerBand α) (b : BandIx) {v : α} (hv : f v = f (x.get b))
    (b' : BandIx) : f ((x.set b v).get b') = f (x.get b') := by
  by_cases hb : b' = b
  · rw [hb, PerBand.get_set_same, hv]
  · rw [PerBand.get_set_other x v hb]

namespace Machine

/-! ### Every command completes -/

/-- In a state that meets the invariant every command answers a next state: the memory a read needs has been written
(R56). -/
theorem exists_exec_next {s : State} (h : s.Inv) (i : Instr) : ∃ t, exec i s = .next t := by
  cases i with
  | build =>
    change ∃ t, buildWith exactArith s = .next t
    unfold buildWith
    split <;> exact ⟨_, rfl⟩
  | start =>
    change ∃ t, execStart s = .next t
    unfold execStart
    split <;> exact ⟨_, rfl⟩
  | stop | setmute | getframe => exact ⟨_, rfl⟩
  | setgain b v =>
    change ∃ t, setgainWith exactArith b v s = .next t
    unfold setgainWith
    dsimp only
    split <;> exact ⟨_, rfl⟩
  | proc n ws =>
    change ∃ t, procWith exactArith n ws s = .next t
    unfold procWith
    split_ifs with _ hrun _
    · exact ⟨_, rfl⟩
    · exact ⟨_, rfl⟩
    · exact ⟨_, rfl⟩
    · obtain ⟨bank, hbank, -⟩ := h.bank (h.runBuilt (by simpa using hrun))
      rw [hbank]
      exact ⟨_, rfl⟩
  | anlz n ws =>
    change ∃ t, anlzWith exactArith n ws s = .next t
    unfold anlzWith
    split_ifs <;> exact ⟨_, rfl⟩
  | anlzl =>
    change ∃ t, anlzlWith exactArith s = .next t
    unfold anlzlWith
    split_ifs with hv
    · obtain ⟨x, hx, -⟩ := h.last hv
      rw [hx]
      exact ⟨_, rfl⟩
    · exact ⟨_, rfl⟩
  | getlast =>
    change ∃ t, getlastWith exactArith s = .next t
    unfold getlastWith
    split_ifs with hv
    · obtain ⟨x, hx, -⟩ := h.last hv
      rw [hx]
      exact ⟨_, rfl⟩
    · exact ⟨_, rfl⟩
  | wrcfg a v =>
    change ∃ t, execWrcfg a v s = .next t
    unfold execWrcfg
    split
    · exact ⟨_, rfl⟩
    · split_ifs <;> exact ⟨_, rfl⟩
  | rdreg a =>
    change ∃ t, execRdreg a s = .next t
    unfold execRdreg
    split <;> exact ⟨_, rfl⟩

/-- Settles O13: the reset, the wait and an illegal header always answer, and a command does in the state left when its
packet is taken, which meets the invariant too. -/
theorem stepNeverStops : Obligations.StepNeverStops := by
  unfold Obligations.StepNeverStops
  intro s h
  unfold step
  split_ifs
  · exact ⟨_, rfl⟩
  · split
    · exact ⟨_, rfl⟩
    · next q hq =>
      split
      · exact ⟨_, rfl⟩
      · exact exists_exec_next (inv_takeFrom h (mem_readyPorts.mp (nextPort_mem hq)).1 _) _
      · exact ⟨_, rfl⟩

/-! ### Which command writes what -/

/-- A register write touches the configuration registers alone (R64). -/
theorem exists_regWrite_eq (v : Word) (s : State) (r : Reg) : ∃ fs ord bw gmin gmax alpha decay, regWrite v s r =
    { s with
      cfgFs := fs
      cfgOrder := ord
      cfgBw := bw
      cfgGmin := gmin
      cfgGmax := gmax
      cfgAlpha := alpha
      cfgDecay := decay } := by
  cases r <;> exact ⟨_, _, _, _, _, _, _, rfl⟩

/-- Settles O15, command by command: what each outcome changes is in the update it makes. -/
theorem whoWritesWhat : Obligations.WhoWritesWhat := by
  unfold Obligations.WhoWritesWhat
  intro i s t ht
  cases i with
  | build =>
    obtain ⟨-, rfl⟩ | ⟨b, e, -, rfl⟩ := execBuild_cases ht
    · simp
    · simp +contextual
  | start =>
    obtain ⟨-, rfl⟩ | ⟨-, rfl⟩ := execStart_cases ht
    · simp
    · simp +contextual
  | stop =>
    obtain rfl := execStop_next ht
    simp
  | setgain b v =>
    have hmute := PerBand.get_set_congr Band.mute s.band b
      (v := ⟨BitVec.ofInt 16 (clampGain s (gainCode v)), (s.band.get b).mute,
        Exact.db2lin (clampGain s (gainCode v))⟩) rfl
    obtain ⟨-, rfl⟩ | ⟨-, rfl⟩ := execSetgain_cases ht
    · simp [hmute]
    · simp +contextual [hmute]
  | setmute b m =>
    have hgdb := PerBand.get_set_congr Band.gdb s.band b (v := { s.band.get b with mute := m }) rfl
    have hlin := PerBand.get_set_congr Band.lin s.band b (v := { s.band.get b with mute := m }) rfl
    obtain rfl := execSetmute_next ht
    simp [hgdb, hlin]
  | proc n ws =>
    obtain ⟨-, rfl⟩ | ⟨-, -, rfl⟩ | ⟨-, -, -, rfl⟩ | ⟨-, -, -, bank, -, ht⟩ := procWith_cases ht
    · simp +contextual
    · simp +contextual
    · simp +contextual
    · obtain rfl := Host.Outcome.next.inj (ht.symm.trans (commitChunk_eq ..))
      simp [chunkState]
  | anlz n ws =>
    obtain ⟨-, rfl⟩ | ⟨-, -, rfl⟩ | ⟨-, -, ht⟩ := anlzWith_cases ht
    · simp +contextual
    · simp +contextual
    · obtain ⟨level, peak, -, -, rfl⟩ := analyseChunk_next ht
      simp
  | anlzl =>
    obtain ⟨-, rfl⟩ | ⟨-, x, -, ht⟩ := execAnlzl_cases ht
    · simp +contextual
    · obtain ⟨level, peak, -, -, rfl⟩ := analyseChunk_next ht
      simp
  | getlast =>
    obtain ⟨-, rfl⟩ | ⟨-, x, -, rfl⟩ := execGetlast_cases ht <;> simp
  | getframe =>
    obtain rfl := execGetframe_next ht
    simp
  | wrcfg a v =>
    obtain ⟨r, -, -, -, rfl⟩ | rfl := execWrcfg_cases ht
    · obtain ⟨fs, ord, bw, gmin, gmax, alpha, decay, hr⟩ := exists_regWrite_eq v s r
      simp [hr]
    · simp +contextual
  | rdreg a =>
    obtain ⟨r, -, rfl⟩ | ⟨-, rfl⟩ := execRdreg_cases ht
    · simp
    · simp +contextual

theorem exec_params {i : Instr} {s t : State} (ht : exec i s = .next t) : t.params = s.params :=
  (whoWritesWhat i s t ht).1

theorem exec_errlog_sticky {i : Instr} {s t : State} (ht : exec i s = .next t) {k : Nat}
    (hk : s.errlog.getLsbD k = true) : t.errlog.getLsbD k = true := by
  obtain ⟨-, -, -, -, -, -, -, -, -, hlog, -⟩ := whoWritesWhat i s t ht
  exact hlog k hk

theorem exec_run {i : Instr} {s t : State} (ht : exec i s = .next t) (h1 : i ≠ .start) (h2 : i ≠ .stop)
    (h3 : i ≠ .build) : t.run = s.run := by
  obtain ⟨-, -, -, -, -, -, -, -, hrun, -⟩ := whoWritesWhat i s t ht
  exact hrun h1 h2 h3

theorem exec_lastValid_sticky {i : Instr} {s t : State} (ht : exec i s = .next t) (hv : s.lastValid = true) :
    t.lastValid = true := by
  by_cases hi : ∃ n ws, i = .proc n ws
  · obtain ⟨n, ws, rfl⟩ := hi
    obtain ⟨-, rfl⟩ | ⟨-, -, rfl⟩ | ⟨-, -, -, rfl⟩ | ⟨-, -, -, bank, -, ht⟩ := procWith_cases ht
    · exact hv
    · exact hv
    · exact hv
    · obtain rfl := Host.Outcome.next.inj (ht.symm.trans (commitChunk_eq ..))
      rfl
  · obtain ⟨-, -, -, -, -, -, hlast, -⟩ := whoWritesWhat i s t ht
    obtain ⟨-, -, hkeep⟩ := hlast fun n ws h => hi ⟨n, ws, h⟩
    rw [hkeep, hv]

/-- Settles O14: of the three commands that write `RUN`, `START` changes it with a bank only and `BUILD` where it fails. -/
theorem whatChangesRun : Obligations.WhatChangesRun := by
  unfold Obligations.WhatChangesRun
  refine ⟨fun i s t ht hne => ?_, fun s t hr ht => ?reset⟩
  case reset =>
    rw [step, if_pos hr] at ht
    cases ht
    rfl
  cases i with
  | start =>
    obtain ⟨hb, rfl⟩ | ⟨-, rfl⟩ := execStart_cases ht
    · exact .inl ⟨rfl, hb, rfl⟩
    · exact absurd rfl hne
  | stop =>
    obtain rfl := execStop_next ht
    exact .inr (.inl ⟨rfl, rfl⟩)
  | build =>
    obtain ⟨-, rfl⟩ | ⟨b, e, -, rfl⟩ := execBuild_cases ht
    · exact absurd rfl hne
    · exact .inr (.inr ⟨rfl, rfl, rfl⟩)
  | _ => exact absurd (exec_run ht (fun h => nomatch h) (fun h => nomatch h) fun h => nomatch h) hne

/-- Settles O16: a wait keeps both, a command by O15, and an illegal header sets a log bit and clears none. -/
theorem logAndLastValidAreSticky : Obligations.LogAndLastValidAreSticky := by
  unfold Obligations.LogAndLastValidAreSticky
  intro s t hr ht
  obtain ⟨hrst, -⟩ | ⟨-, rfl⟩ | ⟨-, q, i, rest, -, -, -, he⟩ | ⟨-, q, op, rest, -, -, -, rfl⟩ := step_cases ht
  · rw [hr] at hrst; cases hrst
  · exact ⟨fun _ => id, id⟩
  · exact ⟨fun _ => exec_errlog_sticky he, fun hv => exec_lastValid_sticky he hv⟩
  · exact ⟨fun k hk => by simp [hk], id⟩

/-- Settles O17: each reader answers in the state it found, and `RDREG` of a reserved address sets the log bit besides. -/
theorem readersChangeNoState : Obligations.ReadersChangeNoState := by
  unfold Obligations.ReadersChangeNoState
  intro i s t hi ht
  obtain rfl | rfl | ⟨a, rfl⟩ := hi
  · obtain ⟨-, ht⟩ | ⟨-, x, -, ht⟩ := execGetlast_cases ht <;> exact ⟨_, .inl ht⟩
  · exact ⟨_, .inl (execGetframe_next ht)⟩
  · obtain ⟨r, -, ht⟩ | ⟨-, ht⟩ := execRdreg_cases ht
    · exact ⟨_, .inl ht⟩
    · exact ⟨_, .inr ⟨⟨a, rfl⟩, ht⟩⟩

/-! ### What a command answers -/

/-- What `Obligations.OneResponsePacketPerCommand` says of the `cnt` and the payload length of a success (R96). -/
def successLengths (s : State) : Instr → Nat × Nat
  | .proc n _ => (n.toNat, n.toNat * s.params.nch)
  | .getlast => if s.lastValid then (s.lastLen.toNat, s.lastLen.toNat * s.params.nch) else (0, 0)
  | .anlz _ _ => (s.params.na, 2 * s.params.na)
  | .anlzl => (s.params.na, 2 * s.params.na)
  | .getframe => (s.params.na, 2 * s.params.na)
  | .rdreg _ => (1, 1)
  | _ => (0, 0)

/-- One response packet for `i` on the port served, as R95 and R96 say. -/
def Answered (i : Instr) (s t : State) : Prop :=
  ∃ (code aux : BitVec 4) (cnt : BitVec 16) (payload : List Word),
    t.ports = s.ports.modify s.active
      (fun p => { p with tx := p.tx ++ responseHeader i.opcode code aux cnt :: payload }) ∧
    (code = 0 ∨ code = 1 ∨ code = 2 ∨ code = 4 ∨ code = 5 ∨ code = 6) ∧
    (code ≠ 0 → cnt = 0 ∧ payload = []) ∧
    (code = 0 → (cnt.toNat, payload.length) = successLengths s i)

section Answers

variable {i : Instr} {s u : State} {w : Word}

/-- A success answers code 0 and its payload. -/
theorem answered_success {payload : List Word} (op : BitVec 8) (aux : BitVec 4) (cnt : BitVec 16)
    (hlen : (cnt.toNat, payload.length) = successLengths s i) (hop : i.opcode = op := by rfl)
    (hw : w = responseHeader op 0 aux cnt := by rfl) (hu : u.ports = s.ports := by rfl) :
    Answered i s (putResponse s.active (w :: payload) u) :=
  ⟨0, aux, cnt, payload, by rw [putResponse_ports, hu, hw, hop], .inl rfl, fun h => absurd rfl h, fun _ => hlen⟩

/-- An error answers its code, the header alone; the code of a clamped gain is in use by no error. -/
theorem answered_error (op : BitVec 8) (e : Err) (aux : BitVec 4) (he : e ≠ .invalidGain)
    (hop : i.opcode = op := by rfl) (hw : w = responseHeader op e.code aux 0 := by rfl)
    (hu : u.ports = s.ports := by rfl) : Answered i s (putResponse s.active [w] u) := by
  refine ⟨e.code, aux, 0, [], by rw [putResponse_ports, hu, hw, hop], ?_, fun _ => ⟨rfl, rfl⟩, fun h0 => ?_⟩
  · cases e with
    | invalidGain => exact absurd rfl he
    | _ => decide
  · cases e <;> exact absurd h0 (by decide)

end Answers

/-- The errors of `BUILD` (R131). -/
theorem firstBandFault_ne_invalidGain {s : State} {b : BandIx} {e : Err} (h : firstBandFault s = some (b, e)) :
    e ≠ .invalidGain := by
  obtain ⟨b', -, hb'⟩ := List.exists_of_findSome?_eq_some h
  obtain ⟨e', he', heq⟩ := Option.map_eq_some_iff.mp hb'
  cases heq
  unfold bandFault at he'
  dsimp only at he'
  split_ifs at he' <;> cases he' <;> decide

theorem length_frameWords (A : Arith) {p : Params} {level peak : List Val} (hl : level.length = p.na)
    (hp : peak.length = p.na) : (frameWords A level peak).length = 2 * p.na := by
  rw [frameWords, List.length_append, List.length_map, List.length_map, hl, hp, two_mul]

theorem frame_lengths {p : Params} (hp : p.Ok) (A : Arith) {level peak : List Val} (hl : level.length = p.na)
    (hpk : peak.length = p.na) :
    ((BitVec.ofNat 16 p.na).toNat, (frameWords A level peak).length) = (p.na, 2 * p.na) := by
  obtain ⟨-, -, -, ⟨-, hna⟩, -⟩ := hp
  rw [length_frameWords A hl hpk, BitVec.toNat_ofNat, Nat.mod_eq_of_lt (by omega)]

theorem answered_analyseChunk {i : Instr} (hop : i.opcode = 0x07) {s t : State} (h : s.Inv)
    (hlen : successLengths s i = (s.params.na, 2 * s.params.na)) {n : Nat} {u : List (List Val)}
    (ht : analyseChunk exactArith n u s = .next t) : Answered i s t := by
  obtain ⟨level, peak, rfl, rfl, rfl⟩ := analyseChunk_next ht
  refine answered_success 0x07 0 _ ?_ hop
  rw [hlen, frame_lengths h.params _ (by simp [nextLevel]) (by simp [nextPeak])]

theorem answered_exec {i : Instr} {s t : State} (h : s.Inv) (ht : exec i s = .next t) : Answered i s t := by
  cases i with
  | build =>
    obtain ⟨-, rfl⟩ | ⟨b, e, he, rfl⟩ := execBuild_cases ht
    · exact answered_success 0x01 0 0 rfl
    · exact answered_error 0x01 e _ (firstBandFault_ne_invalidGain he)
  | start =>
    obtain ⟨-, rfl⟩ | ⟨-, rfl⟩ := execStart_cases ht
    · exact answered_success 0x02 0 0 rfl
    · exact answered_error 0x02 .filterBankConfig 0 (by decide)
  | stop =>
    obtain rfl := execStop_next ht
    exact answered_success 0x03 0 0 rfl
  | setgain b v =>
    obtain ⟨-, rfl⟩ | ⟨-, rfl⟩ := execSetgain_cases ht
    · exact answered_success 0x04 0 0 rfl
    · exact answered_success 0x04 8 0 rfl
  | setmute b m =>
    obtain rfl := execSetmute_next ht
    exact answered_success 0x05 0 0 rfl
  | proc n ws =>
    obtain ⟨-, rfl⟩ | ⟨-, -, rfl⟩ | ⟨-, -, -, rfl⟩ | ⟨-, -, -, bank, -, ht⟩ := procWith_cases ht
    · exact answered_error 0x06 .illegalCommand 0 (by decide)
    · exact answered_error 0x06 .notProcessing 0 (by decide)
    · exact answered_error 0x06 .emptyChunk 0 (by decide)
    · obtain rfl := Host.Outcome.next.inj (ht.symm.trans (commitChunk_eq ..))
      exact answered_success 0x06 0 n (by rw [length_payloadOf, successLengths])
  | anlz n ws =>
    obtain ⟨-, rfl⟩ | ⟨-, -, rfl⟩ | ⟨-, -, ht⟩ := anlzWith_cases ht
    · exact answered_error 0x07 .illegalCommand 0 (by decide)
    · exact answered_error 0x07 .emptyChunk 0 (by decide)
    · exact answered_analyseChunk rfl h rfl ht
  | anlzl =>
    obtain ⟨-, rfl⟩ | ⟨-, x, -, ht⟩ := execAnlzl_cases ht
    · exact answered_error 0x07 .emptyChunk 0 (by decide)
    · exact answered_analyseChunk rfl h rfl ht
  | getlast =>
    obtain ⟨hv, rfl⟩ | ⟨hv, x, -, rfl⟩ := execGetlast_cases ht
    · exact answered_success 0x08 4 0 (by rw [successLengths, hv]; rfl)
    · exact answered_success 0x08 0 s.lastLen (by rw [length_payloadOf, successLengths, hv]; rfl)
  | getframe =>
    obtain rfl := execGetframe_next ht
    exact answered_success 0x09 0 _ (frame_lengths h.params _ h.frame.levels h.frame.peaks)
  | wrcfg a v =>
    obtain ⟨r, -, -, -, rfl⟩ | rfl := execWrcfg_cases ht
    · obtain ⟨fs, ord, bw, gmin, gmax, alpha, decay, hr⟩ := exists_regWrite_eq v s r
      rw [hr]
      exact answered_success 0x0A 0 0 rfl
    · exact answered_error 0x0A .illegalCommand 0 (by decide)
  | rdreg a =>
    obtain ⟨r, -, rfl⟩ | ⟨-, rfl⟩ := execRdreg_cases ht
    · exact answered_success 0x0B 0 1 rfl
    · exact answered_error 0x0B .illegalCommand 0 (by decide)

/-- Settles O10: every outcome of every command is a success with its lengths or an error. -/
theorem oneResponsePacketPerCommand : Obligations.OneResponsePacketPerCommand := by
  unfold Obligations.OneResponsePacketPerCommand
  intro i s t h _ ht
  obtain ⟨code, aux, cnt, payload, hports, hcode, herror, hsuccess⟩ := answered_exec h ht
  refine ⟨code, aux, cnt, payload, hports, hcode, herror, fun h0 => (hsuccess h0).trans ?_⟩
  cases i <;> rfl

end Machine

end Sys2Proof
end

section
/-! PROOFS. The step and the arbiter (R75 to R78, R84, R98, R250): what a port is waiting for, what a step takes, that any
ready port can be served, and that in a fair run a complete packet is at last taken. -/

namespace Sys2Proof

/-! ### The reasons of a refused header -/

/-- A refusal is never one of those that mean "not arrived yet" (R78, R98). -/
def RefusesByRule {α : Type} (x : Except Reject α) : Prop := x ≠ .error .noWord ∧ x ≠ .error .incomplete

section Reasons

variable {α β : Type}

theorem refusesByRule_ok (a : α) : RefusesByRule (.ok a) := ⟨nofun, nofun⟩

theorem refusesByRule_ite {P : Prop} [Decidable P] {x y : Except Reject α} (hx : RefusesByRule x)
    (hy : RefusesByRule y) : RefusesByRule (if P then x else y) := by
  split_ifs
  · exact hx
  · exact hy

theorem refusesByRule_map {f : α → β} {x : Except Reject α} (hx : RefusesByRule x) : RefusesByRule (x.map f) := by
  cases x with
  | ok a => exact refusesByRule_ok _
  | error e => exact ⟨fun h => hx.1 (by cases h; rfl), fun h => hx.2 (by cases h; rfl)⟩

theorem refusesByRule_decodeBand (c : Word) : RefusesByRule (decodeBand c) := by
  unfold decodeBand
  split_ifs
  · exact refusesByRule_ok _
  · exact ⟨nofun, nofun⟩

theorem refusesByRule_decodeChunk (p : Params) (c : Word) (h : BitVec 16 → Header) :
    RefusesByRule (decodeChunk p c h) :=
  refusesByRule_ite (refusesByRule_ok _) ⟨nofun, nofun⟩

theorem refusesByRule_decodeHeader (p : Params) (c : Word) : RefusesByRule (decodeHeader p c) := by
  unfold decodeHeader
  split
  case h_1 | h_2 | h_3 | h_8 | h_9 | h_10 | h_11 => exact refusesByRule_ite (refusesByRule_ok _) ⟨nofun, nofun⟩
  case h_4 | h_5 => exact refusesByRule_ite (refusesByRule_map (refusesByRule_decodeBand c)) ⟨nofun, nofun⟩
  case h_6 =>
    exact refusesByRule_ite (refusesByRule_ite ⟨nofun, nofun⟩ (refusesByRule_decodeChunk ..)) ⟨nofun, nofun⟩
  case h_7 =>
    exact refusesByRule_ite (refusesByRule_ite (refusesByRule_ite (refusesByRule_ok _) ⟨nofun, nofun⟩)
      (refusesByRule_decodeChunk ..)) ⟨nofun, nofun⟩
  case h_12 => exact ⟨nofun, nofun⟩

end Reasons

namespace Machine

/-! ### What stands at the head of a port -/

theorem arrivalOf_of_ok {p : Params} {ws rest : List Word} {i : Instr} (h : decode p ws = .ok (i, rest)) :
    arrivalOf p ws = .command i rest := by
  rw [arrivalOf, h]

theorem arrivalOf_waiting_iff (p : Params) (ws : List Word) :
    arrivalOf p ws = .waiting ↔ decode p ws = .error .noWord ∨ decode p ws = .error .incomplete := by
  unfold arrivalOf
  split <;> simp_all

theorem arrivalOf_of_refused {p : Params} {c : Word} {ws : List Word} {e : Reject} (h : decodeHeader p c = .error e) :
    arrivalOf p (c :: ws) = .illegal (opField c) ws := by
  obtain ⟨hno, hinc⟩ := refusesByRule_decodeHeader p c
  rw [h] at hno hinc
  simp only [arrivalOf, decode, h]
  cases e with
  | noWord => exact absurd rfl hno
  | incomplete => exact absurd rfl hinc
  | _ => rfl

/-- A complete packet stays complete when more words arrive behind it (R78, R93). -/
theorem arrivalOf_append {p : Params} {ws : List Word} (h : arrivalOf p ws ≠ .waiting) (more : List Word) :
    arrivalOf p (ws ++ more) ≠ .waiting := by
  cases ws with
  | nil => exact absurd rfl h
  | cons c ws =>
    cases hc : decodeHeader p c with
    | error e => rw [List.cons_append, arrivalOf_of_refused hc]; nofun
    | ok hd =>
      rw [Ne, arrivalOf_waiting_iff] at h ⊢
      have hlen : ¬ ws.length < hd.payloadLen p := fun hlt => h (.inr (by simp only [decode, hc, if_pos hlt]))
      have hmore : ¬ (ws ++ more).length < hd.payloadLen p := by rw [List.length_append]; omega
      simp only [List.cons_append, decode, hc, if_neg hmore]
      exact fun hw => hw.elim nofun nofun

/-! ### The step -/

theorem step_of_command {s : State} {q : Nat} {i : Instr} {rest : List Word} (hr : s.rst = false)
    (hq : nextPort s = some q) (harr : arrivalAt s q = .command i rest) : step s = exec i (takeFrom q rest s) := by
  simp [step, hr, hq, harr]

theorem step_of_illegal {s : State} {q : Nat} {op : BitVec 8} {rest : List Word} (hr : s.rst = false)
    (hq : nextPort s = some q) (harr : arrivalAt s q = .illegal op rest) :
    step s = illegalHeader op (takeFrom q rest s) := by
  simp [step, hr, hq, harr]

/-- Settles O5: the packet found at the port served is the one decoded there, and taking it is the update of the ports. -/
theorem stepRunsTheDecodedCommand : Obligations.StepRunsTheDecodedCommand := by
  unfold Obligations.StepRunsTheDecodedCommand
  intro s q i rest hr hq hd
  rw [step_of_command hr hq (arrivalOf_of_ok hd)]
  rfl

/-- Settles O6: a refused header is taken alone and answered as an illegal command. -/
theorem illegalHeaderTakesOneWord : Obligations.IllegalHeaderTakesOneWord := by
  unfold Obligations.IllegalHeaderTakesOneWord
  intro s q c ws e hr hq hrx hc
  have harr : arrivalAt s q = .illegal (opField c) ws := by rw [arrivalAt, hrx, arrivalOf_of_refused hc]
  rw [step_of_illegal hr hq harr]
  rfl

/-- Settles O7: no port is ready, so the arbiter serves none. -/
theorem noCompletePacketWaits : Obligations.NoCompletePacketWaits := by
  unfold Obligations.NoCompletePacketWaits
  intro s hr hports
  have hready : readyPorts s = [] := List.eq_nil_iff_forall_not_mem.mpr fun q hq => by
    obtain ⟨hlt, harr⟩ := mem_readyPorts.mp hq
    exact harr ((arrivalOf_waiting_iff ..).mpr (hports q hlt))
  rw [step, hr, if_neg Bool.false_ne_true, nextPort_eq_none_iff.mpr hready]

/-- Settles O9: the step is the reset, whose fields are those of `State.resetOf`. -/
theorem resetPutsEveryElementAtItsValue : Obligations.ResetPutsEveryElementAtItsValue := by
  unfold Obligations.ResetPutsEveryElementAtItsValue
  intro s hr
  have hband (b : BandIx) : (applyReset s).band.get b = Band.reset := by fin_cases b <;> rfl
  have hbw (b : BandIx) : (applyReset s).bankBw.get b = 0 := by fin_cases b <;> rfl
  have htail (c : Nat) (b : BandIx) (k : Nat) (hc : c < s.params.nch) (hk : k < s.params.mmax - 1) :
      ((tailOf (applyReset s) c).get b)[k]? = some Val.zero := by
    have hrows : tailOf (applyReset s) c ∈ zeroTail s.params := by
      have hlen : c < (zeroTail s.params).length := by rwa [length_zeroTail]
      have hget : tailOf (applyReset s) c = (zeroTail s.params)[c] := List.getD_eq_getElem _ _ hlen
      rw [hget]
      exact List.getElem_mem hlen
    rw [mem_zeroTail hrows, List.getElem?_replicate, if_pos hk]
  refine ⟨applyReset s, by rw [step, if_pos hr], rfl, rfl, rfl, rfl, rfl, rfl, rfl, rfl, rfl, rfl, rfl, rfl,
    fun b => ?_, rfl, rfl, rfl, hbw, rfl, length_zeroTail _, htail, rfl, rfl, rfl, rfl, rfl⟩
  rw [hband]
  exact ⟨rfl, rfl, rfl⟩

/-! ### What a step leaves on the ports -/

/-- A command adds to the responses of the port served, and to nothing else on the ports. -/
theorem exec_ports {i : Instr} {s t : State} (ht : exec i s = .next t) :
    ∃ ws, t.ports = s.ports.modify s.active fun p => { p with tx := p.tx ++ ws } := by
  cases i with
  | build => obtain ⟨-, rfl⟩ | ⟨b, e, -, rfl⟩ := execBuild_cases ht <;> exact ⟨_, rfl⟩
  | start => obtain ⟨-, rfl⟩ | ⟨-, rfl⟩ := execStart_cases ht <;> exact ⟨_, rfl⟩
  | stop => obtain rfl := execStop_next ht; exact ⟨_, rfl⟩
  | setgain b v => obtain ⟨-, rfl⟩ | ⟨-, rfl⟩ := execSetgain_cases ht <;> exact ⟨_, rfl⟩
  | setmute b m => obtain rfl := execSetmute_next ht; exact ⟨_, rfl⟩
  | proc n ws =>
    obtain ⟨-, rfl⟩ | ⟨-, -, rfl⟩ | ⟨-, -, -, rfl⟩ | ⟨-, -, -, bank, -, ht⟩ := procWith_cases ht
    · exact ⟨_, rfl⟩
    · exact ⟨_, rfl⟩
    · exact ⟨_, rfl⟩
    · obtain rfl := Host.Outcome.next.inj (ht.symm.trans (commitChunk_eq ..))
      exact ⟨_, rfl⟩
  | anlz n ws =>
    obtain ⟨-, rfl⟩ | ⟨-, -, rfl⟩ | ⟨-, -, ht⟩ := anlzWith_cases ht
    · exact ⟨_, rfl⟩
    · exact ⟨_, rfl⟩
    · obtain ⟨level, peak, -, -, rfl⟩ := analyseChunk_next ht
      exact ⟨_, rfl⟩
  | anlzl =>
    obtain ⟨-, rfl⟩ | ⟨-, x, -, ht⟩ := execAnlzl_cases ht
    · exact ⟨_, rfl⟩
    · obtain ⟨level, peak, -, -, rfl⟩ := analyseChunk_next ht
      exact ⟨_, rfl⟩
  | getlast => obtain ⟨-, rfl⟩ | ⟨-, x, -, rfl⟩ := execGetlast_cases ht <;> exact ⟨_, rfl⟩
  | getframe => obtain rfl := execGetframe_next ht; exact ⟨_, rfl⟩
  | wrcfg a v =>
    obtain ⟨r, -, -, -, rfl⟩ | rfl := execWrcfg_cases ht
    · obtain ⟨fs, ord, bw, gmin, gmax, alpha, decay, hr⟩ := exists_regWrite_eq v s r
      exact ⟨_, by rw [hr]; rfl⟩
    · exact ⟨_, rfl⟩
  | rdreg a => obtain ⟨r, -, rfl⟩ | ⟨-, rfl⟩ := execRdreg_cases ht <;> exact ⟨_, rfl⟩

/-- The state `t` has the ports of `s`, and on port `q` at least the words that have arrived there in `s`. -/
structure KeepsArrived (q : Nat) (s t : State) : Prop where
  params : t.params = s.params
  length : t.ports.length = s.ports.length
  rx : rxOf s q <+: rxOf t q

theorem KeepsArrived.refl (q : Nat) (s : State) : KeepsArrived q s s := ⟨rfl, rfl, List.prefix_rfl⟩

theorem KeepsArrived.trans {q : Nat} {s t u : State} (hst : KeepsArrived q s t) (htu : KeepsArrived q t u) :
    KeepsArrived q s u :=
  ⟨htu.params.trans hst.params, htu.length.trans hst.length, hst.rx.trans htu.rx⟩

/-- What was complete stays complete. -/
theorem KeepsArrived.arrivalAt_ne_waiting {q : Nat} {s t : State} (h : KeepsArrived q s t)
    (hs : arrivalAt s q ≠ .waiting) : arrivalAt t q ≠ .waiting := by
  obtain ⟨more, hmore⟩ := h.rx
  rw [arrivalAt, ← hmore, h.params]
  exact arrivalOf_append hs more

/-- A change of one port, which leaves the words that have arrived on port `q` at the head of what it holds. -/
theorem keepsArrived_of_modify {q q' : Nat} {s t : State} {f : Port → Port} (hparams : t.params = s.params)
    (hports : t.ports = s.ports.modify q' f) (hf : q' = q → ∀ p, p.rx <+: (f p).rx) : KeepsArrived q s t := by
  refine ⟨hparams, by rw [hports, List.length_modify], ?_⟩
  rw [rxOf, rxOf, hports, List.getElem?_modify]
  cases s.ports[q]? with
  | none => exact List.prefix_rfl
  | some p =>
    dsimp
    split_ifs with hq
    · exact hf hq p
    · exact List.prefix_rfl

theorem keepsArrived_refused (q q' : Nat) (ws : List Word) (e : Err) (s : State) :
    KeepsArrived q s (putResponse q' ws (logError e s)) :=
  keepsArrived_of_modify rfl rfl fun _ _ => List.prefix_rfl

theorem keepsArrived_takeFrom {q q' : Nat} (hne : q' ≠ q) (rest : List Word) (s : State) :
    KeepsArrived q s (takeFrom q' rest s) :=
  keepsArrived_of_modify rfl rfl fun h => absurd h hne

theorem keepsArrived_exec (q : Nat) {i : Instr} {s t : State} (ht : exec i s = .next t) : KeepsArrived q s t := by
  obtain ⟨ws, hports⟩ := exec_ports ht
  exact keepsArrived_of_modify (exec_params ht) hports fun _ _ => List.prefix_rfl

/-- A step that serves another port leaves what has arrived on port `q`. -/
theorem keepsArrived_step {q : Nat} {s t : State} (hr : s.rst = false) (hq : nextPort s ≠ some q)
    (ht : step s = .next t) : KeepsArrived q s t := by
  obtain ⟨hrst, -⟩ | ⟨-, rfl⟩ | ⟨-, q', i, rest, hq', -, -, he⟩ | ⟨-, q', op, rest, hq', -, -, rfl⟩ := step_cases ht
  · rw [hr] at hrst; cases hrst
  · exact .refl q _
  · have hne : q' ≠ q := fun h => hq (h ▸ hq')
    exact (keepsArrived_takeFrom hne rest s).trans (keepsArrived_exec q he)
  · have hne : q' ≠ q := fun h => hq (h ▸ hq')
    exact (keepsArrived_takeFrom hne rest s).trans (keepsArrived_refused ..)

theorem keepsArrived_act (q : Nat) (s : State) (a : Act) : KeepsArrived q s (a.apply s) := by
  cases a with
  | deliver q' ws => exact keepsArrived_of_modify rfl rfl fun _ _ => List.prefix_append ..
  | collect q' => exact keepsArrived_of_modify rfl rfl fun _ _ => List.prefix_rfl
  | reset | choose c => exact ⟨rfl, rfl, List.prefix_rfl⟩

theorem keepsArrived_acts (q : Nat) (s : State) (acts : List Act) : KeepsArrived q s (acts.foldl Act.apply s) := by
  induction acts generalizing s with
  | nil => exact .refl q s
  | cons a acts ih => exact (keepsArrived_act q s a).trans (ih _)

/-! ### The arbiter -/

/-- Every ready port is served by some choice: its place among the ready ports (R77). -/
theorem exists_grant {s : State} {q : Nat} (hq : q ∈ readyPorts s) :
    ∃ g, nextPort { s with grants := g :: s.grants } = some q := by
  obtain ⟨k, hk, hget⟩ := List.mem_iff_getElem.mp hq
  refine ⟨k, ?_⟩
  have hready : readyPorts { s with grants := k :: s.grants } = readyPorts s := rfl
  unfold nextPort
  rw [hready]
  match readyPorts s, hk, hget with
  | [q'], hk, hget =>
    obtain rfl : k = 0 := by simpa using hk
    exact congrArg some hget
  | q' :: q'' :: qs, hk, hget =>
    dsimp only
    rw [Nat.mod_eq_of_lt hk, List.getElem?_eq_getElem hk, hget]

/-- A pending packet that has not been taken is still pending, at the head of its port (R84). -/
theorem pending_of_not_taken {r : Run} {q t : Nat} (hrst : ∀ u, t ≤ u → (r.at u).rst = false) (hp : r.Pending q t)
    {u : Nat} (hu : t ≤ u) (hnot : ∀ v, t ≤ v → v < u → ¬ r.Takes q v) :
    KeepsArrived q (r.at t) (r.at u) ∧ r.Pending q u := by
  obtain ⟨-, hlt, harr⟩ := hp
  have hkeeps : KeepsArrived q (r.at t) (r.at u) := by
    induction u, hu using Nat.le_induction with
    | base => exact .refl q _
    | succ u hu ih =>
      have hstep : KeepsArrived q (r.at u) (r.state (u + 1)) :=
        keepsArrived_step (hrst u hu) (fun hq => hnot u hu (Nat.lt_succ_self u) ⟨hrst u hu, hq⟩) (r.steps u)
      exact ((ih fun v hv hvu => hnot v hv (hvu.trans (Nat.lt_succ_self u))).trans hstep).trans (keepsArrived_acts ..)
  exact ⟨hkeeps, hrst u hu, hkeeps.length ▸ hlt, hkeeps.arrivalAt_ne_waiting harr⟩

/-- Settles O8: the third clause by the first step that takes the packet. There is one, because a packet never taken
would stay pending for ever, against the fairness of the run. -/
theorem arbiterMayServeAnyReadyPort : Obligations.ArbiterMayServeAnyReadyPort := by
  unfold Obligations.ArbiterMayServeAnyReadyPort
  refine ⟨fun s q hq => mem_readyPorts.mp (nextPort_mem hq), fun s q hlt harr => exists_grant (mem_readyPorts.mpr ⟨hlt, harr⟩),
    fun r q t hfair hrst hp => ?taken⟩
  case taken =>
    classical
    have htaken : ∃ u, t ≤ u ∧ r.Takes q u := by
      by_contra hnone
      have hnever : ∀ u, t ≤ u → ¬ r.Takes q u := fun u hu htake => hnone ⟨u, hu, htake⟩
      exact hnone (hfair q t fun u hu => (pending_of_not_taken hrst hp hu fun v hv _ => hnever v hv).2)
    obtain ⟨hle, htake⟩ := Nat.find_spec htaken
    refine ⟨Nat.find htaken, hle, htake, ?_⟩
    exact (pending_of_not_taken hrst hp hle fun v hv hlt htv => Nat.find_min htaken hlt ⟨hv, htv⟩).1.rx

end Machine

end Sys2Proof
end

section
/-! PROOFS. The register space and the construction of the bank: the register map (R62), `WRCFG` and `RDREG` (R121,
R123), the words made of fields (R27, R34 to R37), and both outcomes of `BUILD` (R131, R136, R137). -/

namespace Sys2Proof.Machine

/-- Settles O4, by evaluation of the decoder on the fourteen words. -/
theorem specWordsDecode : Obligations.SpecWordsDecode := by
  unfold Obligations.SpecWordsDecode
  decide +kernel

/-! ### The register map -/

theorem regAt_eq_none_iff : ∀ a : BitVec 8, regAt a = none ↔
    (0x0D ≤ a.toNat ∧ a.toNat ≤ 0x0F) ∨ (0x15 ≤ a.toNat ∧ a.toNat ≤ 0x17) ∨ 0x23 ≤ a.toNat := by
  decide +kernel

theorem regAt_writable_iff : ∀ a : BitVec 8, (regAt a).any Reg.writable = true ↔ 0x02 ≤ a.toNat ∧ a.toNat ≤ 0x0C := by
  decide +kernel

/-- Settles O19: the addresses one by one, the reserved and the writable ones over all 256. -/
theorem registerMap : Obligations.RegisterMap := by
  unfold Obligations.RegisterMap
  refine ⟨by decide, rfl, rfl, rfl, rfl, rfl, rfl, rfl, rfl, rfl, rfl, rfl, rfl, rfl, rfl, regAt_eq_none_iff, fun a => ?_⟩
  rw [← regAt_writable_iff, Option.any_eq_true_iff_get]
  cases regAt a <;> simp

/-! ### `WRCFG` and `RDREG` -/

theorem regRead_regWrite_same (v : Word) (s : State) {r : Reg} (hr : r.writable = true) :
    regRead (regWrite v s r) r = v := by
  cases r with
  | cfgBw b => exact PerBand.get_set_same ..
  | cfgFs | cfgOrder | cfgGmin | cfgGmax | cfgAlpha | cfgDecay => rfl
  | _ => cases hr

/-- A register write leaves every other register (R64). -/
theorem regRead_regWrite_other (v : Word) (s : State) {r r' : Reg} (h : r' ≠ r) :
    regRead (regWrite v s r) r' = regRead s r' := by
  cases r with
  | cfgFs => cases r' with
    | cfgFs => exact absurd rfl h
    | _ => rfl
  | cfgOrder => cases r' with
    | cfgOrder => exact absurd rfl h
    | _ => rfl
  | cfgBw b => cases r' with
    | cfgBw b' => exact PerBand.get_set_other _ _ fun hb => h (congrArg Reg.cfgBw hb)
    | _ => rfl
  | cfgGmin => cases r' with
    | cfgGmin => exact absurd rfl h
    | _ => rfl
  | cfgGmax => cases r' with
    | cfgGmax => exact absurd rfl h
    | _ => rfl
  | cfgAlpha => cases r' with
    | cfgAlpha => exact absurd rfl h
    | _ => rfl
  | cfgDecay => cases r' with
    | cfgDecay => exact absurd rfl h
    | _ => rfl
  | _ => rfl

theorem writableAt_eq_some_iff {a : BitVec 8} {r : Reg} :
    writableAt a = some r ↔ regAt a = some r ∧ r.writable = true := Option.filter_eq_some_iff

/-- Settles O20: the write goes through, reads back, and changes configuration registers alone. -/
theorem wrcfgReplacesTheRegister : Obligations.WrcfgReplacesTheRegister := by
  unfold Obligations.WrcfgReplacesTheRegister
  intro a v s r ha hw hl
  have hexec : exec (.wrcfg a v) s = .next (putResponse s.active [0x0A000000] (regWrite v s r)) := by
    change execWrcfg a v s = _
    rw [execWrcfg, writableAt_eq_some_iff.mpr ⟨ha, hw⟩]
    dsimp only
    rw [if_pos hl]
    cases r <;> rfl
  refine ⟨_, hexec, regRead_regWrite_same v s hw, fun r' => regRead_regWrite_other v s, ?_⟩
  obtain ⟨fs, ord, bw, gmin, gmax, alpha, decay, hr⟩ := exists_regWrite_eq v s r
  rw [hr]

/-- Settles O21: at a reserved or read-only address by the first check of `WRCFG`, at another by the second. -/
theorem wrcfgRefusals : Obligations.WrcfgRefusals := by
  unfold Obligations.WrcfgRefusals
  intro a v s h
  change execWrcfg a v s = _
  unfold execWrcfg
  split
  · rfl
  · next r hr =>
    obtain ⟨ha, hw⟩ := writableAt_eq_some_iff.mp hr
    have hl : legalValue s v r = false := (h r ha).resolve_left (by rw [hw]; nofun)
    rw [hl]
    rfl

/-- Settles O23: `RDREG` looks the address up in the register map. -/
theorem rdregAnswersTheRegister : Obligations.RdregAnswersTheRegister := by
  unfold Obligations.RdregAnswersTheRegister
  intro a s
  change (∀ r, _ → execRdreg a s = _) ∧ (_ → execRdreg a s = _)
  unfold execRdreg
  constructor
  · intro r ha
    rw [ha]
    rfl
  · intro ha
    rw [ha]
    rfl

/-! ### The words made of fields -/

theorem toNat_statusWord (s : State) :
    (statusWord s).toNat = s.run.toNat + 2 * s.built.toNat + 4 * s.lastValid.toNat := by
  simp only [statusWord, toNat_append_eq, toNat_ofBool, BitVec.toNat_ofNat]
  omega

theorem toNat_errlogWord (s : State) : (errlogWord s).toNat = s.errlog.toNat := by
  simp only [errlogWord, toNat_append_eq, BitVec.toNat_ofNat]
  omega

theorem toNat_bandWord (b : Band) : (bandWord b).toNat = b.gdb.toNat + 2 ^ 16 * b.mute.toNat := by
  simp only [bandWord, toNat_append_eq, toNat_ofBool, BitVec.toNat_ofNat]
  omega

theorem toNat_params0Word {p : Params} (hp : p.Ok) :
    (params0Word p).toNat = p.cap + 2 ^ 16 * p.nch + 2 ^ 24 * p.na := by
  obtain ⟨⟨-, hnch⟩, ⟨-, hcap⟩, -, ⟨-, hna⟩, -⟩ := hp
  simp only [params0Word, toNat_append_eq, BitVec.toNat_ofNat]
  omega

theorem toNat_params1Word {p : Params} (hp : p.Ok) : (params1Word p).toNat = p.mmax + 2 ^ 16 * min p.nport 255 := by
  obtain ⟨-, -, ⟨-, hmmax, -⟩, -⟩ := hp
  simp only [params1Word, toNat_append_eq, BitVec.toNat_ofNat]
  omega

/-- Settles O24, word by word. -/
theorem fieldRegisterWords : Obligations.FieldRegisterWords := by
  unfold Obligations.FieldRegisterWords
  intro s hp
  exact ⟨toNat_statusWord s, toNat_errlogWord s, fun b => toNat_bandWord _,
    BitVec.toNat_setWidth_of_le (by decide), BitVec.toNat_setWidth_of_le (by decide),
    toNat_params0Word hp, toNat_params1Word hp⟩

/-! ### `BUILD` -/

/-- The upper edge below half the sample rate, with both sides doubled (R131). -/
theorem upperEdge_lt_iff (b : BandIx) (bw : Word) (fs : Nat) :
    upperEdge b bw < (fs : Rat) / 2 ↔ 2 * bandCentres.get b + bw.toNat < fs := by
  rw [upperEdge, Rat.mkRat_eq_div, ← Nat.cast_lt (α := Rat)]
  push_cast
  constructor <;> intro h <;> linarith

/-- The lower edge above zero, doubled (R131). -/
theorem lowerEdge_pos_iff (b : BandIx) (bw : Word) : 0 < lowerEdge b bw ↔ bw.toNat < 2 * bandCentres.get b := by
  rw [lowerEdge, Rat.mkRat_eq_div, ← Nat.cast_lt (α := Rat)]
  push_cast
  constructor <;> intro h <;> linarith

/-- What `BUILD` asks of a band (R131). -/
def BandGood (s : State) (b : BandIx) : Prop :=
  (s.cfgBw.get b).toNat ≠ 0 ∧ upperEdge b (s.cfgBw.get b) < (s.cfgFs.toNat : Rat) / 2 ∧
    0 < lowerEdge b (s.cfgBw.get b)

theorem bandFault_of_good {s : State} {b : BandIx} (h : BandGood s b) : bandFault s b = none := by
  obtain ⟨hw, hu, hl⟩ := h
  rw [upperEdge_lt_iff] at hu
  rw [lowerEdge_pos_iff] at hl
  simp only [bandFault]
  rw [if_neg (by omega), if_neg (by omega)]

theorem bandFault_of_width_or_upper {s : State} {b : BandIx}
    (h : (s.cfgBw.get b).toNat = 0 ∨ (s.cfgFs.toNat : Rat) / 2 ≤ upperEdge b (s.cfgBw.get b)) :
    bandFault s b = some .filterBankConfig := by
  rw [← not_lt, upperEdge_lt_iff, not_lt] at h
  simp only [bandFault]
  rw [if_pos h]

theorem bandFault_of_lower {s : State} {b : BandIx} (hw : (s.cfgBw.get b).toNat ≠ 0)
    (hu : upperEdge b (s.cfgBw.get b) < (s.cfgFs.toNat : Rat) / 2) (hl : lowerEdge b (s.cfgBw.get b) ≤ 0) :
    bandFault s b = some .invalidBand := by
  rw [upperEdge_lt_iff] at hu
  rw [← not_lt, lowerEdge_pos_iff, not_lt] at hl
  simp only [bandFault]
  rw [if_neg (by omega), if_pos hl]

theorem bands_split : ∀ b : BandIx, ([0, 1, 2, 3, 4] : List BandIx) =
    ([0, 1, 2, 3, 4] : List BandIx).filter (· < b) ++ b :: ([0, 1, 2, 3, 4] : List BandIx).filter (b < ·) := by
  decide

/-- The bands are looked at in ascending order (R230). -/
theorem firstBandFault_of_first {s : State} {b : BandIx} {e : Err} (hbefore : ∀ b', b' < b → BandGood s b')
    (hb : bandFault s b = some e) : firstBandFault s = some (b, e) := by
  refine List.findSome?_eq_some_iff.mpr ⟨_, b, _, bands_split b, by rw [hb]; rfl, fun b' hb' => ?_⟩
  rw [bandFault_of_good (hbefore b' (by simpa using (List.mem_filter.mp hb').2))]
  rfl

theorem firstBandFault_of_good {s : State} (h : ∀ b, BandGood s b) : firstBandFault s = none :=
  List.findSome?_eq_none_iff.mpr fun b _ => by rw [bandFault_of_good (h b)]; rfl

theorem execBuild_of_fault {s : State} {b : BandIx} {e : Err} (h : firstBandFault s = some (b, e)) :
    exec .build s = .next (putResponse s.active [responseHeader 0x01 e.code (BitVec.ofNat 4 b.val) 0]
      (logError e (dropBank s))) := by
  change buildWith exactArith s = _
  rw [buildWith, h]
  rfl

/-- Settles O25: no band is at fault, and the effects are those of `commitBank`. -/
theorem buildMakesTheBank : Obligations.BuildMakesTheBank := by
  unfold Obligations.BuildMakesTheBank
  intro s hgood
  change buildWith exactArith s = _
  rw [buildWith, firstBandFault_of_good hgood]
  simp only [respond, commitBank, buildTaps, buildTransform, buildLength_eq]
  rfl

/-- Settles O26: the bands before are good, so the fault of this one is the first. -/
theorem buildFailsAtTheFirstBadBand : Obligations.BuildFailsAtTheFirstBadBand := by
  unfold Obligations.BuildFailsAtTheFirstBadBand
  intro s b hbefore
  refine ⟨fun h => ?_, fun hw hu hl => ?_⟩
  · rw [execBuild_of_fault (firstBandFault_of_first hbefore (bandFault_of_width_or_upper h))]
    rfl
  · rw [execBuild_of_fault (firstBandFault_of_first hbefore (bandFault_of_lower hw hu hl))]
    rfl

end Sys2Proof.Machine
end

section
/-! PROOFS. The equalizer's control and the chunk commands: `START`, `STOP`, `SETGAIN`, `SETMUTE` (R151 to R156), `PROC`
and `GETLAST` (R171 to R185), `ANLZ`, `ANLZL` and `GETFRAME` (R191, R201, R204). -/

namespace Sys2Proof.Machine

/-! ### Control -/

/-- Settles O31, by the branch of `START` and the one outcome of `STOP`. -/
theorem startAndStop : Obligations.StartAndStop := by
  unfold Obligations.StartAndStop
  intro s
  change (_ → execStart s = _) ∧ (_ → execStart s = _) ∧ execStop s = _
  unfold execStart
  refine ⟨fun hb => ?_, fun hb => ?_, rfl⟩
  · rw [if_pos hb]
    rfl
  · rw [if_neg (ne_true_of_eq_false hb)]
    rfl

/-- A code written as a gain is stored as it is (R153). -/
theorem writeGain_toInt (A : Arith) (b : BandIx) (w : BitVec 16) (s : State) :
    writeGain A b w.toInt s = { s with band := s.band.set b ⟨w, (s.band.get b).mute, A.db2lin w.toInt⟩ } := by
  rw [writeGain, BitVec.ofInt_toInt]

/-- Settles O32: a code within the bounds is not clamped. -/
theorem setgainStoresTheGain : Obligations.SetgainStoresTheGain := by
  unfold Obligations.SetgainStoresTheGain
  intro b v s hlo hhi
  refine ⟨?_, toReal_db2lin _, fun x => PerBand.get_set_same .., fun x b' hb => PerBand.get_set_other _ _ hb⟩
  have hclamp : clampGain s (gainCode v) = v.toInt := by
    simp only [clampGain, boundCode_eq, gainCode, if_neg (not_lt.mpr hlo), if_neg (not_lt.mpr hhi)]
  change setgainWith exactArith b v s = _
  simp only [setgainWith, hclamp, writeGain_toInt]
  exact if_pos rfl

theorem setgainWith_of_clamped (A : Arith) (b : BandIx) {v w : BitVec 16} {s : State}
    (hclamp : clampGain s (gainCode v) = w.toInt) (hne : w.toInt ≠ gainCode v) :
    setgainWith A b v s = .next (putResponse s.active [0x04080000]
      { s with band := s.band.set b ⟨w, (s.band.get b).mute, A.db2lin w.toInt⟩
               errlog := s.errlog ||| 0x08 }) := by
  simp only [setgainWith, hclamp, writeGain_toInt]
  rw [if_neg hne]
  rfl

/-- Settles O33: on each side the clamped gain is that bound's code, which is not the one asked for. -/
theorem setgainClamps : Obligations.SetgainClamps := by
  unfold Obligations.SetgainClamps
  intro b v s hbounds
  refine ⟨fun hlow => setgainWith_of_clamped _ _ ?_ hlow.ne', fun hhigh => setgainWith_of_clamped _ _ ?_ hhigh.ne⟩
  · simp only [clampGain, boundCode_eq, gainCode, if_pos hlow]
  · simp only [clampGain, boundCode_eq, gainCode, if_neg (not_lt.mpr (hbounds.trans hhigh.le)), if_pos hhigh]

/-- Settles O34: `SETMUTE` has one outcome. -/
theorem setmuteWritesTheBit : Obligations.SetmuteWritesTheBit := by
  unfold Obligations.SetmuteWritesTheBit
  intro b m s
  rfl

/-! ### `PROC` and `GETLAST` -/

/-- Settles O36, check by check. -/
theorem procChecksInOrder : Obligations.ProcChecksInOrder := by
  unfold Obligations.ProcChecksInOrder
  intro n ws s
  simp only [← payloadNonFinite_iff, ← payloadNonFinite_eq_false_iff]
  change (_ → procWith exactArith n ws s = _) ∧ (_ → _ → procWith exactArith n ws s = _) ∧
    (_ → _ → _ → procWith exactArith n ws s = _)
  unfold procWith
  refine ⟨fun hws => ?_, fun hws hrun => ?_, fun hws hrun hn => ?_⟩
  · rw [if_pos hws]
    rfl
  · rw [hws, if_neg Bool.false_ne_true, if_pos (by rw [hrun]; rfl)]
    rfl
  · rw [hws, if_neg Bool.false_ne_true, if_neg (by rw [hrun]; decide), if_pos hn]
    rfl

/-- The words a chunk answers are those of its composites (R178). -/
theorem payloadOf_outputWords (A : Arith) (bank : PerBand (List Val)) (x : List (List Val)) (n : Nat) (s : State) :
    (payloadOf s.params.nch n fun c t => ((outputWords A bank x n s).getD c []).getD t 0) =
      payloadOf s.params.nch n fun c t => A.enc (compositeAt A bank x s c t) :=
  payloadOf_congr fun _ _ => outputWords_getD

theorem map_decVal_outputWords (A : Arith) (bank : PerBand (List Val)) (x : List (List Val)) (n : Nat) (s : State) :
    ((outputWords A bank x n s).map fun row => row.map decVal) =
      (List.range s.params.nch).map fun c => (List.range n).map fun t => decVal (A.enc (compositeAt A bank x s c t)) := by
  simp [outputWords, Function.comp_def]

/-- Settles O37: the checks let the chunk through, and its commit answers, keeps and carries on what R178 says. -/
theorem procProcessesTheChunk : Obligations.ProcProcessesTheChunk := by
  unfold Obligations.ProcProcessesTheChunk
  intro n ws s h hws hrun hn hbank
  change procWith exactArith n ws s = _
  rw [procWith_commits ((payloadNonFinite_eq_false_iff ws).mpr hws) hrun hn hbank, commitChunk_eq,
    payloadOf_outputWords, chunkState, map_decVal_outputWords]
  rfl

/-- The configuration registers replaced (R81). -/
def withConfig (fs ord gmin gmax alpha decay : Word) (bw : PerBand Word) (s : State) : State :=
  { s with
    cfgFs := fs
    cfgOrder := ord
    cfgBw := bw
    cfgGmin := gmin
    cfgGmax := gmax
    cfgAlpha := alpha
    cfgDecay := decay }

/-- Settles O18: each outcome of `PROC` reads and keeps the fields other than the configuration registers. -/
theorem procIgnoresTheConfigurationRegisters : Obligations.ProcIgnoresTheConfigurationRegisters := by
  unfold Obligations.ProcIgnoresTheConfigurationRegisters
  intro n ws s t fs ord gmin gmax alpha decay bw ht
  change procWith exactArith n ws (withConfig fs ord gmin gmax alpha decay bw s) =
    .next (withConfig fs ord gmin gmax alpha decay bw t)
  obtain ⟨hws, rfl⟩ | ⟨hws, hrun, rfl⟩ | ⟨hws, hrun, hn, rfl⟩ | ⟨hws, hrun, hn, bank, hbank, ht⟩ := procWith_cases ht
  · rw [procWith, if_pos hws]
    rfl
  · rw [procWith, hws, if_neg Bool.false_ne_true, if_pos (by simp [withConfig, hrun])]
    rfl
  · rw [procWith, hws, if_neg Bool.false_ne_true, if_neg (by simp [withConfig, hrun]), if_pos hn]
    rfl
  · obtain rfl := Host.Outcome.next.inj (ht.symm.trans (commitChunk_eq ..))
    rw [procWith_commits (s := withConfig fs ord gmin gmax alpha decay bw s) hws hrun hn hbank]
    rfl

/-- A mix in which one gain alone is not zero, under N1. -/
theorem mixBands_of_single {A : Arith} (hA : A.N1) {g : PerBand Val} (out : PerBand Val) {b : BandIx}
    (hg : ∀ b', b' ≠ b → g.get b' = Val.zero) : mixBands A g out = A.mul (g.get b) (out.get b) := by
  have hterm (b' : BandIx) :
      A.mul (g.get b') (out.get b') = if b' = b then A.mul (g.get b) (out.get b) else Val.zero := by
    split_ifs with hb
    · rw [hb]
    · rw [hg b' hb, hA.zeroMul]
  change A.add (A.add (A.add (A.add (A.mul (g.get 0) (out.get 0)) (A.mul (g.get 1) (out.get 1)))
    (A.mul (g.get 2) (out.get 2))) (A.mul (g.get 3) (out.get 3))) (A.mul (g.get 4) (out.get 4)) = _
  rw [hterm 0, hterm 1, hterm 2, hterm 3, hterm 4]
  generalize A.mul (g.get b) (out.get b) = v
  fin_cases b <;> simp [hA.addZero, hA.zeroAdd]

/-- Settles O43: the gain of a muted band is zero, so the mix is the one band's term. -/
theorem oneBandAlone : Obligations.OneBandAlone := by
  unfold Obligations.OneBandAlone
  intro A h x s b c t hA hmuted hopen
  have hgain (b' : BandIx) (hb : b' ≠ b) : (gainSnapshot s).get b' = Val.zero := by
    rw [gainSnapshot_get, effectiveGain, if_pos (hmuted b' hb)]
  rw [compositeAt, mixBands_of_single hA _ hgain, gainSnapshot_get, PerBand.get_build, effectiveGain, hopen,
    if_neg Bool.false_ne_true]

theorem getlastWith_of_last (A : Arith) {s : State} {x : List (List Val)} (hv : s.lastValid = true)
    (hx : s.last = some x) : getlastWith A s = .next (putResponse s.active
      (responseHeader 0x08 0 0 s.lastLen ::
        payloadOf s.params.nch s.lastLen.toNat fun c t => A.enc (sampleAt x c t)) s) := by
  rw [getlastWith, if_pos hv, hx]
  rfl

/-- Settles O44, by the branch on `LAST_VALID`. -/
theorem getlastAnswersTheLastChunk : Obligations.GetlastAnswersTheLastChunk := by
  unfold Obligations.GetlastAnswersTheLastChunk
  intro s
  refine ⟨fun hv => ?_, fun x hv hx => getlastWith_of_last exactArith hv hx⟩
  change getlastWith exactArith s = _
  rw [getlastWith, if_neg (ne_true_of_eq_false hv)]
  rfl

/-! ### `ANLZ`, `ANLZL` and `GETFRAME` -/

theorem anlzWith_of_finite (A : Arith) {n : BitVec 16} {ws : List Word} {s : State}
    (hws : ∀ w ∈ ws, w.toNat / 2 ^ 23 % 2 ^ 8 ≠ 255) (hn : n ≠ 0) :
    anlzWith A n ws s = analyseChunk A n.toNat (channelsOf s.params.nch n.toNat ws) s := by
  rw [anlzWith, (payloadNonFinite_eq_false_iff ws).mpr hws, if_neg Bool.false_ne_true, if_neg hn]

theorem anlzlWith_of_last (A : Arith) {s : State} {x : List (List Val)} (hv : s.lastValid = true)
    (hx : s.last = some x) : anlzlWith A s = analyseChunk A s.lastLen.toNat x s := by
  rw [anlzlWith, if_pos hv, hx]

/-- Settles O46: the payload check, then the empty chunk, and for `ANLZL` the chunk that is not there. -/
theorem anlzRefusals : Obligations.AnlzRefusals := by
  unfold Obligations.AnlzRefusals
  intro n ws s
  simp only [← payloadNonFinite_iff, ← payloadNonFinite_eq_false_iff]
  change (_ → anlzWith exactArith n ws s = _) ∧ (_ → _ → anlzWith exactArith n ws s = _) ∧
    (_ → anlzlWith exactArith s = _)
  unfold anlzWith anlzlWith
  refine ⟨fun hws => ?_, fun hws hn => ?_, fun hv => ?_⟩
  · rw [if_pos hws]
    rfl
  · rw [hws, if_neg Bool.false_ne_true, if_pos hn]
    rfl
  · rw [if_neg (ne_true_of_eq_false hv)]
    rfl

/-- Settles O47: the chunk passes the checks and is analysed. -/
theorem anlzAnswersTheFrame : Obligations.AnlzAnswersTheFrame := by
  unfold Obligations.AnlzAnswersTheFrame
  intro n ws s hws hn
  exact ⟨_, _, rfl, rfl, anlzWith_of_finite exactArith hws hn⟩

/-- Settles O48: the last chunk is analysed, and `ANLZ` of words that decode to it analyses the same chunk. -/
theorem anlzlAnalysesTheLastChunk : Obligations.AnlzlAnalysesTheLastChunk := by
  unfold Obligations.AnlzlAnalysesTheLastChunk
  intro s hv
  refine ⟨fun x hx => ⟨_, _, rfl, rfl, anlzlWith_of_last exactArith hv hx⟩, fun ws hx hn hws => ?_⟩
  exact (anlzlWith_of_last exactArith hv hx).trans (anlzWith_of_finite exactArith hws hn).symm

/-- Settles O57: `GETFRAME` has one outcome. -/
theorem getframeAnswersTheFrame : Obligations.GetframeAnswersTheFrame := by
  unfold Obligations.GetframeAnswersTheFrame
  intro s
  rfl

/-- Settles O56: the new peak is a maximum one of whose operands is the new level. -/
theorem peakIsNotBelowItsLevel : Obligations.PeakIsNotBelowItsLevel := by
  unfold Obligations.PeakIsNotBelowItsLevel
  intro A n ws s hA hws hn
  refine ⟨_, _, anlzWith_of_finite A hws hn, fun i hi => ?_⟩
  dsimp only
  rw [nextPeak_getD _ _ hi]
  exact (hA.notLess _ _).2

end Sys2Proof.Machine
end

section
/-! PROOFS. The filter design in real numbers: the windowed ideal response and its symmetry (R132, R134, R138). -/

namespace Sys2Proof.Machine

theorem designBandpass_getD (A : Arith) (lo hi : Rat) (fs : Nat) {M j : Nat} (hj : j < M) :
    (designBandpass A lo hi fs M).getD j Val.zero = bandpassTap A lo hi fs M j := by
  rw [designBandpass, List.getD_eq_getElem?_getD, List.getElem?_map, List.getElem?_range hj, Option.map_some,
    Option.getD_some]

/-- The ideal band-pass response at `n` samples from the centre (R132, R134). -/
noncomputable def idealResponse (lo hi : Rat) (fs : Nat) (n : ℝ) : ℝ :=
  let ωL : ℝ := 2 * Real.pi * lo / fs
  let ωH : ℝ := 2 * Real.pi * hi / fs
  if n = 0 then (ωH - ωL) / Real.pi else (Real.sin (ωH * n) - Real.sin (ωL * n)) / (n * Real.pi)

theorem idealResponse_zero (lo hi : Rat) (fs : Nat) : idealResponse lo hi fs 0 = 2 * ((hi : ℝ) - lo) / fs := by
  have hpi := Real.pi_ne_zero
  rw [idealResponse, if_pos rfl]
  field_simp

theorem idealResponse_neg (lo hi : Rat) (fs : Nat) (n : ℝ) : idealResponse lo hi fs (-n) = idealResponse lo hi fs n := by
  simp only [idealResponse, neg_eq_zero, mul_neg, Real.sin_neg, neg_mul]
  split_ifs
  · rfl
  · rw [div_neg, ← neg_div]
    ring

/-- An angle of `f·n/fs` turns is `ω·n`. -/
theorem toReal_sin_turns (f : Rat) (fs : Nat) (n : Int) :
    (Exact.sin (f * n / (fs : Rat))).toReal = Real.sin (2 * Real.pi * f / fs * n) := by
  rw [toReal_sin]
  push_cast
  ring_nf

theorem toReal_idealTap (lo hi : Rat) (fs : Nat) (n : Int) :
    (idealTap exactArith lo hi fs n).toReal = idealResponse lo hi fs n := by
  by_cases hn : n = 0
  · rw [hn, Int.cast_zero, idealResponse_zero, idealTap, if_pos rfl, toReal_rat]
    push_cast
    rfl
  · rw [idealTap, if_neg hn, exactArith_div, exactArith_sub, exactArith_mul, exactArith_sin, exactArith_pi, toReal_div,
      toReal_sub, toReal_mul, toReal_sin_turns, toReal_sin_turns, toReal_rat, Rat.cast_intCast, idealResponse,
      if_neg (Int.cast_ne_zero.mpr hn)]
    rfl

/-- An odd length, with its centre. -/
theorem cast_odd {M : Nat} (hM : M % 2 = 1) : (M : ℝ) = 2 * ((M - 1) / 2 : Nat) + 1 := by
  exact_mod_cast (by omega : M = 2 * ((M - 1) / 2) + 1)

/-- A tap is the windowed ideal response at the centred index, whose centre is a tap because the length is odd (R132). -/
theorem toReal_designBandpass_getD (lo hi : Rat) (fs : Nat) {M j : Nat} (hM : M % 2 = 1) (hj : j < M) :
    ((designBandpass exactArith lo hi fs M).getD j Val.zero).toReal =
      idealResponse lo hi fs ((j : ℝ) - ((M : ℝ) - 1) / 2) * (hamming exactArith M j).toReal := by
  have hcentre : (((j : Int) - ((M - 1) / 2 : Nat) : Int) : ℝ) = (j : ℝ) - ((M : ℝ) - 1) / 2 := by
    rw [Int.cast_sub, Int.cast_natCast, Int.cast_natCast]
    linarith [cast_odd hM]
  rw [designBandpass_getD _ _ _ _ hj, bandpassTap, exactArith_mul, toReal_mul, toReal_idealTap, hcentre]

/-- Settles O29: the length by construction, the taps by the formula at the centred index. -/
theorem tapsAreTheWindowedIdealResponse : Obligations.TapsAreTheWindowedIdealResponse := by
  unfold Obligations.TapsAreTheWindowedIdealResponse
  intro lo hi fs M j _ hM hj
  exact ⟨length_designBandpass .., toReal_designBandpass_getD lo hi fs hM hj⟩

/-- The window is symmetric (R133). -/
theorem toReal_hamming_reflect {M j : Nat} (hM : 2 ≤ M) (hj : j < M) :
    (hamming exactArith M (M - 1 - j)).toReal = (hamming exactArith M j).toReal := by
  have hne : (M : ℝ) - 1 ≠ 0 := by
    have : (2 : ℝ) ≤ M := by exact_mod_cast hM
    linarith
  have hcast : ((M - 1 - j : Nat) : ℝ) = M - 1 - j := by
    rw [Nat.cast_sub (by omega), Nat.cast_pred (by omega)]
  have hangle : 2 * Real.pi * (M - 1 - j) / (M - 1 : ℝ) = 2 * Real.pi - 2 * Real.pi * j / (M - 1) := by
    field_simp
  rw [toReal_hamming hM, toReal_hamming hM, hcast, hangle, Real.cos_two_pi_sub]

/-- At its centre the window is 1. -/
theorem toReal_hamming_centre {M : Nat} (hM : M % 2 = 1) : (hamming exactArith M ((M - 1) / 2)).toReal = 1 := by
  rcases eq_or_ne M 1 with rfl | hne
  · rw [hamming_one, toReal_one]
  · have hM1 : (M : ℝ) - 1 = 2 * ((M - 1) / 2 : Nat) := by linarith [cast_odd hM]
    have hpos : (((M - 1) / 2 : Nat) : ℝ) ≠ 0 := Nat.cast_ne_zero.mpr (by omega)
    rw [toReal_hamming (by omega), hM1, mul_div_mul_right _ _ hpos, mul_div_cancel_left₀ _ two_ne_zero, Real.cos_pi]
    norm_num

/-- Settles O30: reflecting the index negates the centred index, which the ideal response and the window do not see. -/
theorem tapsAreSymmetric : Obligations.TapsAreSymmetric := by
  unfold Obligations.TapsAreSymmetric
  intro lo hi fs M j _ hM hj
  constructor
  case left =>
    rcases eq_or_ne M 1 with rfl | hne
    · obtain rfl : j = 0 := by omega
      rfl
    · have hcast : ((M - 1 - j : Nat) : ℝ) = M - 1 - j := by
        rw [Nat.cast_sub (by omega), Nat.cast_pred (by omega)]
      rw [toReal_designBandpass_getD lo hi fs hM hj, toReal_designBandpass_getD lo hi fs hM (by omega),
        toReal_hamming_reflect (by omega) hj, ← idealResponse_neg, hcast]
      ring_nf
  case right =>
    have hcentre : (((M - 1) / 2 : Nat) : ℝ) - ((M : ℝ) - 1) / 2 = 0 := by linarith [cast_odd hM]
    rw [toReal_designBandpass_getD lo hi fs hM (by omega), hcentre, idealResponse_zero, toReal_hamming_centre hM, mul_one]

end Sys2Proof.Machine
end

section
/-! PROOFS. A stream cut into chunks (R180): what the tail row holds after the chunks so far is the convolution of those
chunks past their end, so each chunk's output is the convolution of the whole stream. -/

namespace Sys2Proof.Machine

/-- The tail row `row` carries what the samples `past` still owe to the samples after them. -/
def Carries (h past row : List Val) : Prop :=
  ∀ k, (if k < h.length - 1 then (row.getD k Val.zero).toReal else 0) = streamConv h past (past.length + k)

theorem streamConv_nil (h : List Val) (T : Nat) : streamConv h [] T = 0 :=
  Finset.sum_eq_zero fun j _ => by rw [List.getD_nil, toReal_zero, mul_zero, ite_self]

theorem carries_nil (h : List Val) (n : Nat) : Carries h [] (List.replicate n Val.zero) := by
  intro k
  rw [getD_replicate_zero, toReal_zero, ite_self, streamConv_nil]

/-- The convolution of the past and a chunk, from the chunk on. -/
theorem streamConv_past_append (h past x : List Val) (k : Nat) :
    streamConv h (past ++ x) (past.length + k) = streamConv h past (past.length + k) + streamConv h x k := by
  rw [streamConv_append, if_neg (by omega), Nat.add_sub_cancel_left]

section Chunk

variable {h past row : List Val} (hc : Carries h past row)
include hc

theorem toReal_overlapOut_of_carries (x : List Val) (t : Nat) :
    (overlapOut exactArith h x row t).toReal = streamConv h (past ++ x) (past.length + t) := by
  rw [toReal_overlapOut, hc t, streamConv_past_append, add_comm]

/-- The tail update carries what the past and the new chunk owe (R176). -/
theorem carries_overlapTail {mmax : Nat} (h1 : 1 ≤ h.length) (hmax : h.length ≤ mmax) (x : List Val) :
    Carries h (past ++ x) (overlapTail exactArith mmax h x row) := by
  intro k
  by_cases hk : k < h.length - 1
  · have hdue := hc (k + x.length)
    rw [if_pos hk, List.getD_eq_getElem?_getD, overlapTail_getElem? _ _ _ _ (by omega), if_pos hk, Option.getD_some,
      exactArith_add, toReal_add, toReal_bandSignal, apply_ite Val.toReal, toReal_zero, hdue, List.length_append,
      add_assoc, streamConv_past_append, add_comm k]
  · rw [if_neg hk, streamConv_eq_zero_of_le h1 (by omega)]

end Chunk

/-- From a row that carries the past, the chunks' output is the convolution of the whole stream from there on. -/
theorem streamOut_of_carries {h : List Val} {mmax : Nat} (h1 : 1 ≤ h.length) (hmax : h.length ≤ mmax)
    (chunks : List (List Val)) (past row : List Val) (hc : Carries h past row) {T : Nat} (hT : T < chunks.flatten.length) :
    ∃ v, (streamOut exactArith mmax h row chunks)[T]? = some v ∧
      v.toReal = streamConv h (past ++ chunks.flatten) (past.length + T) := by
  induction chunks generalizing past row T with
  | nil => simp at hT
  | cons x xs ih =>
    rw [List.flatten_cons, ← List.append_assoc]
    by_cases hx : T < x.length
    · refine ⟨overlapOut exactArith h x row T, ?_, ?_⟩
      · rw [streamOut, List.getElem?_append_left (by simpa using hx), List.getElem?_map, List.getElem?_range hx,
          Option.map_some]
      · rw [toReal_overlapOut_of_carries hc, streamConv_append h (past ++ x), if_pos (by rw [List.length_append]; omega)]
    · rw [List.flatten_cons, List.length_append] at hT
      obtain ⟨v, hv, hval⟩ := ih (past ++ x) _ (carries_overlapTail hc h1 hmax x) (T := T - x.length) (by omega)
      refine ⟨v, ?_, ?_⟩
      · rw [streamOut, List.getElem?_append_right (by simpa using hx), List.length_map, List.length_range, hv]
      · rw [hval, List.length_append, add_assoc, Nat.add_sub_cancel' (not_lt.mp hx)]

/-- Settles O41: the first chunk starts from a row of zeros, which carries an empty past. -/
theorem chunkingDoesNotChangeTheStream : Obligations.ChunkingDoesNotChangeTheStream := by
  unfold Obligations.ChunkingDoesNotChangeTheStream
  intro mmax h chunks T h1 hmax hT
  obtain ⟨v, hv, hval⟩ := streamOut_of_carries h1 hmax chunks [] _ (carries_nil h (mmax - 1)) hT
  exact ⟨v, hv, by rw [hval, List.nil_append, List.length_nil, Nat.zero_add]⟩

end Sys2Proof.Machine
end

section
/-! PROOFS. The analyzer's bins and a silent chunk: a magnitude as a modulus (R194), the band edges and the partition of
the bins (R195, R196), and what silence does to the frame (R202). -/

namespace Sys2Proof.Machine

/-! ### Magnitudes -/

theorem toReal_magnitudeAt_eq_norm (n : Nat) (v : List Val) (k : Nat) :
    (magnitudeAt exactArith n v k).toReal = ‖complexOf (dftBin exactArith n v k)‖ := by
  rw [toReal_magnitudeAt, Complex.norm_eq_sqrt_sq_add_sq, complexOf]

/-- Settles O49: the two sums of a bin are the parts of the transform, whose factors are the roots of unity of R18. -/
theorem magnitudeIsTheModulusOfTheTransform : Obligations.MagnitudeIsTheModulusOfTheTransform := by
  unfold Obligations.MagnitudeIsTheModulusOfTheTransform
  intro v k _
  rw [toReal_magnitudeAt_eq_norm, complexOf_dftBin]
  congr 1
  refine Finset.sum_congr rfl fun t _ => ?_
  rw [rootAt, cast_mkRat]
  congr 2
  push_cast
  ring

/-! ### Band edges -/

theorem toReal_bandEdge (na fs i : Nat) :
    (bandEdge exactArith na fs i).toReal = 20 * (((fs : ℝ) / 2) / 20) ^ ((i : ℝ) / na) := by
  have hbase : ((mkRat fs (2 * lowestEdge) : Rat) : ℝ) = (fs : ℝ) / 2 / 20 := by
    rw [cast_mkRat, div_div, lowestEdge]
    norm_num
  rw [bandEdge, exactArith_mul, exactArith_pow, toReal_mul, toReal_pow, toReal_rat, hbase, lowestEdge]
  norm_num

theorem defined_bandEdge {na fs : Nat} (hna : 1 ≤ na) (hfs : 41 ≤ fs) (i : Nat) :
    (bandEdge exactArith na fs i).Defined := by
  have hbase : 0 < mkRat fs (2 * lowestEdge) := by
    rw [Rat.mkRat_eq_div, lowestEdge]
    have : (0 : Rat) < (fs : Rat) := by exact_mod_cast (by omega : 0 < fs)
    positivity
  exact defined_mul trivial (defined_pow hbase hna)

theorem edgeBelow_iff {na fs : Nat} (hna : 1 ≤ na) (hfs : 41 ≤ fs) (i : Nat) (f : Rat) :
    edgeBelow exactArith na fs i f = true ↔ 20 * (((fs : ℝ) / 2) / 20) ^ ((i : ℝ) / na) ≤ (f : ℝ) := by
  rw [edgeBelow, decide_eq_true_iff, Ne, compareRat_eq_gt (defined_bandEdge hna hfs i), not_lt, toReal_bandEdge]

/-- Settles O50: the comparison of a defined value is exact, and an edge is defined. -/
theorem bandEdgeTestIsExact : Obligations.BandEdgeTestIsExact := by
  unfold Obligations.BandEdgeTestIsExact
  intro na fs i f hna hfs _
  exact edgeBelow_iff hna hfs i f

section Bins

variable {na fs : Nat} (hna : 1 ≤ na) (hfs : 41 ≤ fs)
include hna hfs

theorem edgeBelow_zero_iff (f : Rat) : edgeBelow exactArith na fs 0 f = true ↔ 20 ≤ f := by
  rw [edgeBelow_iff hna hfs, Nat.cast_zero, zero_div, Real.rpow_zero, mul_one]
  exact_mod_cast Iff.rfl

/-- The edges ascend: from 41 Hz on half the sample rate is above the lowest edge (R195). -/
theorem edgeBelow_of_le {i j : Nat} (hij : i ≤ j) {f : Rat} (h : edgeBelow exactArith na fs j f = true) :
    edgeBelow exactArith na fs i f = true := by
  have hbase : (1 : ℝ) ≤ (fs : ℝ) / 2 / 20 := by
    have : (41 : ℝ) ≤ fs := by exact_mod_cast hfs
    linarith
  have hexp : (i : ℝ) / na ≤ (j : ℝ) / na := by
    have : (i : ℝ) ≤ j := by exact_mod_cast hij
    gcongr
  rw [edgeBelow_iff hna hfs] at h ⊢
  linarith [Real.rpow_le_rpow_of_exponent_le hbase hexp]

end Bins

theorem binFrequency_le_nyquist {fs n k : Nat} (hk : k ≤ n / 2) (hn : 1 ≤ n) : binFrequency fs n k ≤ mkRat fs 2 := by
  have hn0 : (0 : Rat) < n := by exact_mod_cast hn
  have h2k : (2 * k : Rat) ≤ n := by exact_mod_cast (by omega : 2 * k ≤ n)
  have hfs : (0 : Rat) ≤ fs := Nat.cast_nonneg fs
  rw [binFrequency, Rat.mkRat_eq_div, Rat.mkRat_eq_div, div_le_div_iff₀ hn0 (by norm_num)]
  push_cast
  nlinarith

theorem twenty_le_binFrequency_iff {fs n k : Nat} (hn : 1 ≤ n) : 20 ≤ binFrequency fs n k ↔ 20 * n ≤ k * fs := by
  have hn0 : (0 : Rat) < n := by exact_mod_cast hn
  rw [binFrequency, Rat.mkRat_eq_div, le_div_iff₀ hn0]
  exact_mod_cast Iff.rfl

/-- A bin up to the Nyquist frequency is in a band between its two edges, the upper one open but for the last band. -/
theorem mem_binsOf_iff (A : Arith) {na fs n i k : Nat} (hn : 1 ≤ n) (hk : k ≤ n / 2) : k ∈ binsOf A na fs n i ↔
    edgeBelow A na fs i (binFrequency fs n k) = true ∧
      (i + 1 = na ∨ edgeBelow A na fs (i + 1) (binFrequency fs n k) = false) := by
  rw [binsOf, List.mem_filter, List.mem_range, binInBand]
  simp only [Nat.lt_succ_of_le hk, true_and, Bool.and_eq_true]
  refine and_congr_right fun _ => ?_
  split_ifs with hlast
  · simp [hlast, binFrequency_le_nyquist hk hn]
  · simp [hlast]

/-- Settles O51: two bands would need an edge both below and above the bin, and the band of a bin is the last whose lower
edge is not above it. -/
theorem binsArePartitioned : Obligations.BinsArePartitioned := by
  unfold Obligations.BinsArePartitioned
  intro na fs n k hna hfs hn hk
  have hapart (i j : Nat) (hij : i < j) (hj : j < na) (hi : k ∈ binsOf exactArith na fs n i) :
      k ∉ binsOf exactArith na fs n j := by
    intro hkj
    obtain ⟨-, hupper⟩ := (mem_binsOf_iff _ hn hk).mp hi
    obtain ⟨hlower, -⟩ := (mem_binsOf_iff _ hn hk).mp hkj
    have hopen := hupper.resolve_left (by omega)
    rw [edgeBelow_of_le hna hfs (by omega : i + 1 ≤ j) hlower] at hopen
    cases hopen
  refine ⟨fun i j hi hj hki hkj => ?disjoint, fun ⟨i, _, hki⟩ => ?from20, fun hlow => ?covered⟩
  case disjoint =>
    rcases lt_trichotomy i j with hlt | heq | hgt
    · exact absurd hkj (hapart i j hlt hj hki)
    · exact heq
    · exact absurd hki (hapart j i hgt hi hkj)
  case from20 =>
    obtain ⟨hlower, -⟩ := (mem_binsOf_iff _ hn hk).mp hki
    exact (twenty_le_binFrequency_iff hn).mp
      ((edgeBelow_zero_iff hna hfs _).mp (edgeBelow_of_le hna hfs (Nat.zero_le i) hlower))
  case covered =>
    have hzero := (edgeBelow_zero_iff hna hfs _).mpr ((twenty_le_binFrequency_iff hn).mpr hlow)
    obtain ⟨i, hle, hlower, hgreatest⟩ : ∃ i ≤ na - 1, edgeBelow exactArith na fs i (binFrequency fs n k) = true ∧
        ∀ j, i < j → j ≤ na - 1 → ¬ edgeBelow exactArith na fs j (binFrequency fs n k) = true :=
      ⟨_, Nat.findGreatest_le _, Nat.findGreatest_spec (P := (edgeBelow exactArith na fs · (binFrequency fs n k) = true)) (Nat.zero_le _) hzero,
        fun _ => Nat.findGreatest_is_greatest⟩
    refine ⟨i, by omega, (mem_binsOf_iff _ hn hk).mpr ⟨hlower, or_iff_not_imp_left.mpr fun hlast => ?_⟩⟩
    exact eq_false_of_ne_true (hgreatest (i + 1) (Nat.lt_succ_self i) (by omega))

/-! ### Silence -/

/-- A spectrum of zeros has no magnitude. -/
theorem toReal_magnitudeAt_of_zero {v : List Val} (hv : ∀ t, (v.getD t Val.zero).toReal = 0) (n k : Nat) :
    (magnitudeAt exactArith n v k).toReal = 0 := by
  rw [toReal_magnitudeAt_eq_norm, complexOf_dftBin]
  simp only [hv, Complex.ofReal_zero, zero_mul, Finset.sum_const_zero, norm_zero]

theorem toReal_rawLevel_of_zero {v : List Val} (hv : ∀ t, (v.getD t Val.zero).toReal = 0) (na fs n i : Nat) :
    (rawLevel exactArith na fs n v i).toReal = 0 := by
  rw [toReal_rawLevel]
  simp [toReal_magnitudeAt_of_zero hv]

theorem toReal_windowed_of_zero {u : List (List Val)} (hu : ∀ c t, (sampleAt u c t).toReal = 0) (nch n t : Nat) :
    ((windowed exactArith n (downmix exactArith nch n u)).getD t Val.zero).toReal = 0 := by
  rcases lt_or_ge t n with ht | ht
  · rw [List.getD_eq_getElem?_getD, windowed_getElem? _ _ ht, Option.getD_some, exactArith_mul, toReal_mul,
      toReal_downmix_getD u ht]
    simp [hu]
  · exact toReal_getD_of_length_le (by simpa [windowed] using ht)

/-- Silence normalises to zeros (R198, R202). -/
theorem toReal_chunkNorm_of_zero {p : Params} (hp : p.Ok) (fs n : Nat) {u : List (List Val)} (hdef : ChunkDefined u)
    (hu : ∀ c t, (sampleAt u c t).toReal = 0) (i : Nat) :
    ((chunkNorm exactArith p fs n u).getD i Val.zero).toReal = 0 := by
  have hall : ∀ v ∈ chunkNorm exactArith p fs n u, v.toReal = 0 := by
    intro v hv
    have hmem := List.mem_map_of_mem (f := Val.toReal) hv
    rw [chunkNorm, map_toReal_normalise (allDefined_rawLevels hp fs n hdef), List.map_map, List.mem_map] at hmem
    obtain ⟨k, -, hk⟩ := hmem
    rw [← hk, Function.comp_apply, toReal_rawLevel_of_zero (toReal_windowed_of_zero hu p.nch n), zero_div, ite_self]
  rcases lt_or_ge i (chunkNorm exactArith p fs n u).length with hi | hi
  · rw [List.getD_eq_getElem _ _ hi]
    exact hall _ (List.getElem_mem hi)
  · exact toReal_getD_of_length_le hi

theorem sampleAt_of_zeroWords {ws : List Word} (hws : ∀ w ∈ ws, w = 0x00000000 ∨ w = 0x80000000) (nch n c t : Nat) :
    sampleAt (channelsOf nch n ws) c t = Val.zero := by
  rw [sampleAt]
  rcases lt_or_ge c nch with hc | hc
  · rw [channelsOf_of_zeroWords hws hc, getD_replicate_zero]
  · rw [List.getD_eq_default (channelsOf nch n ws) _ (by simpa using hc), List.getD_nil]

/-- Settles O55: the norm of a silent chunk is zero, so the levels shrink by `1 - alpha`; the peaks decay, and a level that
shrinks stays below the peak it was below. -/
theorem silentChunkDecays : Obligations.SilentChunkDecays := by
  unfold Obligations.SilentChunkDecays
  intro n ws s h hn hws
  have hfinite := (payloadNonFinite_eq_false_iff ws).mp (payloadNonFinite_of_zeroWords hws)
  refine ⟨_, _, anlzWith_of_finite exactArith hfinite hn, fun i hi => ?_⟩
  have hnorm := toReal_chunkNorm_of_zero h.params s.cfgFs.toNat n.toNat (chunkDefined_channelsOf s.params.nch n.toNat ws)
    (fun c t => by rw [sampleAt_of_zeroWords hws, toReal_zero]) i
  obtain ⟨halpha0, halpha1⟩ := fraction_mem_unitInterval h.config.alpha
  obtain ⟨hdecay0, hdecay1⟩ := fraction_mem_unitInterval h.config.decay
  obtain ⟨hlevel0, hle, hpeak1⟩ := h.frame.range i hi
  dsimp only
  rw [nextPeak_getD _ _ hi, toReal_decayPeak, nextLevel_getD _ _ hi, toReal_smoothLevel, hnorm,
    toReal_fraction h.config.alpha, toReal_fraction h.config.decay, mul_zero, zero_add]
  refine ⟨rfl, rfl, max_le (mul_le_of_le_one_right (hlevel0.trans hle) hdecay1) (le_trans ?_ hle)⟩
  exact mul_le_of_le_one_left hlevel0 (sub_le_self 1 halpha0)

end Sys2Proof.Machine
end

section
/-! PROOFS. Rounding to the port format (R72): the finite words in the order of their values, what it is for a real to
round to one of them, and that the word of every defined value is the one it rounds to. -/

namespace Sys2Proof.Machine

/-! ### The finite words in order -/

/-- The rank is that of a finite word. -/
def IsRank (k : Int) : Prop := -largestRank ≤ k ∧ k ≤ largestRank

theorem IsRank.bounds {k : Int} (hk : IsRank k) : -0x7F7FFFFF ≤ k ∧ k ≤ 0x7F7FFFFF := hk

theorem toNat_rankWord {k : Int} (hk : IsRank k) :
    (rankWord k).toNat = if k < 0 then 2 ^ 31 + k.natAbs else k.natAbs := by
  have := hk.bounds
  rw [rankWord, BitVec.toNat_ofNat]
  split_ifs <;> omega

theorem nonFinite_rankWord {k : Int} (hk : IsRank k) : nonFinite (rankWord k) = false := by
  have := hk.bounds
  rw [← Bool.not_eq_true, nonFinite_iff, toNat_rankWord hk]
  split_ifs <;> omega

theorem rankWord_ne_secondZero {k : Int} (hk : IsRank k) : rankWord k ≠ 0x80000000 := by
  have := hk.bounds
  intro h
  have h' := congrArg BitVec.toNat h
  rw [toNat_rankWord hk, (by decide : (0x80000000 : Word).toNat = 2 ^ 31)] at h'
  split_ifs at h' <;> omega

theorem rankWord_inj {k k' : Int} (hk : IsRank k) (hk' : IsRank k') (h : rankWord k = rankWord k') : k = k' := by
  have := hk.bounds
  have := hk'.bounds
  have h' := congrArg BitVec.toNat h
  rw [toNat_rankWord hk, toNat_rankWord hk'] at h'
  split_ifs at h' <;> omega

/-- The last bit of a word is that of its rank. -/
theorem getLsbD_rankWord {k : Int} (hk : IsRank k) (heven : k % 2 = 0) : (rankWord k).getLsbD 0 = false := by
  rw [bit_eq_decide, toNat_rankWord hk, decide_eq_false_iff_not]
  split_ifs <;> omega

theorem portReal_rankWord (k : Int) : portReal (rankWord k) = rankValue k := rfl

/-- Every finite word has the value of a rank, and is that rank's word unless it is the second zero. -/
theorem exists_rank {w : Word} (hw : nonFinite w = false) : ∃ k, IsRank k ∧ portReal w = rankValue k := by
  by_cases hzero : w = 0x80000000
  · have hvalue : (dec32 0x80000000).getD 0 = rankValue 0 := by decide +kernel
    exact ⟨0, ⟨by decide, by decide⟩, by rw [hzero, portReal, hvalue]⟩
  · have hne : w.toNat ≠ 2 ^ 31 := fun h => hzero (BitVec.eq_of_toNat_eq h)
    have hlt := w.isLt
    rw [← Bool.not_eq_true, nonFinite_iff] at hw
    have hk : IsRank (if 2 ^ 31 ≤ w.toNat then 2 ^ 31 - (w.toNat : Int) else w.toNat) := by
      unfold IsRank largestRank
      split_ifs <;> omega
    refine ⟨_, hk, ?_⟩
    rw [← portReal_rankWord]
    congr 1
    refine BitVec.eq_of_toNat_eq ?_
    rw [toNat_rankWord hk]
    split_ifs <;> omega

theorem rankValue_strictMono {k k' : Int} (hk : IsRank k) (hk' : IsRank k') (h : k < k') : rankValue k < rankValue k' := by
  obtain ⟨hlow, -⟩ := hk
  obtain ⟨-, hhigh⟩ := hk'
  have key (n : Nat) : k + (n + 1) ≤ largestRank → rankValue k < rankValue (k + (n + 1)) := by
    induction n with
    | zero => intro hle; simpa using rankValue_succ_lt hlow (by omega)
    | succ n ih =>
      intro hle
      have hstep := rankValue_succ_lt (r := k + (n + 1)) (by omega) (by push_cast at hle; omega)
      rw [add_assoc k] at hstep
      push_cast at hle ⊢
      exact (ih (by omega)).trans hstep
  have hk' : k' = k + ((k' - k - 1).toNat + 1) := by omega
  rw [hk']
  exact key _ (by omega)

theorem rankValue_mono {k k' : Int} (hk : IsRank k) (hk' : IsRank k') (h : k ≤ k') : rankValue k ≤ rankValue k' := by
  rcases eq_or_lt_of_le h with rfl | hlt
  · exact le_rfl
  · exact (rankValue_strictMono hk hk' hlt).le

theorem rankValue_neg {k : Int} (hk : IsRank k) : rankValue (-k) = -rankValue k := by
  obtain ⟨hlow, hhigh⟩ := hk
  rw [rankValue_eq hlow hhigh, rankValue_eq (by omega) (by omega), Int.natAbs_neg]
  rcases lt_trichotomy k 0 with hneg | rfl | hpos
  · rw [if_neg (by omega), if_pos hneg, neg_div, neg_neg]
  · simp [magnitudeUnits_zero]
  · rw [if_pos (by omega), if_neg (by omega), neg_div]

/-! ### Rounding to a rank -/

/-- The real `r` rounds to the rank `k`: it lies between the rank's boundaries, and on one only where the rank is even. -/
def RoundsToRank (r : ℝ) (k : Int) : Prop :=
  IsRank k ∧
  (k < largestRank → r ≤ (midpoint k : ℝ) ∧ (r = (midpoint k : ℝ) → k % 2 = 0)) ∧
  (-largestRank < k → (midpoint (k - 1) : ℝ) ≤ r ∧ (r = (midpoint (k - 1) : ℝ) → k % 2 = 0))

theorem cast_midpoint (k : Int) : (midpoint k : ℝ) = ((rankValue k : ℝ) + rankValue (k + 1)) / 2 := by
  rw [midpoint]
  push_cast
  rfl

/-- Of two values the one on this side of a point half-way between them, or before it, is the nearer. -/
theorem nearer_of_le {r a b m : ℝ} (hab : a < b) (hr : r ≤ m) (hm : m ≤ (a + b) / 2) :
    |r - a| ≤ |r - b| ∧ (|r - b| = |r - a| → r = m) := by
  have hb : |r - b| = b - r := by rw [abs_sub_comm, abs_of_nonneg (by linarith)]
  rw [hb]
  refine ⟨abs_le.mpr ⟨by linarith, by linarith⟩, fun h => ?_⟩
  rcases abs_cases (r - a) with ⟨habs, -⟩ | ⟨habs, -⟩ <;> linarith

theorem nearer_of_ge {r a b m : ℝ} (hab : b < a) (hr : m ≤ r) (hm : (a + b) / 2 ≤ m) :
    |r - a| ≤ |r - b| ∧ (|r - b| = |r - a| → r = m) := by
  have h := nearer_of_le (r := -r) (a := -a) (b := -b) (m := -m) (by linarith) (by linarith) (by linarith)
  rwa [neg_sub_neg, neg_sub_neg, abs_sub_comm a, abs_sub_comm b, neg_inj] at h

/-- No other rank's value is nearer, and where one is as near the rank is even. -/
theorem RoundsToRank.nearest {r : ℝ} {k k' : Int} (h : RoundsToRank r k) (hk' : IsRank k') (hne : k' ≠ k) :
    |r - rankValue k| ≤ |r - rankValue k'| ∧ (|r - rankValue k'| = |r - rankValue k| → k % 2 = 0) := by
  obtain ⟨hk, hup, hdown⟩ := h
  have hk1 := hk
  have hk2 := hk'
  obtain ⟨hlow, hhigh⟩ := hk1
  obtain ⟨hlow', hhigh'⟩ := hk2
  rcases lt_or_gt_of_ne hne with hlt | hgt
  · obtain ⟨hle, htie⟩ := hdown (by omega)
    have hval : (rankValue k' : ℝ) ≤ rankValue (k - 1) :=
      Rat.cast_le.mpr (rankValue_mono hk' ⟨by omega, by omega⟩ (by omega))
    have hnear := nearer_of_ge (Rat.cast_lt.mpr (rankValue_strictMono hk' hk hlt)) hle
      (by rw [cast_midpoint, sub_add_cancel]; linarith)
    exact ⟨hnear.1, fun heq => htie (hnear.2 heq)⟩
  · obtain ⟨hle, htie⟩ := hup (by omega)
    have hval : (rankValue (k + 1) : ℝ) ≤ rankValue k' :=
      Rat.cast_le.mpr (rankValue_mono ⟨by omega, by omega⟩ hk' (by omega))
    have hnear := nearer_of_le (Rat.cast_lt.mpr (rankValue_strictMono hk hk' hgt)) hle
      (by rw [cast_midpoint]; linarith)
    exact ⟨hnear.1, fun heq => htie (hnear.2 heq)⟩

/-- A real that rounds to a rank rounds to that rank's word (R72). -/
theorem RoundsToRank.roundsTo {r : ℝ} {k : Int} (h : RoundsToRank r k) : RoundsTo r (rankWord k) where
  finite := nonFinite_rankWord h.1
  oneZero := rankWord_ne_secondZero h.1
  nearest w' hw' := by
    obtain ⟨k', hk', hval⟩ := exists_rank hw'
    rw [hval, portReal_rankWord]
    by_cases hne : k' = k
    · rw [hne]
    · exact (h.nearest hk' hne).1
  even w' hw' hother heq := by
    obtain ⟨k', hk', hval⟩ := exists_rank hw'
    rw [hval, portReal_rankWord] at hother heq
    exact getLsbD_rankWord h.1 ((h.nearest hk' fun hne => hother (by rw [hne])).2 heq)

/-- A greater real rounds to no lesser rank. -/
theorem RoundsToRank.mono {r r' : ℝ} {k k' : Int} (h : RoundsToRank r k) (h' : RoundsToRank r' k') (hr : r ≤ r') :
    k ≤ k' := by
  by_contra hlt
  obtain ⟨hk, -, hdown⟩ := h
  obtain ⟨hk', hup, -⟩ := h'
  obtain ⟨hlow, hhigh⟩ := hk
  obtain ⟨hlow', hhigh'⟩ := hk'
  obtain ⟨hle, htie⟩ := hdown (by omega)
  obtain ⟨hle', htie'⟩ := hup (by omega)
  rcases eq_or_lt_of_le (by omega : k' ≤ k - 1) with heq | hgap
  · rw [heq] at hle' htie'
    have := htie (by linarith)
    have := htie' (by linarith)
    omega
  · have hmid : (midpoint k' : ℝ) < midpoint (k - 1) := by
      have h1 := rankValue_strictMono (k := k') (k' := k - 1) ⟨by omega, by omega⟩ ⟨by omega, by omega⟩ hgap
      have h2 := rankValue_strictMono (k := k' + 1) (k' := k - 1 + 1) ⟨by omega, by omega⟩ ⟨by omega, by omega⟩ (by omega)
      rw [midpoint, midpoint]
      exact Rat.cast_lt.mpr (by linarith)
    linarith

theorem RoundsToRank.unique {r : ℝ} {k k' : Int} (h : RoundsToRank r k) (h' : RoundsToRank r k') : k = k' :=
  le_antisymm (h.mono h' le_rfl) (h'.mono h le_rfl)

/-- What lies between two reals that round to one rank rounds to it too. -/
theorem RoundsToRank.between {r r₁ r₂ : ℝ} {k : Int} (h₁ : RoundsToRank r₁ k) (h₂ : RoundsToRank r₂ k) (hle₁ : r₁ ≤ r)
    (hle₂ : r ≤ r₂) : RoundsToRank r k := by
  obtain ⟨hk, -, hdown⟩ := h₁
  obtain ⟨-, hup, -⟩ := h₂
  refine ⟨hk, fun hlt => ?_, fun hgt => ?_⟩
  · obtain ⟨hle, htie⟩ := hup hlt
    exact ⟨hle₂.trans hle, fun heq => htie (le_antisymm hle (heq ▸ hle₂))⟩
  · obtain ⟨hle, htie⟩ := hdown hgt
    exact ⟨hle.trans hle₁, fun heq => htie (le_antisymm (heq ▸ hle₁) hle)⟩

/-- Rounding is symmetric about zero. -/
theorem RoundsToRank.neg {r : ℝ} {k : Int} (h : RoundsToRank r k) : RoundsToRank (-r) (-k) := by
  obtain ⟨⟨hlow, hhigh⟩, hup, hdown⟩ := h
  refine ⟨⟨by omega, by omega⟩, fun hlt => ?_, fun hgt => ?_⟩
  · obtain ⟨hle, htie⟩ := hdown (by omega)
    have hmid : midpoint (-k) = -midpoint (k - 1) := by
      rw [midpoint, midpoint, sub_add_cancel, rankValue_neg ⟨by omega, by omega⟩,
        (by ring : -k + 1 = -(k - 1)), rankValue_neg ⟨by omega, by omega⟩]
      ring
    rw [hmid, Rat.cast_neg, neg_le_neg_iff, neg_inj]
    exact ⟨hle, fun heq => by have := htie heq; omega⟩
  · obtain ⟨hle, htie⟩ := hup (by omega)
    have hmid : midpoint (-k - 1) = -midpoint k := by
      rw [midpoint, midpoint, sub_add_cancel, rankValue_neg ⟨by omega, by omega⟩,
        (by ring : -k - 1 = -(k + 1)), rankValue_neg ⟨by omega, by omega⟩]
      ring
    rw [hmid, Rat.cast_neg, neg_le_neg_iff, neg_inj]
    exact ⟨hle, fun heq => by have := htie heq; omega⟩

/-- The value of a rank rounds to it. -/
theorem roundsToRank_rankValue {k : Int} (hk : IsRank k) : RoundsToRank (rankValue k) k := by
  have hk' := hk
  obtain ⟨hlow, hhigh⟩ := hk'
  refine ⟨hk, fun hlt => ?_, fun hgt => ?_⟩
  · have hnext : (rankValue k : ℝ) < rankValue (k + 1) := Rat.cast_lt.mpr (rankValue_succ_lt hlow hlt)
    rw [cast_midpoint]
    exact ⟨by linarith, fun heq => by linarith⟩
  · have hprev : (rankValue (k - 1) : ℝ) < rankValue k :=
      Rat.cast_lt.mpr (rankValue_strictMono ⟨by omega, by omega⟩ hk (by omega))
    rw [cast_midpoint, sub_add_cancel]
    exact ⟨by linarith, fun heq => by linarith⟩

end Sys2Proof.Machine
end

section
/-! PROOFS. The word of a rational (R72): the half-even rounding of the scaled magnitude, in units of `2^-149`, is the
rounding to a rank. -/

namespace Sys2Proof.Machine

/-! ### The integer nearest to a quotient -/

/-- `m` is the natural nearest to `y`, the even one where two are as near. -/
structure NearestEven (y : ℝ) (m : Nat) : Prop where
  le : y ≤ m + 1 / 2
  tieAbove : y = m + 1 / 2 → m % 2 = 0
  ge : (m : ℝ) - 1 / 2 ≤ y
  tieBelow : y = m - 1 / 2 → m % 2 = 0

/-- A quotient and its rounding, in naturals. -/
theorem nearestEven_of_nat {n d m : Nat} (hd : 0 < d) (hle : 2 * n ≤ (2 * m + 1) * d)
    (hup : 2 * n = (2 * m + 1) * d → m % 2 = 0) (hge : 2 * m * d ≤ 2 * n + d)
    (hdown : 2 * m * d = 2 * n + d → m % 2 = 0) : NearestEven ((n : ℝ) / d) m := by
  have hd' : (0 : ℝ) < d := Nat.cast_pos.mpr hd
  refine ⟨?_, fun h => hup ?_, ?_, fun h => hdown ?_⟩
  · rw [div_le_iff₀ hd']
    have : (2 * n : ℝ) ≤ (2 * m + 1) * d := by exact_mod_cast hle
    linarith
  · rw [div_eq_iff hd'.ne'] at h
    have : (2 * n : ℝ) = (2 * m + 1) * d := by linarith
    exact_mod_cast this
  · rw [le_div_iff₀ hd']
    have : (2 * m * d : ℝ) ≤ 2 * n + d := by exact_mod_cast hge
    linarith
  · rw [div_eq_iff hd'.ne'] at h
    have : (2 * m * d : ℝ) = 2 * n + d := by linarith
    exact_mod_cast this

theorem roundHalfEven_nearestEven (n : Nat) {d : Nat} (hd : 0 < d) : NearestEven ((n : ℝ) / d) (roundHalfEven n d) := by
  have hdiv := Nat.div_add_mod n d
  have hmod := Nat.mod_lt n hd
  have hodd : (2 * (n / d) + 1) * d = 2 * (d * (n / d)) + d := by ring
  have hodd' : (2 * (n / d + 1) + 1) * d = 2 * (d * (n / d)) + 3 * d := by ring
  have heven : 2 * (n / d) * d = 2 * (d * (n / d)) := by ring
  have heven' : 2 * (n / d + 1) * d = 2 * (d * (n / d)) + 2 * d := by ring
  unfold roundHalfEven
  dsimp only
  split_ifs with hbelow habove htie
  · exact nearestEven_of_nat hd (by omega) (fun _ => by omega) (by omega) fun _ => by omega
  · exact nearestEven_of_nat hd (by omega) (fun _ => by omega) (by omega) fun _ => by omega
  · exact nearestEven_of_nat hd (by omega) (fun _ => htie) (by omega) fun _ => htie
  · exact nearestEven_of_nat hd (by omega) (fun _ => by omega) (by omega) fun _ => by omega

/-! ### The exponent -/

theorem two_zpow_log2 (n : Nat) (hn : n ≠ 0) :
    (2 : ℝ) ^ (n.log2 : Int) ≤ n ∧ (n : ℝ) < (2 : ℝ) ^ ((n.log2 : Int) + 1) := by
  have hlow := Nat.log2_self_le hn
  have hhigh := Nat.lt_log2_self (n := n)
  have hcast : ((n.log2 : Int) + 1) = ((n.log2 + 1 : Nat) : Int) := by push_cast; rfl
  rw [hcast, zpow_natCast, zpow_natCast]
  exact ⟨by exact_mod_cast hlow, by exact_mod_cast hhigh⟩

/-- The model's test of a quotient against a power of two, in naturals on whichever side the power stands. -/
theorem quotient_lt_zpow_iff (n : Nat) {d : Nat} (hd : 0 < d) (e : Int) :
    (if 0 ≤ e then decide (n < d * 2 ^ e.toNat) else decide (n * 2 ^ (-e).toNat < d)) = true ↔
      (n : ℝ) / d < (2 : ℝ) ^ e := by
  have hd' : (0 : ℝ) < d := Nat.cast_pos.mpr hd
  rw [div_lt_iff₀ hd']
  split_ifs with he
  · obtain ⟨k, rfl⟩ := Int.eq_ofNat_of_zero_le he
    rw [decide_eq_true_iff, zpow_natCast, Int.toNat_natCast, mul_comm d]
    exact_mod_cast Iff.rfl
  · obtain ⟨k, hk⟩ := Int.eq_ofNat_of_zero_le (by omega : 0 ≤ -e)
    obtain rfl : e = -(k : Int) := by omega
    rw [decide_eq_true_iff, neg_neg, Int.toNat_natCast, zpow_neg, zpow_natCast, inv_mul_eq_div,
      lt_div_iff₀ (by positivity)]
    exact_mod_cast Iff.rfl

theorem log2Ratio_spec {n d : Nat} (hn : 0 < n) (hd : 0 < d) :
    (2 : ℝ) ^ log2Ratio n d ≤ (n : ℝ) / d ∧ (n : ℝ) / d < (2 : ℝ) ^ (log2Ratio n d + 1) := by
  obtain ⟨hn1, hn2⟩ := two_zpow_log2 n hn.ne'
  obtain ⟨hd1, hd2⟩ := two_zpow_log2 d hd.ne'
  have hd' : (0 : ℝ) < d := Nat.cast_pos.mpr hd
  have htwo : (2 : ℝ) ≠ 0 := two_ne_zero
  have hlow : (2 : ℝ) ^ ((n.log2 : Int) - d.log2 - 1) ≤ (n : ℝ) / d := by
    rw [le_div_iff₀ hd']
    calc (2 : ℝ) ^ ((n.log2 : Int) - d.log2 - 1) * d
        ≤ (2 : ℝ) ^ ((n.log2 : Int) - d.log2 - 1) * (2 : ℝ) ^ ((d.log2 : Int) + 1) := by gcongr
      _ = (2 : ℝ) ^ (n.log2 : Int) := by rw [← zpow_add₀ htwo]; congr 1; ring
      _ ≤ n := hn1
  have hhigh : (n : ℝ) / d < (2 : ℝ) ^ ((n.log2 : Int) - d.log2 + 1) := by
    rw [div_lt_iff₀ hd']
    calc (n : ℝ) < (2 : ℝ) ^ ((n.log2 : Int) + 1) := hn2
      _ = (2 : ℝ) ^ ((n.log2 : Int) - d.log2 + 1) * (2 : ℝ) ^ (d.log2 : Int) := by
        rw [← zpow_add₀ htwo]; congr 1; ring
      _ ≤ (2 : ℝ) ^ ((n.log2 : Int) - d.log2 + 1) * d := by gcongr
  have htest := quotient_lt_zpow_iff n hd ((n.log2 : Int) - d.log2)
  unfold log2Ratio
  dsimp only
  by_cases hbelow : (n : ℝ) / d < (2 : ℝ) ^ ((n.log2 : Int) - d.log2)
  · rw [if_pos (htest.mpr hbelow)]
    exact ⟨hlow, by rwa [sub_add_cancel]⟩
  · rw [if_neg (mt htest.mp hbelow)]
    exact ⟨not_lt.mp hbelow, hhigh⟩

/-! ### Magnitudes in units of `2^-149` -/

/-- A significand `c` of exponent field `e + 1`, or a subnormal: the value is `c·2^e` units (R70). -/
theorem magnitudeUnits_significand {e c : Nat} (hc : c ≤ 2 ^ 24) (he : e = 0 ∨ 2 ^ 23 ≤ c) :
    magnitudeUnits (e * 2 ^ 23 + c) = c * 2 ^ e := by
  unfold magnitudeUnits
  rcases lt_or_ge c (2 ^ 23) with hsub | hnorm
  · obtain rfl : e = 0 := by omega
    rw [if_pos (by omega), (by omega : (0 * 2 ^ 23 + c) % 2 ^ 23 = c), pow_zero, mul_one]
  · rcases eq_or_lt_of_le hc with rfl | hlt
    · rw [if_neg (by omega), (by omega : (e * 2 ^ 23 + 2 ^ 24) / 2 ^ 23 - 1 = e + 1),
        (by omega : (e * 2 ^ 23 + 2 ^ 24) % 2 ^ 23 = 0), pow_succ 2 e]
      ring
    · rw [if_neg (by omega), (by omega : (e * 2 ^ 23 + c) / 2 ^ 23 - 1 = e),
        (by omega : 2 ^ 23 + (e * 2 ^ 23 + c) % 2 ^ 23 = c)]

/-- The next magnitude is at least a unit of the last place further on. -/
theorem le_magnitudeUnits_next {e c : Nat} (hc : c ≤ 2 ^ 24) (he : e = 0 ∨ 2 ^ 23 ≤ c) :
    (c + 1) * 2 ^ e ≤ magnitudeUnits (e * 2 ^ 23 + c + 1) := by
  rcases eq_or_lt_of_le hc with rfl | hlt
  · rw [(by ring : e * 2 ^ 23 + 2 ^ 24 + 1 = (e + 1) * 2 ^ 23 + (2 ^ 23 + 1)),
      magnitudeUnits_significand (by norm_num) (.inr (by norm_num)), pow_succ 2 e, ← mul_assoc, mul_right_comm]
    exact Nat.mul_le_mul_right _ (by norm_num)
  · rw [add_assoc, magnitudeUnits_significand hlt (by omega)]

/-- The magnitude before is a unit of the last place back, unless the exponent changes there. -/
theorem magnitudeUnits_previous {e c : Nat} (hc : c + 1 ≤ 2 ^ 24) (he : e = 0 ∨ 2 ^ 23 ≤ c) :
    magnitudeUnits (e * 2 ^ 23 + (c + 1) - 1) = c * 2 ^ e := by
  rw [← add_assoc, Nat.add_sub_cancel, magnitudeUnits_significand (by omega) he]

/-- The magnitude `a`, in units, rounds to the magnitude bits `M`. -/
structure RoundsToMagnitude (a : ℝ) (M : Nat) : Prop where
  le : 2 * a ≤ magnitudeUnits M + magnitudeUnits (M + 1)
  tieAbove : 2 * a = magnitudeUnits M + magnitudeUnits (M + 1) → M % 2 = 0
  ge : 1 ≤ M → (magnitudeUnits (M - 1) : ℝ) + magnitudeUnits M ≤ 2 * a
  tieBelow : 1 ≤ M → 2 * a = (magnitudeUnits (M - 1) : ℝ) + magnitudeUnits M → M % 2 = 0

/-- What lies above the lower boundary of a significand lies above the lower boundary of its magnitude: where the
significand is the least of its exponent the boundary is nearer, and is not met. -/
theorem previous_boundary_le {y : ℝ} {e c : Nat} (hy : NearestEven y c) (hc : c ≤ 2 ^ 24)
    (he : e = 0 ∨ (2 : ℝ) ^ 23 ≤ y) (he' : e = 0 ∨ 2 ^ 23 ≤ c) (hpos : 1 ≤ e * 2 ^ 23 + c) :
    (magnitudeUnits (e * 2 ^ 23 + c - 1) : ℝ) + c * 2 ^ e ≤ 2 * (y * 2 ^ e) ∧
      (2 * (y * 2 ^ e) = (magnitudeUnits (e * 2 ^ 23 + c - 1) : ℝ) + c * 2 ^ e → c % 2 = 0) := by
  have hpow : (0 : ℝ) < 2 ^ e := by positivity
  obtain ⟨c, rfl⟩ := Nat.exists_eq_add_of_le' (by omega : 1 ≤ c)
  by_cases hin : e = 0 ∨ 2 ^ 23 ≤ c
  · have hge : ((c + 1 : Nat) - 1 / 2 : ℝ) * 2 ^ e ≤ y * 2 ^ e := by gcongr; exact hy.ge
    rw [magnitudeUnits_previous hc hin]
    push_cast at hge ⊢
    refine ⟨by linarith, fun htie => hy.tieBelow (mul_right_cancel₀ hpow.ne' ?_)⟩
    push_cast
    linarith
  · obtain rfl : c = 2 ^ 23 - 1 := by omega
    have hleast : (2 : ℝ) ^ 23 * 2 ^ e ≤ y * 2 ^ e := by gcongr; exact he.resolve_left (by omega)
    have hprev := magnitudeUnits_succ (e * 2 ^ 23 + (2 ^ 23 - 1))
    rw [add_assoc, magnitudeUnits_significand hc he', ← Nat.cast_lt (α := ℝ)] at hprev
    rw [← add_assoc, Nat.add_sub_cancel]
    push_cast at hprev ⊢
    exact ⟨by linarith, fun htie => by linarith⟩

/-- Rounding the significand rounds the magnitude: also where it grows to the next exponent. -/
theorem roundsToMagnitude_significand {y : ℝ} {e c : Nat} (hy : NearestEven y c) (hlt : y < 2 ^ 24)
    (he : e = 0 ∨ (2 : ℝ) ^ 23 ≤ y) : RoundsToMagnitude (y * 2 ^ e) (e * 2 ^ 23 + c) := by
  have hpow : (0 : ℝ) < 2 ^ e := by positivity
  have hc : c ≤ 2 ^ 24 := by
    have : (c : ℝ) < ((2 ^ 24 + 1 : Nat) : ℝ) := by push_cast; linarith [hy.ge]
    exact Nat.lt_succ_iff.mp (Nat.cast_lt.mp this)
  have he' : e = 0 ∨ 2 ^ 23 ≤ c := he.imp_right fun h => by
    have : ((2 ^ 23 : Nat) : ℝ) < ((c + 1 : Nat) : ℝ) := by push_cast; linarith [hy.le]
    exact Nat.lt_succ_iff.mp (Nat.cast_lt.mp this)
  have hunits : (magnitudeUnits (e * 2 ^ 23 + c) : ℝ) = c * 2 ^ e := by
    rw [magnitudeUnits_significand hc he']
    push_cast
    rfl
  have hnext : ((c : ℝ) + 1) * 2 ^ e ≤ magnitudeUnits (e * 2 ^ 23 + c + 1) := by
    exact_mod_cast le_magnitudeUnits_next hc he'
  have hle : y * 2 ^ e ≤ (c + 1 / 2) * 2 ^ e := by gcongr; exact hy.le
  have heven : c % 2 = 0 → (e * 2 ^ 23 + c) % 2 = 0 := by omega
  have hbelow (hpos) := previous_boundary_le hy hc he he' hpos
  constructor
  · rw [hunits]
    linarith
  · rw [hunits]
    exact fun htie => heven (hy.tieAbove (mul_right_cancel₀ hpow.ne' (by linarith)))
  · rw [hunits]
    exact fun hpos => (hbelow hpos).1
  · rw [hunits]
    exact fun hpos htie => heven ((hbelow hpos).2 htie)

end Sys2Proof.Machine
end

section
/-! PROOFS. The word of a value (R72): the encoders of the exact arithmetic round to a rank. -/

namespace Sys2Proof.Machine

/-! ### The magnitude bits of a quotient -/

/-- The model's scaling of a quotient by a power of two, on whichever side the power stands, rounds the scaled quotient. -/
theorem nearestEven_scaled (n : Nat) {d : Nat} (hd : 0 < d) (k : Int) :
    NearestEven ((n : ℝ) / d * (2 : ℝ) ^ k)
      (if 0 ≤ k then roundHalfEven (n * 2 ^ k.toNat) d else roundHalfEven n (d * 2 ^ (-k).toNat)) := by
  split_ifs with hk
  · obtain ⟨j, rfl⟩ := Int.eq_ofNat_of_zero_le hk
    have h := roundHalfEven_nearestEven (n * 2 ^ j) hd
    rwa [Nat.cast_mul, Nat.cast_pow, Nat.cast_ofNat, ← div_mul_eq_mul_div, ← zpow_natCast] at h
  · obtain ⟨j, hj⟩ := Int.eq_ofNat_of_zero_le (by omega : 0 ≤ -k)
    obtain rfl : k = -(j : Int) := by omega
    have h := roundHalfEven_nearestEven n (d := d * 2 ^ j) (by positivity)
    rw [neg_neg, Int.toNat_natCast]
    rwa [Nat.cast_mul, Nat.cast_pow, Nat.cast_ofNat, ← div_div, div_eq_mul_inv _ ((2 : ℝ) ^ j), ← zpow_natCast,
      ← zpow_neg] at h

/-- The magnitude bits of a positive quotient are those its magnitude rounds to, or the largest. -/
theorem encMagnitude_spec {n d : Nat} (hn : 0 < n) (hd : 0 < d) :
    ∃ M, RoundsToMagnitude ((n : ℝ) / d * 2 ^ 149) M ∧ encMagnitude n d = min M 0x7F7FFFFF := by
  obtain ⟨hlow, hhigh⟩ := log2Ratio_spec hn hd
  have htwo : (2 : ℝ) ≠ 0 := two_ne_zero
  have hq : (0 : ℝ) < (n : ℝ) / d := div_pos (Nat.cast_pos.mpr hn) (Nat.cast_pos.mpr hd)
  refine ⟨_, ?_, rfl⟩
  generalize hx : max (log2Ratio n d) (-126) = x
  have hunit : (n : ℝ) / d * 2 ^ 149 = (n : ℝ) / d * (2 : ℝ) ^ (23 - x) * 2 ^ (x + 126).toNat := by
    rw [mul_assoc, ← zpow_natCast _ (x + 126).toNat, ← zpow_add₀ htwo,
      (by omega : 23 - x + ((x + 126).toNat : Int) = (149 : Nat)), zpow_natCast]
  rw [hunit]
  refine roundsToMagnitude_significand (nearestEven_scaled n hd (23 - x)) ?_ ?_
  · calc (n : ℝ) / d * (2 : ℝ) ^ (23 - x) < (2 : ℝ) ^ (log2Ratio n d + 1) * (2 : ℝ) ^ (23 - x) := by gcongr
      _ ≤ (2 : ℝ) ^ (x + 1) * (2 : ℝ) ^ (23 - x) := by gcongr <;> [norm_num; omega]
      _ = 2 ^ 24 := by rw [← zpow_add₀ htwo, (by ring : x + 1 + (23 - x) = (24 : Nat)), zpow_natCast]
  · rcases le_total (log2Ratio n d) (-126) with hsub | hnorm
    · exact .inl (by omega)
    · right
      obtain rfl : log2Ratio n d = x := by omega
      calc (2 : ℝ) ^ 23 = (2 : ℝ) ^ log2Ratio n d * (2 : ℝ) ^ (23 - log2Ratio n d) := by
            rw [← zpow_add₀ htwo, add_sub_cancel, ← zpow_natCast]; rfl
        _ ≤ (n : ℝ) / d * (2 : ℝ) ^ (23 - log2Ratio n d) := by gcongr

/-! ### From magnitudes to ranks -/

theorem rankValue_zero : rankValue 0 = 0 := by decide +kernel

theorem magnitudeUnits_strictMono : StrictMono magnitudeUnits := strictMono_nat_of_lt_succ magnitudeUnits_succ

theorem rankValue_natCast {M : Nat} (hM : M ≤ 0x7F7FFFFF) : (rankValue M : ℝ) = magnitudeUnits M / 2 ^ 149 := by
  rw [rankValue_eq (by unfold largestRank; omega) (by unfold largestRank; omega), if_neg (by omega), Int.natAbs_natCast]
  push_cast
  rfl

theorem midpoint_natCast {M : Nat} (hM : M < 0x7F7FFFFF) :
    (midpoint M : ℝ) = ((magnitudeUnits M : ℝ) + magnitudeUnits (M + 1)) / 2 / 2 ^ 149 := by
  rw [cast_midpoint, rankValue_natCast hM.le, ← Nat.cast_succ, rankValue_natCast hM]
  ring

/-- The boundary below the rank 0 is negative. -/
theorem midpoint_neg_one_lt : (midpoint (-1) : ℝ) < 0 := by
  have hprev : rankValue (-1) < rankValue 0 := rankValue_strictMono ⟨by decide, by decide⟩ ⟨by decide, by decide⟩ (by decide)
  have hneg : (rankValue (-1) : ℝ) < 0 := by rw [rankValue_zero] at hprev; exact_mod_cast hprev
  rw [cast_midpoint, neg_add_cancel, rankValue_zero, Rat.cast_zero]
  linarith

/-- Saturating keeps the lower boundary, and above it there is no tie. -/
theorem RoundsToMagnitude.saturate {a : ℝ} {M L : Nat} (h : RoundsToMagnitude a M) (hL : 1 ≤ L) (hle : L ≤ M) :
    (magnitudeUnits (L - 1) : ℝ) + magnitudeUnits L ≤ 2 * a ∧
      (2 * a = (magnitudeUnits (L - 1) : ℝ) + magnitudeUnits L → L % 2 = 0) := by
  rcases eq_or_lt_of_le hle with rfl | hlt
  · exact ⟨h.ge hL, h.tieBelow hL⟩
  · have h1 : (magnitudeUnits (L - 1) : ℝ) < magnitudeUnits (M - 1) :=
      Nat.cast_lt.mpr (magnitudeUnits_strictMono (by omega))
    have h2 : (magnitudeUnits L : ℝ) < magnitudeUnits M := Nat.cast_lt.mpr (magnitudeUnits_strictMono hlt)
    have h3 := h.ge (by omega)
    exact ⟨by linarith, fun heq => by linarith⟩

/-- A magnitude rounds to the rank of its bits, saturating. -/
theorem RoundsToMagnitude.roundsToRank {a : ℝ} {M : Nat} (ha : 0 ≤ a) (h : RoundsToMagnitude (a * 2 ^ 149) M) :
    RoundsToRank a ((min M 0x7F7FFFFF : Nat) : Int) := by
  have hunit : (0 : ℝ) < 2 ^ 149 := by positivity
  refine ⟨⟨by unfold largestRank; omega, by unfold largestRank; omega⟩, fun hlt => ?_, fun _ => ?_⟩
  · have hM : M < 0x7F7FFFFF := by unfold largestRank at hlt; omega
    rw [min_eq_left hM.le, midpoint_natCast hM, le_div_iff₀ hunit, eq_div_iff hunit.ne']
    refine ⟨by linarith [h.le], fun heq => ?_⟩
    have := h.tieAbove (by linarith)
    omega
  · rcases Nat.eq_zero_or_pos M with rfl | hM
    · have := midpoint_neg_one_lt
      exact ⟨this.le.trans ha, fun heq => absurd (heq ▸ this) (not_lt.mpr ha)⟩
    · obtain ⟨hle, htie⟩ := h.saturate (L := min M 0x7F7FFFFF) (by omega) (min_le_left _ _)
      obtain ⟨L, hL⟩ := Nat.exists_eq_add_of_le' (by omega : 1 ≤ min M 0x7F7FFFFF)
      rw [hL, Nat.add_sub_cancel] at hle htie
      rw [hL, Nat.cast_succ, add_sub_cancel_right, midpoint_natCast (by omega), div_le_iff₀ hunit, eq_div_iff hunit.ne']
      refine ⟨by linarith, fun heq => ?_⟩
      have := htie (by linarith)
      omega

/-! ### The encoders -/

/-- The word of a rational is that of the rank it rounds to. -/
theorem encRat_spec (q : Rat) : ∃ k, RoundsToRank (q : ℝ) k ∧ encRat q = rankWord k := by
  by_cases hzero : q.num = 0
  · obtain rfl := Rat.num_eq_zero.mp hzero
    exact ⟨0, rankValue_zero ▸ roundsToRank_rankValue ⟨by decide, by decide⟩, rfl⟩
  · obtain ⟨M, hM, henc⟩ := encMagnitude_spec (Int.natAbs_pos.mpr hzero) q.den_pos
    have hround := hM.roundsToRank (by positivity)
    rw [← henc] at hround
    have hword : encRat q = rankWord (if q.num < 0 then -(encMagnitude q.num.natAbs q.den : Int)
        else encMagnitude q.num.natAbs q.den) := by
      unfold encRat
      dsimp only
      rw [if_neg hzero]
      generalize encMagnitude q.num.natAbs q.den = m
      rcases Nat.eq_zero_or_pos m with rfl | hm
      · rw [if_pos rfl, Nat.cast_zero, neg_zero, ite_self]
        rfl
      · unfold rankWord
        rw [if_neg hm.ne']
        rcases lt_or_ge q.num 0 with hneg | hpos
        · rw [if_pos hneg, if_pos hneg, if_pos (by omega), Int.natAbs_neg, Int.natAbs_natCast]
        · rw [if_neg hpos.not_gt, if_neg hpos.not_gt, if_neg (by omega), Int.natAbs_natCast]
    refine ⟨_, ?_, hword⟩
    have habs : (q : ℝ) = (q.num : ℝ) / q.den := Rat.cast_def q
    split_ifs with hneg
    · have hcast : ((q.num.natAbs : ℕ) : ℝ) = -(q.num : ℝ) := by
        rw [Nat.cast_natAbs, abs_of_neg hneg]; push_cast; rfl
      rw [hcast] at hround
      rw [habs]
      simpa [neg_div] using hround.neg
    · have hcast : ((q.num.natAbs : ℕ) : ℝ) = (q.num : ℝ) := by
        rw [Nat.cast_natAbs, abs_of_nonneg (by omega)]
      rwa [habs, ← hcast]

/-- Where both ends of an enclosure have one word, what it encloses rounds to that word's rank. -/
theorem settledWord_spec {v : Val} (ps : List Nat) {w : Word} (h : settledWord v ps = some w) :
    ∃ k, RoundsToRank v.toReal k ∧ w = rankWord k := by
  induction ps with
  | nil => cases h
  | cons p ps ih =>
    unfold settledWord at h
    split at h
    · next x hx =>
      split_ifs at h with heq
      · obtain ⟨hlo, hhi⟩ := enclose_holds hx
        obtain ⟨k, hk, hword⟩ := encRat_spec (mkRat x.lo (2 ^ p))
        obtain ⟨k', hk', hword'⟩ := encRat_spec (mkRat x.hi (2 ^ p))
        unfold encScaled at h heq
        obtain rfl := rankWord_inj hk.1 hk'.1 (by rw [← hword, heq, hword'])
        have hscale (m : Int) : ((mkRat m (2 ^ p) : Rat) : ℝ) = m / 2 ^ p := by
          rw [Rat.mkRat_eq_div]; push_cast; rfl
        rw [hscale] at hk hk'
        refine ⟨k, hk.between hk' ?_ ?_, by rw [← hword]; exact (Option.some.inj h).symm⟩
        · rwa [div_le_iff₀ (by positivity)]
        · rwa [le_div_iff₀ (by positivity)]
      · exact ih h
    · exact ih h

theorem bisectRank_mem_range (v : Val) (fuel : Nat) {lo hi : Int} (h : lo ≤ hi) :
    lo ≤ bisectRank v fuel lo hi ∧ bisectRank v fuel lo hi ≤ hi := by
  induction fuel generalizing lo hi with
  | zero => exact ⟨h, le_rfl⟩
  | succ fuel ih =>
    unfold bisectRank
    split_ifs with hdone habove
    · exact ⟨h, le_rfl⟩
    · have := ih (lo := (lo + hi) / 2 + 1) (hi := hi) (by omega)
      omega
    · have := ih (lo := lo) (hi := (lo + hi) / 2) (by omega)
      omega

theorem isRank_roundedRank (v : Val) : IsRank (roundedRank v) := by
  have hrange := bisectRank_mem_range v 33 (by decide : -largestRank ≤ largestRank)
  unfold roundedRank IsRank
  dsimp only
  split_ifs <;> omega

/-- The word of a value is that of a rational, that of an enclosure, or that of the rank found by comparison. -/
theorem enc32_cases (v : Val) :
    (∃ k, RoundsToRank v.toReal k ∧ enc32 v = rankWord k) ∨ enc32 v = rankWord (roundedRank v) := by
  unfold enc32
  split
  · next q => exact .inl (encRat_spec q)
  · split
    · next w hw => exact .inl (settledWord_spec _ hw)
    · exact .inr rfl

theorem enc32_eq_rankWord (v : Val) : ∃ k, IsRank k ∧ enc32 v = rankWord k := by
  rcases enc32_cases v with ⟨k, hk, hword⟩ | hword
  · exact ⟨k, hk.1, hword⟩
  · exact ⟨_, isRank_roundedRank v, hword⟩

/-- The word of a defined value is that of the rank it rounds to. -/
theorem enc32_spec {v : Val} (hv : v.Defined) : ∃ k, RoundsToRank v.toReal k ∧ enc32 v = rankWord k := by
  rcases enc32_cases v with h | hword
  · exact h
  · obtain ⟨hlow, hhigh, hup, hdown⟩ := roundedRank_spec hv
    exact ⟨_, ⟨⟨hlow, hhigh⟩, hup, hdown⟩, hword⟩

/-- Delivering a delivered word again changes nothing (R178). -/
theorem enc32_decVal_enc32 (v : Val) : enc32 (decVal (enc32 v)) = enc32 v := by
  obtain ⟨k, hk, hword⟩ := enc32_eq_rankWord v
  obtain ⟨k', hk', hword'⟩ := encRat_spec (rankValue k)
  rw [hword]
  change encRat (rankValue k) = rankWord k
  rw [hword', hk'.unique (roundsToRank_rankValue hk)]

end Sys2Proof.Machine
end

section
/-! PROOFS. The delivered words (R72, R178) and the named properties of the exact arithmetic (R16). -/

namespace Sys2Proof.Machine

/-! ### The last chunk delivered again -/

/-- A sample of a chunk given by its samples. -/
theorem sampleAt_map_range {nch n c t : Nat} (f : Nat → Nat → Val) (hc : c < nch) (ht : t < n) :
    sampleAt ((List.range nch).map fun c => (List.range n).map fun t => f c t) c t = f c t := by
  simp [sampleAt, List.getD_eq_getElem?_getD, hc, ht]

/-- A last chunk that holds delivered words is delivered as the same words. -/
theorem exec_getlast_of_delivered {s : State} {f : Nat → Nat → Val} (hv : s.lastValid = true)
    (hlast : s.last = some ((List.range s.params.nch).map fun c => (List.range s.lastLen.toNat).map fun t =>
      decVal (enc32 (f c t)))) :
    exec .getlast s = .next (putResponse s.active (responseHeader 0x08 0 0 s.lastLen ::
      payloadOf s.params.nch s.lastLen.toNat fun c t => enc32 (f c t)) s) := by
  rw [(getlastAnswersTheLastChunk s).2 _ hv hlast, payloadOf_congr fun c t hc ht => ?_]
  rw [sampleAt_map_range _ hc ht, enc32_decVal_enc32]

/-- Settles O45: `LAST` holds the values of the delivered words, and such a value is delivered as the same word. -/
theorem getlastRepeatsTheDeliveredChunk : Obligations.GetlastRepeatsTheDeliveredChunk := by
  unfold Obligations.GetlastRepeatsTheDeliveredChunk
  intro n ws s h hws hrun hn hbank
  exact ⟨_, _, _, procProcessesTheChunk n ws s h hws hrun hn hbank, rfl, exec_getlast_of_delivered rfl rfl⟩

/-! ### What is delivered -/

/-- The samples `PROC` delivers are defined. -/
theorem State.Inv.defined_compositeAt {s : State} (h : s.Inv) {bank : PerBand (List Val)} (hb : s.built = true)
    (hbank : s.bank = some bank) (n : Nat) (ws : List Word) (c t : Nat) :
    (compositeAt exactArith bank (channelsOf s.params.nch n ws) s c t).Defined :=
  Machine.defined_compositeAt (bankOk_of_bank h hb hbank).defined (allDefined_channelsOf _ _ _ _)
    (allDefined_tailOf h c) (fun b => h.lin b ▸ defined_db2lin _) t

/-- Settles O59: the word of a defined value is that of the rank it rounds to, what is delivered under the invariant is
defined, and every rank's word is finite. -/
theorem deliveredWordsAreRounded : Obligations.DeliveredWordsAreRounded := by
  unfold Obligations.DeliveredWordsAreRounded
  refine ⟨fun v hv => ?_, fun s hs => ⟨?_, ?_, ?_⟩, fun v => ?_⟩
  · obtain ⟨k, hk, hword⟩ := enc32_spec hv
    exact hword ▸ hk.roundsTo
  · exact fun bank n ws c t hbank hb => hs.defined_compositeAt hb hbank n.toNat ws c t
  · exact fun x c t hx hv => chunkDefined_last (lastOk_of_last hs hv hx) c t
  · exact fun v hv => hv.elim (hs.frame.defined.1 v) (hs.frame.defined.2 v)
  · obtain ⟨k, hk, hword⟩ := enc32_eq_rankWord v
    exact hword ▸ nonFinite_rankWord hk

/-! ### The named properties -/

/-- Zero absorbs and is neutral, as data: by the operand's form (R16). -/
theorem exactArith_n1 : exactArith.N1 where
  zeroMul a := by
    cases a with
    | rat q => exact congrArg Val.rat (zero_mul q)
    | _ => simp [Exact.mul]
  mulZero a := by
    cases a with
    | rat q => exact congrArg Val.rat (mul_zero q)
    | _ => simp [Exact.mul]
  addZero a := by
    cases a with
    | rat q => exact congrArg Val.rat (add_zero q)
    | _ => simp [Exact.add, Val.zero]
  zeroAdd a := by
    cases a with
    | rat q => exact congrArg Val.rat (zero_add q)
    | _ => simp [Exact.add]

theorem exactArith_n2 : exactArith.N2 where
  oneOfThem a b := by
    rw [exactArith_max, toReal_max]
    exact max_choice _ _
  notLess a b := by
    rw [exactArith_max, toReal_max]
    exact ⟨le_max_left _ _, le_max_right _ _⟩

/-- Rounding to a rank is monotone and leaves the values of ranks. -/
theorem exactArith_n3 : exactArith.N3 where
  monotone a b ha hb hle := by
    obtain ⟨k, hk, hword⟩ := enc32_spec ha
    obtain ⟨k', hk', hword'⟩ := enc32_spec hb
    rw [exactArith_enc, hword, hword', portReal_rankWord, portReal_rankWord]
    exact Rat.cast_le.mpr (rankValue_mono hk.1 hk'.1 (hk.mono hk' hle))
  zero := by decide +kernel
  one := by decide +kernel
  exact a w ha hw hval := by
    obtain ⟨k, hk, hword⟩ := enc32_spec ha
    obtain ⟨k', hk', hvalue⟩ := exists_rank hw
    obtain rfl := hk.unique (hval.trans hvalue ▸ roundsToRank_rankValue hk')
    rw [exactArith_enc, hword, portReal_rankWord, hvalue]

theorem exactArith_n4 : exactArith.N4 where
  positive g := by
    rw [exactArith_db2lin, toReal_db2lin]
    positivity
  monotone g g' h := by
    rw [exactArith_db2lin, toReal_db2lin, toReal_db2lin]
    have : (g : ℝ) ≤ g' := Int.cast_le.mpr h
    gcongr
    norm_num
  zero := by decide +kernel

theorem exactArith_n5 : exactArith.N5 where
  unit a m h0 hle hpos := by
    rw [exactArith_div, toReal_div]
    exact ⟨div_nonneg h0 hpos.le, div_le_one_of_le₀ hle hpos.le⟩
  self m hpos := by
    rw [exactArith_div, toReal_div, div_self hpos.ne']
  zero m _ := by
    cases m with
    | rat q => exact congrArg Val.rat (zero_div q)
    | _ => simp [Exact.div]

theorem exactArith_n6 : exactArith.N6 where
  blend alpha x y h0 h1 := by
    rw [toReal_smoothLevel]
    exact blend_mem_Icc ⟨h0, h1⟩ _ _

/-- Settles O60, from the reals that the operations of the exact arithmetic stand for. -/
theorem referenceInstanceHasTheNamedProperties : Obligations.ReferenceInstanceHasTheNamedProperties :=
  ⟨exactArith_n1, exactArith_n2, exactArith_n3, exactArith_n4, exactArith_n5, exactArith_n6⟩

end Sys2Proof.Machine
end
